-- ==== Sys2Proof/Word.lean ====
section
/-! DEFINITION. The word types of the core (00_scope.md R17) and its fixed-length buffers (20_memory.md R60, R61). -/

namespace Sys2Proof

/-- A word of the storage format S under NUM_DEFAULT: IEEE 754 binary32 (R9, R87). -/
abbrev F32 := BitVec 32

/-- A word of the compute format C under NUM_DEFAULT: IEEE 754 binary64 (R9). -/
abbrev F64 := BitVec 64

/-- A beat of the output port: `out_last ++ out_type ++ out_data` (R83). -/
abbrev Beat := BitVec 34

/-- A buffer of `n` elements, indexed from 0 by element (R60, R61): a list of exactly that length. -/
abbrev Buf (α : Type) (n : Nat) := { l : List α // l.length = n }

end Sys2Proof
end

