-- ==== Sys2Proof/Config.lean ====
section
/-! DEFINITION. What is fixed for the machine: the constants of 00_scope.md R5 to R7, the twiddle table of
10_state.md R46, and the free values (constants with no body) for what the spec leaves open. -/

namespace Sys2Proof

/-- `FS`, the one admitted sample rate (R8). -/
def Config.fs : Nat := 16000

/-- `FRAME` (R5). -/
abbrev Config.frame : Nat := 160

/-- `NBINS` (R5). -/
abbrev Config.nbins : Nat := 64

/-- `HANG`, in frames (R5). -/
abbrev Config.hang : Nat := 4

/-- `CAL_SAMPLES = CAL_SECONDS * FS` (R6). -/
abbrev Config.calSamples : Int := 6400

/-- The decimal literals that the rules' pseudocode uses as values of C (R5, R9). -/
inductive Literal where
  | zero | frameLen | nflat | rmsEps | targetRms | gainMin | gainMax | gainInit | attack | release
  | clip | clipNeg | nfDefault | nfMult | thrFloor | flatMax | zcrLo | zcrHi | flatEps
  deriving DecidableEq, Repr

/-- Every literal, for statements that go through them. -/
def Literal.all : List Literal :=
  [.zero, .frameLen, .nflat, .rmsEps, .targetRms, .gainMin, .gainMax, .gainInit, .attack, .release,
   .clip, .clipNeg, .nfDefault, .nfMult, .thrFloor, .flatMax, .zcrLo, .zcrHi, .flatEps]

/-- The decimal value of a literal as numerator and denominator (R5, R6). -/
def Literal.value : Literal → Int × Nat
  | .zero => (0, 1)
  | .frameLen => (160, 1)
  | .nflat => (63, 1)
  | .rmsEps => (1, 1000000)
  | .targetRms => (25, 100)
  | .gainMin => (1, 10)
  | .gainMax => (12, 1)
  | .gainInit => (1, 1)
  | .attack => (35, 100)
  | .release => (1, 100)
  | .clip => (99, 100)
  | .clipNeg => (-99, 100)
  | .nfDefault => (2, 1000)
  | .nfMult => (2, 1)
  | .thrFloor => (3, 1000)
  | .flatMax => (5, 10)
  | .zcrLo => (2, 100)
  | .zcrHi => (25, 100)
  | .flatEps => (1, 1000000000000)

/-- `const(literal)` under NUM_DEFAULT: the binary64 nearest the decimal literal (R9; words of V1 where it lists them). -/
def Literal.word : Literal → F64
  | .zero => 0x0000000000000000#64
  | .frameLen => 0x4064000000000000#64
  | .nflat => 0x404F800000000000#64
  | .rmsEps => 0x3EB0C6F7A0B5ED8D#64
  | .targetRms => 0x3FD0000000000000#64
  | .gainMin => 0x3FB999999999999A#64
  | .gainMax => 0x4028000000000000#64
  | .gainInit => 0x3FF0000000000000#64
  | .attack => 0x3FD6666666666666#64
  | .release => 0x3F847AE147AE147B#64
  | .clip => 0x3FEFAE147AE147AE#64
  | .clipNeg => 0xBFEFAE147AE147AE#64
  | .nfDefault => 0x3F60624DD2F1A9FC#64
  | .nfMult => 0x4000000000000000#64
  | .thrFloor => 0x3F689374BC6A7EFA#64
  | .flatMax => 0x3FE0000000000000#64
  | .zcrLo => 0x3F947AE147AE147B#64
  | .zcrHi => 0x3FD0000000000000#64
  | .flatEps => 0x3D719799812DEA11#64

/-- `A_HP` under NUM_DEFAULT (R7). -/
def Config.aHp : F64 := 0x3FEE8F558572AD67#64

/-- `A_LP` under NUM_DEFAULT (R7). -/
def Config.aLp : F64 := 0x3FE38D7050D05568#64

/-- `SIN160[0..40]` under NUM_DEFAULT, the quarter wave: the binary64 nearest `sin(2*pi*j/160)` (R46).
DEDUCED: the spec defines every entry and lists eleven (V2); the others were computed from the definition with
400-bit arithmetic (log 12). -/
def Config.sinQuarter : List F64 :=
  [0x0000000000000000#64, 0x3FA419DCD176E0F7#64, 0x3FB415E532398E49#64, 0x3FBE16EE4E236BF8#64,
   0x3FC4060B67A85375#64, 0x3FC8F8B83C69A60B#64, 0x3FCDE189A594FBCC#64, 0x3FD15F47C3BED971#64,
   0x3FD3C6EF372FE950#64, 0x3FD626C8282F1408#64, 0x3FD87DE2A6AEA963#64, 0x3FDACB523638033B#64,
   0x3FDD0E2E2B44DE01#64, 0x3FDF459207170FCE#64, 0x3FE0B84EE8F52E9D#64, 0x3FE1C73B39AE68C8#64,
   0x3FE2CF2304755A5E#64, 0x3FE3CF9E1D2DFDB2#64, 0x3FE4C8474600EEEE#64, 0x3FE5B8BC57520F97#64,
   0x3FE6A09E667F3BCD#64, 0x3FE77F91EB57C602#64, 0x3FE8553EE43DEF13#64, 0x3FE92150F8E417B1#64,
   0x3FE9E3779B97F4A8#64, 0x3FEA9B66290EA1A3#64, 0x3FEB48D406A50540#64, 0x3FEBEB7CBF08957D#64,
   0x3FEC83201D3D2C6D#64, 0x3FED0F8245F5427F#64, 0x3FED906BCF328D46#64, 0x3FEE05A9D625AF0F#64,
   0x3FEE6F0E134454FF#64, 0x3FEECC6EEC8DD5E9#64, 0x3FEF1DA785F71BCE#64, 0x3FEF6297CFF75CB0#64,
   0x3FEF9B24942FE45C#64, 0x3FEFC7378029F05F#64, 0x3FEFE6BF2E2660AF#64, 0x3FEFF9AF2BFBC297#64,
   0x3FF0000000000000#64]

/-! The free values. None has a body: nothing in Lean can evaluate one or prove what it is. -/

/-- The bits of a binary64 NaN that an operation on two words produces: IEEE 754 leaves its sign and payload open
(log 8). -/
opaque Config.nanBits : F64 → F64 → F64

/-- The bits of a binary32 NaN that `st` stores for a NaN (log 8). -/
opaque Config.nanBits32 : F64 → F32

/-! `NUM.hypot`, `NUM.ln` and `NUM.exp` as an implementation computes them (R9, D35, U7; log 9). D35 asks for monotone
functions, so the free value is a free monotone map (`→o`, a map with a proof that it keeps the order) of the operands'
places in the order of the words. -/

/-- `NUM.hypot`, for each sign of the first operand: from the magnitudes of the operands (log 9). The second component
of the answer is read by nothing. -/
opaque Config.hypotLib : Bool → (ℕ × ℕ →o ℕ × ℕ)

/-- `NUM.ln` (log 9). -/
opaque Config.lnLib : ℕ →o ℕ

/-- `NUM.exp` (log 9). -/
opaque Config.expLib : ℕ →o ℕ

/-- The sign of a zero that `ln` or `exp` answers (log 9). -/
opaque Config.zeroSign : F64 → Bool

/-- `NUM.hypot` where an operand is not finite (log 11). -/
opaque Config.hypotOther : F64 → F64 → F64

/-- `NUM.ln` where the operand is not positive and finite (log 11). -/
opaque Config.lnOther : F64 → F64

/-- `NUM.exp` where the operand is not finite (log 11). -/
opaque Config.expOther : F64 → F64

end Sys2Proof
end

