-- ==== Sys2Proof/Machine/Num.lean ====
section
/-! DEFINITION. The numeric configuration `NUM`, the record every rule is written over (00_scope.md R9), and `max`,
`min`, `clamp` (R11). -/

namespace Sys2Proof.Machine

/-- `NUM` (R9): storage format `S`, compute format `C`, and their operations. Of the comparisons R9 lists,
`>` and `>=` are `lt` and `le` with the operands exchanged. `aHp` and `aLp` are the coefficients of R7. -/
structure Num (S C : Type) where
  ld : S → C
  st : C → S
  add : C → C → C
  sub : C → C → C
  mul : C → C → C
  div : C → C → C
  /-- the quotient has a value: over the reals it has none by zero (44_features.md R146) -/
  hasQuotient : C → C → Bool
  sqrt : C → C
  hypot : C → C → C
  ln : C → C
  exp : C → C
  /-- `COS160[j]` -/
  cos160 : Nat → C
  /-- `SIN160[j]` -/
  sin160 : Nat → C
  const : Literal → C
  /-- `C(n)`, the conversion of an integer (R16) -/
  ofNat : Nat → C
  lt : C → C → Bool
  le : C → C → Bool
  eq : C → C → Bool
  ltS : S → S → Bool
  leS : S → S → Bool
  eqS : S → S → Bool
  finiteC : C → Bool
  finiteS : S → Bool
  aHp : C
  aLp : C

/-- `max(a, b)` is `a` if `a > b` else `b` (R11). -/
def nmax {S C : Type} (N : Num S C) (a b : C) : C := if N.lt b a then a else b

/-- `min(a, b)` is `a` if `a < b` else `b` (R11). -/
def nmin {S C : Type} (N : Num S C) (a b : C) : C := if N.lt a b then a else b

/-- `clamp(v, lo, hi)` (R11). -/
def clamp {S C : Type} (N : Num S C) (v lo hi : C) : C := nmin N (nmax N v lo) hi

end Sys2Proof.Machine
end

