-- ==== Sys2Proof/Syntax.lean ====
section
/-! DEFINITION. The operations of the core: one constructor per row of opcode_table.json (30_encoding.md R80). -/

namespace Sys2Proof

/-- The five formats of opcode_table.json: where a word stands tells its format (30_encoding.md R87, R88, R83;
60_exceptions.md R183; R81). -/
inductive Format where
  /-- `IN`, a word of the input port. -/
  | inp
  /-- `SEQ`, the stage code of the sequencer register. -/
  | seq
  /-- `OUT`, a beat of the output port. -/
  | out
  /-- `CAUSE`, the value of the cause pins. -/
  | cause
  /-- `PIN`, the reset pin. -/
  | pin
  deriving DecidableEq, Repr

/-- The width of a format in bits (R17, R81, R83, R88, R183). -/
def Format.width : Format → Nat
  | .inp => 32
  | .seq => 4
  | .out => 34
  | .cause => 2
  | .pin => 1

/-- The operation set (R80), one constructor per row of the opcode table. -/
inductive Instr where
  /-- `PUSH`: accept one sample word (R100). -/
  | push (sample : F32)
  /-- `PUSH.NONFINITE`: an input word whose exponent field is all ones (R101). -/
  | pushNonfinite (sign : BitVec 1) (fraction : BitVec 23)
  /-- `ACCUM`, SEQ code 0: waiting for samples (R171). -/
  | accum
  /-- `HANDOFF`, SEQ code 1 (R102). -/
  | handoff
  /-- `FILT`, SEQ code 2 (R112). -/
  | filt
  /-- `RMSCALC`, SEQ code 3 (R120). -/
  | rmscalc
  /-- `GAINUPD`, SEQ code 4 (R121, R122). -/
  | gainupd
  /-- `APPLY`, SEQ code 5 (R124). -/
  | apply
  /-- `CAL`, SEQ code 6 (R131). -/
  | cal
  /-- `ZCRCALC`, SEQ code 7 (R141). -/
  | zcrcalc
  /-- `DFT`, SEQ code 8 (R143). -/
  | dft
  /-- `FLATCALC`, SEQ code 9 (R146). -/
  | flatcalc
  /-- `CLASSIFY`, SEQ code 10 (R150, R151). -/
  | classify
  /-- `HYST`, SEQ code 11 (R152, R153). -/
  | hyst
  /-- `CHECK`, SEQ code 12 (R189). -/
  | check
  /-- `EMIT`, SEQ code 13 (R161). -/
  | emit
  /-- `HALT`, SEQ code 15 (R182). -/
  | halt
  /-- `SEQ.RESERVED`, SEQ code 14 (R88, R89). -/
  | seqReserved
  /-- `PCM.BEAT`: a beat of a PCM message (R85). -/
  | pcmBeat (last : BitVec 1) (data : F32)
  /-- `VAD.VOICE`: the VAD message with the new state Voice (R86). -/
  | vadVoice
  /-- `VAD.SILENCE`: the VAD message with the new state Silence (R86). -/
  | vadSilence
  /-- `CAUSE.NONE`, code 0 (R183). -/
  | causeNone
  /-- `CAUSE.NONFINITE_INPUT`, code 1 (R183). -/
  | causeNonfiniteInput
  /-- `CAUSE.NONFINITE_STATE`, code 2 (R183). -/
  | causeNonfiniteState
  /-- `CAUSE.RESERVED`, code 3 (R183). -/
  | causeReserved
  /-- `RESET`: `rst = 1` at a rising edge (R200). -/
  | reset
  deriving DecidableEq, Repr

end Sys2Proof
end

