-- ==== Sys2Proof/WellFormed.lean ====
section
/-! DEFINITION. Which terms of Instr a word can stand for. -/

namespace Sys2Proof

/-- PUSH takes the words that PUSH.NONFINITE does not, whose exponent field `bits[30:23]` is all ones: that row has
priority (R87, R101). Every other field value is
legal. -/
def Instr.wf : Instr → Bool
  | .push sample => sample.extractLsb' 23 8 != 0xFF#8
  | .pushNonfinite _ _ => true
  | .accum => true
  | .handoff => true
  | .filt => true
  | .rmscalc => true
  | .gainupd => true
  | .apply => true
  | .cal => true
  | .zcrcalc => true
  | .dft => true
  | .flatcalc => true
  | .classify => true
  | .hyst => true
  | .check => true
  | .emit => true
  | .halt => true
  | .seqReserved => true
  | .pcmBeat _ _ => true
  | .vadVoice => true
  | .vadSilence => true
  | .causeNone => true
  | .causeNonfiniteInput => true
  | .causeNonfiniteState => true
  | .causeReserved => true
  | .reset => true

end Sys2Proof
end

