-- ==== Sys2Proof/Decode.lean ====
section
/-! DEFINITION. Decoding a word of each format (30_encoding.md R83, R85 to R88; 60_exceptions.md R183; R81), and the
encoder. -/

namespace Sys2Proof

/-- Why a word is refused. -/
inductive DecodeError where
  /-- The value does not fit the format's width. -/
  | tooWide (fmt : Format)
  /-- The word has not as many bytes as its format. -/
  | wrongLength (fmt : Format)
  /-- A VAD beat with `out_last = 0` (R89 (b)). -/
  | vadBeatNotLast
  /-- A VAD beat with `out_data[31:1] != 0` (R89 (b)). -/
  | vadBeatData
  /-- `rst = 0`: the pin asks for nothing (R81). -/
  | resetPinLow
  deriving DecidableEq, Repr

/-- The exponent field `bits[30:23]` of an input word is all ones: an infinity or a NaN (30_encoding.md R87). -/
def exponentAllOnes (w : F32) : Bool := w.extractLsb' 23 8 == 0xFF#8

/-- Format IN (R87): every pattern is a PUSH, those with the exponent field all ones the reserved ones. -/
def decodeIn (w : F32) : Instr :=
  if exponentAllOnes w then .pushNonfinite (w.extractLsb' 31 1) (w.extractLsb' 0 23) else .push w

/-- Format SEQ (R88): the table of stage codes. -/
def decodeSeq (c : BitVec 4) : Instr :=
  match c.toNat with
  | 0 => .accum
  | 1 => .handoff
  | 2 => .filt
  | 3 => .rmscalc
  | 4 => .gainupd
  | 5 => .apply
  | 6 => .cal
  | 7 => .zcrcalc
  | 8 => .dft
  | 9 => .flatcalc
  | 10 => .classify
  | 11 => .hyst
  | 12 => .check
  | 13 => .emit
  | 14 => .seqReserved
  | _ => .halt

/-- Format OUT (R83, R85, R86): bit 32 tells PCM from VAD; a VAD beat is one of the two legal words. -/
def decodeOut (b : Beat) : Except DecodeError Instr :=
  if b.extractLsb' 32 1 == 0#1 then .ok (.pcmBeat (b.extractLsb' 33 1) (b.extractLsb' 0 32))
  else if b.extractLsb' 33 1 == 0#1 then .error .vadBeatNotLast
  else if b.extractLsb' 0 32 == 1#32 then .ok .vadVoice
  else if b.extractLsb' 0 32 == 0#32 then .ok .vadSilence
  else .error .vadBeatData

/-- Format CAUSE (R183). -/
def decodeCause (c : BitVec 2) : Instr :=
  match c.toNat with
  | 0 => .causeNone
  | 1 => .causeNonfiniteInput
  | 2 => .causeNonfiniteState
  | _ => .causeReserved

/-- Format PIN (R81): `rst = 1` is RESET. -/
def decodePin (p : BitVec 1) : Except DecodeError Instr :=
  if p == 1#1 then .ok .reset else .error .resetPinLow

/-- The instruction a word of a format stands for, bit 0 the least significant (R17). -/
def decode (fmt : Format) (w : Nat) : Except DecodeError Instr :=
  if 2 ^ fmt.width ≤ w then .error (.tooWide fmt)
  else match fmt with
    | .inp => .ok (decodeIn (BitVec.ofNat 32 w))
    | .seq => .ok (decodeSeq (BitVec.ofNat 4 w))
    | .out => decodeOut (BitVec.ofNat 34 w)
    | .cause => .ok (decodeCause (BitVec.ofNat 2 w))
    | .pin => decodePin (BitVec.ofNat 1 w)

/-- Bytes of a word of a format where one is carried as bytes outside the core. -/
def Format.bytes (f : Format) : Nat := (f.width + 7) / 8

/-- The value of a string of bytes, the lowest first (20_memory.md R64: little-endian, outside the core only; log 32). -/
def wordOfBytes : List (BitVec 8) → Nat
  | [] => 0
  | b :: bs => b.toNat + 256 * wordOfBytes bs

/-- The bytes of a value, the lowest first (R64). -/
def bytesOfWord : Nat → Nat → List (BitVec 8)
  | 0, _ => []
  | n + 1, w => BitVec.ofNat 8 w :: bytesOfWord n (w / 256)

/-- The instruction a string of bytes stands for at a place of the given format. -/
def decodeBytes (fmt : Format) (bs : List (BitVec 8)) : Except DecodeError Instr :=
  if bs.length = fmt.bytes then decode fmt (wordOfBytes bs) else .error (.wrongLength fmt)

/-- The field word of `IN`: sign, exponent field all ones, fraction (R87). -/
def nonfiniteWord (sign : BitVec 1) (fraction : BitVec 23) : F32 :=
  sign ++ 0xFF#8 ++ fraction

/-- The beat word `out_last ++ out_type ++ out_data` (R83). -/
def beatWord (last type : BitVec 1) (data : F32) : Beat :=
  last ++ type ++ data

/-- The word of an instruction and the format it stands in, from the same tables (R83 to R88, R183). -/
def encode : Instr → Format × Nat
  | .push sample => (.inp, sample.toNat)
  | .pushNonfinite sign fraction => (.inp, (nonfiniteWord sign fraction).toNat)
  | .accum => (.seq, 0)
  | .handoff => (.seq, 1)
  | .filt => (.seq, 2)
  | .rmscalc => (.seq, 3)
  | .gainupd => (.seq, 4)
  | .apply => (.seq, 5)
  | .cal => (.seq, 6)
  | .zcrcalc => (.seq, 7)
  | .dft => (.seq, 8)
  | .flatcalc => (.seq, 9)
  | .classify => (.seq, 10)
  | .hyst => (.seq, 11)
  | .check => (.seq, 12)
  | .emit => (.seq, 13)
  | .seqReserved => (.seq, 14)
  | .halt => (.seq, 15)
  | .pcmBeat last data => (.out, (beatWord last 0#1 data).toNat)
  | .vadVoice => (.out, (beatWord 1#1 1#1 1#32).toNat)
  | .vadSilence => (.out, (beatWord 1#1 1#1 0#32).toNat)
  | .causeNone => (.cause, 0)
  | .causeNonfiniteInput => (.cause, 1)
  | .causeNonfiniteState => (.cause, 2)
  | .causeReserved => (.cause, 3)
  | .reset => (.pin, 1)

/-- The format meant by a number of bits of the opcode table. The table's SEQ, CAUSE and PIN rows all fit one byte
and the same values occur in each: one byte is read as SEQ (log 21). -/
def formatOfBits (nbits : Nat) : Option Format :=
  match nbits with
  | 32 => some .inp
  | 8 | 4 => some .seq
  | 40 | 34 | 33 => some .out
  | 2 => some .cause
  | 1 => some .pin
  | _ => none

/-- The instruction the decoder reads from a word of the opcode table, through its bytes (R64). -/
def decodeTableWord (nbits w : Nat) : Option Instr :=
  match formatOfBits nbits with
  | none => none
  | some fmt =>
    if 256 ^ fmt.bytes ≤ w then none
    else match decodeBytes fmt (bytesOfWord fmt.bytes w) with
      | .ok i => some i
      | .error _ => none

end Sys2Proof
end

