-- ==== Sys2Proof/Machine/State.lean ====
section
/-! DEFINITION. The state of the core as plain data (10_state.md R20 to R48), its stops, and the state after reset. -/

namespace Sys2Proof.Machine

/-- Why a step stops with a fault. -/
inductive Fault where
  /-- Raised by CAUSE.RESERVED executed as an operation: code 3 is reserved and never produced (60_exceptions.md R183,
  93_implementation_defined.md U10). Safe: the core never does it, and no claim about a next state follows (log 20). -/
  | reservedCause
  deriving DecidableEq, Repr

/-- Why a step is refused. -/
inductive Refusal where
  /-- Raised by an arm of `exec` whose instruction has no meaning yet. Safe: nothing follows about a next state. -/
  | notModelled (mnemonic : String)
  /-- Raised by `step` for a word in flight that no row of the opcode table describes (30_encoding.md R89 (b)). Safe:
  the core never produces one (log 30). -/
  | undecodable (why : DecodeError)
  deriving DecidableEq, Repr

/-- The state: the tuple of R20 in its order, then the ports as data (log 2, log 3, log 4). -/
structure State where
  /-- `ACC[0..159]` (R21) -/
  acc : Buf F32 160
  /-- `FRM[0..159]` (R22) -/
  frm : Buf F32 160
  /-- `WR` (R23) -/
  wr : Nat
  /-- `HP_XP` (R24) -/
  hpXp : F64
  /-- `HP_YP` (R25) -/
  hpYp : F64
  /-- `LP_Y` (R26) -/
  lpY : F64
  /-- `GAIN` (R27) -/
  gain : F64
  /-- `CAL_LEFT` (R28) -/
  calLeft : Int
  /-- `CAL_SUM` (R29) -/
  calSum : F64
  /-- `CAL_CNT` (R30) -/
  calCnt : Nat
  /-- `NF` (R31) -/
  nf : F64
  /-- `VOICE` (R32) -/
  voice : Bool
  /-- `SIL_CNT` (R33) -/
  silCnt : Nat
  /-- `SEQ` (R34, R88) -/
  seq : BitVec 4
  /-- `HALTED` (R35) -/
  halted : Bool
  /-- `CAUSE` (R36, R183) -/
  cause : BitVec 2
  /-- `RMS` (R37) -/
  rms : F64
  /-- `NEED` (R38) -/
  need : F64
  /-- `ZC` (R39) -/
  zc : Nat
  /-- `ZCR` (R39) -/
  zcr : F64
  /-- `MAG[0..63]` (R40) -/
  mag : Buf F64 64
  /-- `GM` (R41) -/
  gm : F64
  /-- `AM` (R41) -/
  am : F64
  /-- `FLAT` (R41) -/
  flat : F64
  /-- `THR` (R42) -/
  thr : F64
  /-- `IS_VOICE` (R42) -/
  isVoice : Bool
  /-- `TRANS` (R42) -/
  trans : Bool
  /-- the level of the pin `rst` at the next rising edge (R81) -/
  rst : Bool
  /-- the words the host offers and the core has not accepted, oldest first (R71, R82) -/
  inq : List F32
  /-- the beats of the messages in flight, the next one first (R83, R200) -/
  port : List Beat
  /-- the beats the output port has driven, oldest first (R15, R83) -/
  sent : List Beat
  deriving DecidableEq, Repr

/-- A buffer with one value in every element. -/
def bufFill {α : Type} (n : Nat) (v : α) : Buf α n := ⟨List.replicate n v, List.length_replicate⟩

/-- The state right after reset (R48, R200). DESIGN CHOICE, unsafe: `acc`, `frm`, `mag` and the transients, which the
spec leaves unspecified, are zero (log 13). -/
def State.reset : State where
  acc := bufFill 160 0#32
  frm := bufFill 160 0#32
  wr := 0
  hpXp := 0#64
  hpYp := 0#64
  lpY := 0#64
  gain := Literal.gainInit.word
  calLeft := Config.calSamples
  calSum := 0#64
  calCnt := 0
  nf := Literal.nfDefault.word
  voice := false
  silCnt := 0
  seq := 0#4
  halted := false
  cause := 0#2
  rms := 0#64
  need := 0#64
  zc := 0
  zcr := 0#64
  mag := bufFill 64 0#64
  gm := 0#64
  am := 0#64
  flat := 0#64
  thr := 0#64
  isVoice := false
  trans := false
  rst := false
  inq := []
  port := []
  sent := []

end Sys2Proof.Machine
end

