-- ==== Sys2Proof/Machine/Operands.lean ====
section
/-! DEFINITION. The operand and addressing forms of the stages (20_memory.md R77; 30_encoding.md R93): direct element,
write offset, previous element, twiddle index; an element of S is widened by `ld` and a value of C narrowed by `st`. -/

namespace Sys2Proof.Machine

/-- A buffer of a list of the right length. -/
def bufOfList {α : Type} {n : Nat} (l : List α) (h : l.length = n) : Buf α n := ⟨l, h⟩

/-- `MemRead(BUF, i)` (R16); an index outside the buffer, which no rule forms (R61), reads `d`. -/
def bufGet {α : Type} {n : Nat} (d : α) (b : Buf α n) (i : Nat) : α := b.val.getD i d

/-- `MemWrite(BUF, i, v)` (R16); an index outside the buffer, which no rule forms (R61), writes nothing (log 23). -/
def bufSet {α : Type} {n : Nat} (b : Buf α n) (i : Nat) (v : α) : Buf α n :=
  ⟨b.val.set i v, by rw [List.length_set]; exact b.property⟩

/-- Direct form, element by element: each element replaced by a function of itself (R77 (a)). -/
def bufMap {α : Type} {n : Nat} (f : α → α) (b : Buf α n) : Buf α n :=
  ⟨b.val.map f, by rw [List.length_map]; exact b.property⟩

/-- `FRM[i] >= 0` for an element of S: the sign test of ZCRCALC; `-0` counts as non-negative (R141). -/
def nonNeg {S C : Type} (N : Num S C) (w : S) : Bool := N.le (N.const .zero) (N.ld w)

/-- Previous-element form `FRM[i-1]`, `FRM[i]` (R77 (b)): the number of neighbours on different sides of the sign
test. -/
def signChanges {S C : Type} (N : Num S C) : List S → Nat
  | [] => 0
  | [_] => 0
  | a :: b :: rest => (if nonNeg N b != nonNeg N a then 1 else 0) + signChanges N (b :: rest)

/-- Twiddle form: the index `(k * n) mod 160` (R77 (d)). -/
def twiddle (k n : Nat) : Nat := (k * n) % 160

end Sys2Proof.Machine
end

