-- ==== Sys2Proof/Machine/Ops.lean ====
section
/-! DEFINITION. The operations over the state that the meanings share: raising a fatal condition (60_exceptions.md
R181), the ports and their pins (30_encoding.md R82 to R84), the messages (R85, R86, R90), and what the host may do
(70_reset_and_hazards.md R203). -/

namespace Sys2Proof.Machine

/-! The stage codes of SEQ (R88). -/

abbrev seqAccum : BitVec 4 := 0#4
abbrev seqHandoff : BitVec 4 := 1#4
abbrev seqFilt : BitVec 4 := 2#4
abbrev seqRmscalc : BitVec 4 := 3#4
abbrev seqGainupd : BitVec 4 := 4#4
abbrev seqApply : BitVec 4 := 5#4
abbrev seqCal : BitVec 4 := 6#4
abbrev seqZcrcalc : BitVec 4 := 7#4
abbrev seqDft : BitVec 4 := 8#4
abbrev seqFlatcalc : BitVec 4 := 9#4
abbrev seqClassify : BitVec 4 := 10#4
abbrev seqHyst : BitVec 4 := 11#4
abbrev seqCheck : BitVec 4 := 12#4
abbrev seqEmit : BitVec 4 := 13#4
abbrev seqReservedCode : BitVec 4 := 14#4
abbrev seqHalt : BitVec 4 := 15#4

/-! The cause codes (R183). -/

abbrev causeNonfiniteInputCode : BitVec 2 := 1#2
abbrev causeNonfiniteStateCode : BitVec 2 := 2#2

/-- Taking the one exception: `raise Fatal(c)` (R181). The latch is set, the cause recorded, the sequencer sent to HALT;
nothing is saved and nothing rolled back (R184). There is no return from it: only reset leaves the halt (R182). -/
def raiseFatal (c : BitVec 2) (s : State) : State :=
  { s with halted := true, cause := c, seq := seqHalt }

/-- An operation as the core performs it: the only thing that forbids one is HALTED (R190), and while HALTED = 1 no
register changes (R182). The spec's outcome `halt(State, cause)` is a next state here (log 6, log 16). -/
def whenRunning (f : State → State) (s : State) : Host.Outcome State Fault Refusal :=
  if s.halted then .next s else .next (f s)

/-! The pins. -/

/-- `in_ready` (R82, R210): the core takes a word between frames, with no message in flight, out of reset and not
halted. R210 allows it to be low while a frame is processed and its messages are driven; the model holds it low for
exactly that long (log 5). -/
def inReady (s : State) : Bool :=
  !s.rst && !s.halted && s.seq == seqAccum && s.port.isEmpty

/-- `out_valid` (R83, R182, R200). -/
def outValid (s : State) : Bool := !s.rst && !s.halted && !s.port.isEmpty

/-- The pins `out_last`, `out_type`, `out_data` while `out_valid` is 1: the beat at this edge (R83). -/
def outBeat (s : State) : Option Beat := if outValid s then s.port.head? else none

/-- The pin `halted` (R84). -/
def haltedPin (s : State) : Bool := s.halted

/-- The pins `cause[1:0]` (R84). -/
def causePins (s : State) : BitVec 2 := s.cause

/-- The operation is performed only if the input port transfers the word (R82); a word offered while `in_ready` is 0
has no effect (R71, R107; log 17). -/
def whenAccepted (f : State → State) (s : State) : Host.Outcome State Fault Refusal :=
  if inReady s then .next (f s) else .next s

/-! Messages (R85, R86). -/

/-- The two message types, over the storage format S; no other exists (R89, R164). -/
inductive Message (S : Type) where
  | pcm (frame : Buf S 160)
  | vad (voice : Bool)
  deriving DecidableEq, Repr

/-- The beats of the samples of a PCM message: `out_last = 1` exactly on the final one (R85). -/
def pcmBeats : List F32 → List Beat
  | [] => []
  | [w] => [beatWord 1#1 0#1 w]
  | w :: x :: rest => beatWord 0#1 0#1 w :: pcmBeats (x :: rest)

/-- `zext_32(VOICE)` (R86). -/
def vadData (voice : Bool) : F32 := if voice then 1#32 else 0#32

/-- The beats of a message (R85, R86). -/
def messageBeats : Message F32 → List Beat
  | .pcm frame => pcmBeats frame.val
  | .vad voice => [beatWord 1#1 1#1 (vadData voice)]

/-- The beats of a list of messages, in order (R70). -/
def messagesBeats : List (Message F32) → List Beat
  | [] => []
  | m :: ms => messageBeats m ++ messagesBeats ms

/-- The bit `out_type` of a beat (R83). -/
def beatType (b : Beat) : BitVec 1 := b.extractLsb' 32 1

/-- The field `out_data` of a beat (R83). -/
def beatData (b : Beat) : F32 := b.extractLsb' 0 32

/-- A consumer's reading of the beat stream (R90): a beat with `out_type = 1` is a whole VAD message; one with
`out_type = 0` begins a PCM message of 160 beats. `n` bounds the number of messages read; an incomplete message at the
end is not one. -/
def readMessages : Nat → List Beat → List (Message F32)
  | 0, _ => []
  | _ + 1, [] => []
  | n + 1, b :: bs =>
    if beatType b = 1#1 then .vad (beatData b == 1#32) :: readMessages n bs
    else
      if h : ((b :: bs.take 159).map beatData).length = 160 then
        .pcm ⟨(b :: bs.take 159).map beatData, h⟩ :: readMessages n (bs.drop 159)
      else []

/-- `emit m` for each message of a list, in order (R16, R163): the messages go to the output port; it cannot fail. -/
def emitMessages (ms : List (Message F32)) (s : State) : State := { s with port := s.port ++ messagesBeats ms }

/-- A beat is driven at a rising edge (R83); a consumer that does not take it loses it, and the core does not know
(R212; log 29). -/
def driveBeat (b : Beat) (s : State) : State := { s with sent := s.sent ++ [b] }

/-! What the host may do (R203). -/

/-- The host offers one block of words (R82): any run of words, the empty run included, with no marker (R104, R105). -/
def offer (block : List F32) (s : State) : State := { s with inq := s.inq ++ block }

/-- The host asserts `rst` for the next rising edge (R81, R91; log 34). -/
def assertReset (s : State) : State := { s with rst := true }

end Sys2Proof.Machine
end

