-- ==== Sys2Proof/Machine/Accumulator.lean ====
section
/-! DEFINITION. The Frame Accumulator: PUSH, PUSH.NONFINITE, ACCUM, HANDOFF (40_frame_accumulator.md). -/

namespace Sys2Proof.Machine

/-- Storing an accepted finite word: `ACC[WR] <- w`, `WR <- WR + 1`, and HANDOFF next when the frame is full (R100,
R171). The word is stored bit for bit. -/
def storeSample (w : F32) (s : State) : State :=
  { s with
    acc := bufSet s.acc s.wr w
    wr := s.wr + 1
    seq := if s.wr + 1 = Config.frame then seqHandoff else s.seq }

/-- What accepting a word does (R100, R101): a non-finite word raises `Fatal(1)` and is not stored. -/
def acceptWord (w : F32) (s : State) : State :=
  if exponentAllOnes w then raiseFatal causeNonfiniteInputCode s else storeSample w s

/-- `PUSH w` (R100, R103, R107). -/
def execPush (sample : F32) (s : State) : Host.Outcome State Fault Refusal :=
  whenAccepted (acceptWord sample) s

/-- `PUSH` of a word with the exponent field all ones: `Fatal(NONFINITE_INPUT)` (R101, R184 (a)). -/
def execPushNonfinite (sign : BitVec 1) (fraction : BitVec 23) (s : State) : Host.Outcome State Fault Refusal :=
  whenAccepted (acceptWord (nonfiniteWord sign fraction)) s

/-- `ACCUM`: the idle position of SEQ. With no word offered nothing changes, however long (R171, R176, R194; log 18). -/
def execAccum (s : State) : Host.Outcome State Fault Refusal := whenRunning id s

/-- The copy of the completed frame (R102, R76). -/
def doHandoff (s : State) : State := { s with frm := s.acc, wr := 0, seq := seqFilt }

/-- `HANDOFF` (R102). -/
def execHandoff (s : State) : Host.Outcome State Fault Refusal := whenRunning doHandoff s

end Sys2Proof.Machine
end

