-- ==== Sys2Proof/Machine/Float.lean ====
section
/-! DEFINITION. IEEE 754 binary32 and binary64 arithmetic in round-to-nearest-even (00_scope.md R9, R13). A finite
value is held exactly: a binary64 value is an integer number of units of 2^-1074, a binary32 value of 2^-149. An
operation computes the exact result and rounds once. PRESUMED: the standard's own definitions (log 24). -/

namespace Sys2Proof.Machine

/-- The magnitude code of infinity (all bits but the sign): binary64. -/
def infCode64 : Nat := 0x7FF0000000000000

/-- The magnitude code of infinity: binary32. -/
def infCode32 : Nat := 0x7F800000

/-- The units (of the least subnormal) of a magnitude code with `f` fraction bits: the field above the fraction is 0
for a subnormal, else the exponent of the unit place plus one. -/
def unitsOfCode (f code : Nat) : Nat :=
  if code / 2 ^ f = 0 then code else (2 ^ f + code % 2 ^ f) * 2 ^ (code / 2 ^ f - 1)

/-- The exponent of the last place kept when `p / q` units are rounded to `f` fraction bits (0 for a subnormal). -/
def lastPlace (f p q : Nat) : Nat := Nat.log2 (p / q) + 1 - (f + 1)

/-- `p / q` rounded to an integer, ties to even. -/
def divNearestEven (p q : Nat) : Nat :=
  if q < 2 * (p % q) ∨ (2 * (p % q) = q ∧ (p / q) % 2 = 1) then p / q + 1 else p / q

/-- The magnitude code nearest to `p / q` units, ties to even, with `f` fraction bits and no bound on the exponent. -/
def codeOfRatio (f p q : Nat) : Nat :=
  lastPlace f p q * 2 ^ f + divNearestEven p (q * 2 ^ lastPlace f p q)

/-! binary64 words -/

/-- The sign bit. -/
def neg64 (w : F64) : Bool := w.msb

/-- All bits but the sign. -/
def code64 (w : F64) : Nat := w.toNat % 2 ^ 63

/-- `w` is a NaN. -/
def isNan64 (w : F64) : Bool := infCode64 < code64 w

/-- `w` is an infinity. -/
def isInf64 (w : F64) : Bool := code64 w == infCode64

/-- `finite(w)`: neither an infinity nor a NaN (R189). -/
def finite64 (w : F64) : Bool := code64 w < infCode64

/-- The magnitude in units of 2^-1074. -/
def units64 (w : F64) : Nat := unitsOfCode 52 (code64 w)

/-- The value in units of 2^-1074. -/
def value64 (w : F64) : Int := if neg64 w then -(units64 w : Int) else units64 w

/-- The word of a sign and a magnitude code; a code beyond infinity's is infinity. -/
def pack64 (neg : Bool) (code : Nat) : F64 :=
  BitVec.ofNat 64 ((if neg then 2 ^ 63 else 0) + min code infCode64)

/-- The binary64 nearest to `p / q` units, with the given sign (overflow to infinity, gradual underflow). -/
def round64 (neg : Bool) (p q : Nat) : F64 := pack64 neg (codeOfRatio 52 p q)

/-- A quiet NaN whose other bits are free (log 8). -/
def nan64 (a b : F64) : F64 := Config.nanBits a b ||| 0x7FF8000000000000#64

/-- The other sign. -/
def negate64 (w : F64) : F64 := w ^^^ 0x8000000000000000#64

/-- The word without its sign: `|w|`. -/
def magnitude64 (w : F64) : F64 := w &&& 0x7FFFFFFFFFFFFFFF#64

/-- `a + b`. An exact zero sum is `+0` unless both operands are negative zeros. -/
def add64 (a b : F64) : F64 :=
  if isNan64 a || isNan64 b then nan64 a b
  else if isInf64 a then (if isInf64 b && (neg64 a != neg64 b) then nan64 a b else a)
  else if isInf64 b then b
  else if value64 a + value64 b = 0 then pack64 (neg64 a && neg64 b) 0
  else round64 (decide (value64 a + value64 b < 0)) (value64 a + value64 b).natAbs 1

/-- `a - b`. -/
def sub64 (a b : F64) : F64 := add64 a (negate64 b)

/-- `a * b`. -/
def mul64 (a b : F64) : F64 :=
  if isNan64 a || isNan64 b then nan64 a b
  else if isInf64 a || isInf64 b then
    (if code64 a == 0 || code64 b == 0 then nan64 a b else pack64 (neg64 a != neg64 b) infCode64)
  else round64 (neg64 a != neg64 b) (units64 a * units64 b) (2 ^ 1074)

/-- `a / b`: a finite non-zero value over zero is an infinity (R146). -/
def div64 (a b : F64) : F64 :=
  if isNan64 a || isNan64 b then nan64 a b
  else if isInf64 a then (if isInf64 b then nan64 a b else pack64 (neg64 a != neg64 b) infCode64)
  else if isInf64 b then pack64 (neg64 a != neg64 b) 0
  else if code64 b == 0 then
    (if code64 a == 0 then nan64 a b else pack64 (neg64 a != neg64 b) infCode64)
  else round64 (neg64 a != neg64 b) (units64 a * 2 ^ 1074) (units64 b)

/-- The integer square root of `m < 4^n`, two bits of `m` at a time. -/
def isqrtGo : Nat → Nat → Nat
  | 0, _ => 0
  | n + 1, m =>
    if (2 * isqrtGo n (m / 4) + 1) * (2 * isqrtGo n (m / 4) + 1) ≤ m then 2 * isqrtGo n (m / 4) + 1
    else 2 * isqrtGo n (m / 4)

/-- The greatest `r` with `r * r ≤ m`. -/
def isqrt (m : Nat) : Nat := isqrtGo (Nat.log2 m / 2 + 1) m

/-- The square root of `u` units as a ratio to be rounded: the integer root of `u * 2^1074` doubled, plus one when the
root is not exact, over 2. Between two integers the rounding cannot tell the values apart. -/
def sqrtRatio (u : Nat) : Nat :=
  2 * isqrt (u * 2 ^ 1074) + (if isqrt (u * 2 ^ 1074) * isqrt (u * 2 ^ 1074) = u * 2 ^ 1074 then 0 else 1)

/-- `sqrt(a)`. -/
def sqrt64 (a : F64) : F64 :=
  if isNan64 a then nan64 a a
  else if code64 a == 0 then a
  else if neg64 a then nan64 a a
  else if isInf64 a then a
  else round64 false (sqrtRatio (units64 a)) 2

/-- `C(n)`. -/
def ofNat64 (n : Nat) : F64 := round64 false (n * 2 ^ 1074) 1

/-- The order of the non-NaN words: the signed magnitude code, both zeros at 0. -/
def key64 (w : F64) : Int := if neg64 w then -(code64 w : Int) else code64 w

/-- `a < b`; false with a NaN. -/
def lt64 (a b : F64) : Bool := !isNan64 a && !isNan64 b && decide (key64 a < key64 b)

/-- `a <= b`; false with a NaN. -/
def le64 (a b : F64) : Bool := !isNan64 a && !isNan64 b && decide (key64 a ≤ key64 b)

/-- `a == b`; `-0 == +0`; false with a NaN. -/
def eq64 (a b : F64) : Bool := !isNan64 a && !isNan64 b && decide (key64 a = key64 b)

/-! binary32 words -/

/-- The sign bit. -/
def neg32 (w : F32) : Bool := w.msb

/-- All bits but the sign. -/
def code32 (w : F32) : Nat := w.toNat % 2 ^ 31

/-- `w` is a NaN. -/
def isNan32 (w : F32) : Bool := infCode32 < code32 w

/-- `w` is an infinity. -/
def isInf32 (w : F32) : Bool := code32 w == infCode32

/-- `finite(w)` (R101, R189). -/
def finite32 (w : F32) : Bool := code32 w < infCode32

/-- The order of the non-NaN words. -/
def key32 (w : F32) : Int := if neg32 w then -(code32 w : Int) else code32 w

/-- `a < b` on S; false with a NaN. -/
def lt32 (a b : F32) : Bool := !isNan32 a && !isNan32 b && decide (key32 a < key32 b)

/-- `a <= b` on S; false with a NaN. -/
def le32 (a b : F32) : Bool := !isNan32 a && !isNan32 b && decide (key32 a ≤ key32 b)

/-- `a == b` on S; `-0 == +0`; false with a NaN. -/
def eq32 (a b : F32) : Bool := !isNan32 a && !isNan32 b && decide (key32 a = key32 b)

/-- The magnitude in units of 2^-149. -/
def units32 (w : F32) : Nat := unitsOfCode 23 (code32 w)

/-- The word of a sign and a magnitude code; a code beyond infinity's is infinity. -/
def pack32 (neg : Bool) (code : Nat) : F32 :=
  BitVec.ofNat 32 ((if neg then 2 ^ 31 else 0) + min code infCode32)

/-- `ld`, the exact widening (R9): a unit of 2^-149 is 2^925 units of 2^-1074. -/
def ld64 (w : F32) : F64 :=
  if isNan32 w then nan64 (w.setWidth 64) 0#64
  else if isInf32 w then pack64 (neg32 w) infCode64
  else round64 (neg32 w) (units32 w * 2 ^ 925) 1

/-- `st`, the narrowing in round-to-nearest-even (R9): overflow to infinity, gradual underflow. -/
def st32 (w : F64) : F32 :=
  if isNan64 w then Config.nanBits32 w ||| 0x7FC00000#32
  else if isInf64 w then pack32 (neg64 w) infCode32
  else pack32 (neg64 w) (codeOfRatio 23 (units64 w) (2 ^ 925))

end Sys2Proof.Machine
end

