-- ==== Sys2Proof/Machine/Elementary.lean ====
section
/-! DEFINITION. `hypot`, `ln` and `exp` under NUM_DEFAULT (00_scope.md R9; 92_eei_decisions.md D35;
93_implementation_defined.md U7): any monotone function within one unit in the last place of the exact result. For each
operand the words that bound admits form a span, whose two ends rise with the operand. The result is the answer of a
free monotone map of Config, held inside the span: every result is admitted, the function is monotone, and every
function that D35 allows is the result of some map (log 9). Where the function has no real value a free constant stands
(log 11). -/

namespace Sys2Proof.Machine

/-! The words within one unit in the last place. A value `v` in units of 2^-1074 is given by the code of the greatest
word not above it; codes run on past infinity's, as if the exponent had no bound. -/

/-- The code of the greatest word not above `p / q` units. -/
def floorCode (p q : Nat) : Nat :=
  lastPlace 52 p q * 2 ^ 52 + p / (q * 2 ^ lastPlace 52 p q)

/-- The word is the least of its binade, and the words below it lie half as far apart as those above. -/
def binadeStart (code : Nat) : Bool := code % 2 ^ 52 == 0 && decide (2 * 2 ^ 52 ≤ code)

/-- The least code within one unit in the last place of a value just above `p / q` units: its floor, or the word below
where that is half a unit below the floor and the value less than half a unit above it. -/
def leastCode (p q : Nat) : Nat :=
  if binadeStart (floorCode p q) && decide (2 * (p % (q * 2 ^ lastPlace 52 p q)) < q * 2 ^ lastPlace 52 p q) then
    floorCode p q - 1
  else floorCode p q

/-- The greatest code within one unit in the last place of a value just above `p / q` units. -/
def greatestCode (p q : Nat) : Nat := floorCode p q + 1

/-- `x` held between `lo` and `hi`. -/
def within {α : Type} [Max α] [Min α] (lo hi x : α) : α := max lo (min hi x)

/-! `hypot`. -/

/-- One unit in the last place of a value of which `m` is the integer part, in units of 2^-1074. -/
def ulpUnits (m : Nat) : Nat := 2 ^ (Nat.log2 m + 1 - 53)

/-- The codes within one unit in the last place of the root of `s`, exactly: every test is on squares. A root that is a
word has its neighbours. -/
def rootSpan (s : Nat) : Nat × Nat :=
  let ulp := ulpUnits (isqrt s)
  let code := floorCode (isqrt s) 1
  let floor := unitsOfCode 52 code
  if floor * floor = s then (code - 1, code + 1)
  else if binadeStart code && decide (4 * s ≤ (2 * floor + ulp) * (2 * floor + ulp)) then (code - 1, code + 1)
  else (code, code + 1)

/-- The codes that `hypot(a, b)` may have, `b` not zero: those of the root, but none below `|a|`, which is
`hypot(a, 0)`, since `hypot` is monotone. `hypot(0, b) = |b|` is a word, and at the start of a binade the second word
below is within a unit too. -/
def hypotSpan (a b : F64) : Nat × Nat :=
  let span := rootSpan (units64 a * units64 a + units64 b * units64 b)
  if code64 a == 0 && binadeStart (code64 b) then (code64 b - 2, code64 b + 1)
  else (max (code64 a) span.1, span.2)

/-- `hypot(a, b)` = `sqrt(a^2 + b^2)` within one unit in the last place; `hypot(a, 0) = |a|` exact (D35). The sign of
`b`, the imaginary part, does not affect the result (44_features.md R143). -/
def hypot64 (a b : F64) : F64 :=
  if !(finite64 a && finite64 b) then Config.hypotOther a (magnitude64 b)
  else if code64 b == 0 then pack64 false (code64 a)
  else pack64 false
    (within (hypotSpan a b).1 (hypotSpan a b).2 (Config.hypotLib (neg64 a) (code64 a, code64 b)).1)

/-! Functions of one operand: words in the order of their values. -/

/-- The place of an operand in the order of the words. -/
def rank64 (w : F64) : Nat := (key64 w + 2 ^ 63).toNat

/-- The word of a place in the order, as a key; the sign of a zero is free. -/
def wordOfKey (zeroNeg : Bool) (key : Int) : F64 :=
  pack64 (decide (key < 0) || (decide (key = 0) && zeroNeg)) key.natAbs

/-- The answer of a free map for an operand, held inside a span of keys. -/
def freeWithin (lib : ℕ →o ℕ) (span : Int × Int) (a : F64) : F64 :=
  wordOfKey (Config.zeroSign a) (within span.1 span.2 ((lib (rank64 a) : Int) - 2 ^ 63))

/-! `ln`: a fixed-point series with 320 fraction bits, within 2^32 units of the last fixed-point place (log 10). Every
operation of it rises with the operand. -/

/-- The number of fraction bits. -/
abbrev lnBits : Nat := 320

/-- The error allowed for the series, in units of the last fixed-point place. -/
abbrev lnError : Int := 2 ^ 32

/-- `acc + pow/k + pow*z2/(k+2) + ...`, `z2` the square of the argument: the series of atanh. -/
def atanhGo (z2 : Nat) : Nat → Nat → Nat → Nat → Nat
  | 0, _, _, acc => acc
  | n + 1, k, pow, acc => atanhGo z2 n (k + 2) (pow * z2 / 2 ^ lnBits) (acc + pow / k)

/-- `ln m` for a fixed-point `m` in [1, 2], as `2 * atanh((m - 1)/(m + 1))`. -/
def lnFix (m : Nat) : Nat :=
  let z := (m - 2 ^ lnBits) * 2 ^ lnBits / (m + 2 ^ lnBits)
  2 * atanhGo (z * z / 2 ^ lnBits) 110 1 z 0

/-- `ln 2`. -/
def ln2Fix : Nat := lnFix (2 * 2 ^ lnBits)

/-- The logarithm of `u` units of 2^-1074, fixed-point: the mantissa's logarithm plus the exponent times `ln 2`. -/
def lnOfUnits (u : Nat) : Int :=
  (lnFix (u * 2 ^ lnBits / 2 ^ Nat.log2 u) : Int) + ((Nat.log2 u : Int) - 1074) * ln2Fix

/-- The least key within one unit in the last place of a value just above `p` units (just below it in magnitude, where
`p` is negative). -/
def leastKey (p : Int) : Int :=
  if 0 < p then leastCode p.natAbs 1 else -(greatestCode p.natAbs 1 : Int)

/-- The greatest key, likewise. -/
def greatestKey (p : Int) : Int :=
  if p < 0 then -(leastCode p.natAbs 1 : Int) else greatestCode p.natAbs 1

/-- The keys that `ln` of `u` units may have. `ln 1 = 0` is exact; no other logarithm of a word is a word. -/
def lnSpan (u : Nat) : Int × Int :=
  if lnOfUnits u = 0 then (-1, 1)
  else (leastKey ((lnOfUnits u - lnError) * 2 ^ 754), greatestKey ((lnOfUnits u + lnError) * 2 ^ 754))

/-- `ln(a)` within one unit in the last place for a positive finite `a`. -/
def ln64 (a : F64) : F64 :=
  if !finite64 a || neg64 a || code64 a == 0 then Config.lnOther a
  else freeWithin Config.lnLib (lnSpan (units64 a)) a

/-! `exp`: with 1200 fraction bits every finite operand short of 1024 is exact in fixed point and the error of the series
is below the least operand. `e^x` is the tenth square of `e^(x/1024)`, rounded down for the lower bound and up for the
upper one, and a negative operand has the reciprocal. Every operation rises with the operand. -/

/-- The number of fraction bits. -/
abbrev expBits : Nat := 1200

/-- `acc + term + term*r/k + ...`: the series of the exponential, every term rounded down. -/
def expGo (r : Nat) : Nat → Nat → Nat → Nat → Nat
  | 0, _, _, acc => acc
  | n + 1, k, term, acc => expGo r n (k + 1) (term * r / 2 ^ expBits / k) (acc + term)

/-- A lower bound of `e^r` for a fixed-point `r` in [0, 1]; it is less than 2^32 places below (log 10). -/
def expFix (r : Nat) : Nat := expGo r 200 1 (2 ^ expBits) 0

/-- Squared `n` times, rounded down. -/
def squaresDown : Nat → Nat → Nat
  | 0, t => t
  | n + 1, t => squaresDown n (t * t / 2 ^ expBits)

/-- Squared `n` times, rounded up. -/
def squaresUp : Nat → Nat → Nat
  | 0, t => t
  | n + 1, t => squaresUp n (t * t / 2 ^ expBits + 1)

/-- A lower bound of `e^x` for `x` of `u` units of 2^-1074, fixed-point. -/
def expLower (u : Nat) : Nat := squaresDown 10 (expFix (u * 2 ^ (expBits - 1084)))

/-- An upper bound. -/
def expUpper (u : Nat) : Nat := squaresUp 10 (expFix (u * 2 ^ (expBits - 1084)) + 2 ^ 32)

/-- The keys that `exp` of `x` units of 2^-1074 may have. Beyond +800 the exact result is above every finite value, below
-800 it is positive and below the least subnormal. `exp 0 = 1` is exact, and the second word below 1 is not admitted,
since `exp` is monotone and just below 0 the least is the first. -/
def expSpan (x : Int) : Int × Int :=
  if 800 * 2 ^ 1074 ≤ x then (infCode64, infCode64)
  else if x ≤ -(800 * 2 ^ 1074) then (0, 1)
  else if x = 0 then ((floorCode (2 ^ 1074) 1 : Int) - 1, (floorCode (2 ^ 1074) 1 : Int) + 1)
  else if 0 < x then
    (leastCode (expLower x.natAbs * 2 ^ 1074) (2 ^ expBits), greatestCode (expUpper x.natAbs * 2 ^ 1074) (2 ^ expBits))
  else
    (leastCode (2 ^ expBits * 2 ^ 1074) (expUpper x.natAbs), greatestCode (2 ^ expBits * 2 ^ 1074) (expLower x.natAbs))

/-- `exp(a)` within one unit in the last place for a finite `a`. -/
def exp64 (a : F64) : F64 :=
  if !finite64 a then Config.expOther a
  else freeWithin Config.expLib (expSpan (value64 a)) a

end Sys2Proof.Machine
end

