-- ==== Sys2Proof/Machine/NumDefault.lean ====
section
/-! DEFINITION. `NUM_DEFAULT` (00_scope.md R9): storage binary32, compute binary64. The machine runs on it (log 7). -/

namespace Sys2Proof.Machine

/-- `SIN160[j]` (10_state.md R46) from the quarter wave: the nearest binary64 to a value and to its negative differ in
the sign only. -/
def sinTable (j : Nat) : F64 :=
  if j % 160 ≤ 40 then Config.sinQuarter.getD (j % 160) 0#64
  else if j % 160 ≤ 80 then Config.sinQuarter.getD (80 - j % 160) 0#64
  else if j % 160 ≤ 120 then negate64 (Config.sinQuarter.getD (j % 160 - 80) 0#64)
  else negate64 (Config.sinQuarter.getD (160 - j % 160) 0#64)

/-- `COS160[j]` (R46): the sine a quarter period on. -/
def cosTable (j : Nat) : F64 := sinTable (j + 40)

/-- `NUM_DEFAULT` (R9). -/
def numDefault : Num F32 F64 where
  ld := ld64
  st := st32
  add := add64
  sub := sub64
  mul := mul64
  div := div64
  hasQuotient := fun _ _ => true
  sqrt := sqrt64
  hypot := hypot64
  ln := ln64
  exp := exp64
  cos160 := cosTable
  sin160 := sinTable
  const := Literal.word
  ofNat := ofNat64
  lt := lt64
  le := le64
  eq := eq64
  ltS := lt32
  leS := le32
  eqS := eq32
  finiteC := finite64
  finiteS := finite32
  aHp := Config.aHp
  aLp := Config.aLp

end Sys2Proof.Machine
end

