-- ==== Sys2Proof/Machine/Agc.lean ====
section
/-! DEFINITION. The Level Normalizer: RMSCALC, GAINUPD, APPLY (42_agc.md), over any NUM. -/

namespace Sys2Proof.Machine

/-- The sum of squares of a run of samples, in ascending index from `acc` (R120, R10). -/
def sumSquares {S C : Type} (N : Num S C) : C → List S → C
  | acc, [] => acc
  | acc, w :: ws => sumSquares N (N.add acc (N.mul (N.ld w) (N.ld w))) ws

/-- The root of the mean before the substitution (R120). -/
def rawRms {S C : Type} (N : Num S C) (frm : List S) : C :=
  N.sqrt (N.div (sumSquares N (N.const .zero) frm) (N.const .frameLen))

/-- `RMS`: `RMS_EPS` stands for an exact zero (R120). -/
def rmsOf {S C : Type} (N : Num S C) (frm : List S) : C :=
  if N.eq (rawRms N frm) (N.const .zero) then N.const .rmsEps else rawRms N frm

/-- `NEED <- clamp(0.25 / RMS, 0.1, 12.0)` (R121). -/
def needOf {S C : Type} (N : Num S C) (rms : C) : C :=
  clamp N (N.div (N.const .targetRms) rms) (N.const .gainMin) (N.const .gainMax)

/-- The step coefficient: 0.35 when `NEED > GAIN`, else 0.01 (R122, R123; 90_conflicts.md C1). -/
def gainCoeff {S C : Type} (N : Num S C) (need gain : C) : C :=
  if N.lt gain need then N.const .attack else N.const .release

/-- `GAIN <- GAIN + step * (NEED - GAIN)` (R122); no clamp on GAIN (90_conflicts.md C8). -/
def gainOf {S C : Type} (N : Num S C) (need gain : C) : C :=
  N.add gain (N.mul (gainCoeff N need gain) (N.sub need gain))

/-- One sample through gain and clip: `st(clamp(ld(FRM[i]) * GAIN, -0.99, 0.99))` (R124). -/
def applySample {S C : Type} (N : Num S C) (gain : C) (w : S) : S :=
  N.st (clamp N (N.mul (N.ld w) gain) (N.const .clipNeg) (N.const .clip))

/-- The effect of RMSCALC (R120). -/
def doRmscalc (s : State) : State := { s with rms := rmsOf numDefault s.frm.val, seq := seqGainupd }

/-- `RMSCALC` (R120). -/
def execRmscalc (s : State) : Host.Outcome State Fault Refusal := whenRunning doRmscalc s

/-- The effect of GAINUPD, both halves (R121, R122). -/
def doGainupd (s : State) : State :=
  { s with
    need := needOf numDefault s.rms
    gain := gainOf numDefault (needOf numDefault s.rms) s.gain
    seq := seqApply }

/-- `GAINUPD` (R121, R122). -/
def execGainupd (s : State) : Host.Outcome State Fault Refusal := whenRunning doGainupd s

/-- The effect of APPLY (R124), with the gain just updated. -/
def doApply (s : State) : State :=
  { s with frm := bufMap (applySample numDefault s.gain) s.frm, seq := seqCal }

/-- `APPLY` (R124). -/
def execApply (s : State) : Host.Outcome State Fault Refusal := whenRunning doApply s

end Sys2Proof.Machine
end

