-- ==== Sys2Proof/Machine/Emitter.lean ====
section
/-! DEFINITION. The Emitter: EMIT and the beats of the output port (46_emitter.md; 30_encoding.md R83, R85, R86). -/

namespace Sys2Proof.Machine

/-- The messages of a frame: PCM, then VAD on a transition, with the new state (R160, R162). -/
def frameMessages {S : Type} (frm : Buf S 160) (trans voice : Bool) : List (Message S) :=
  .pcm frm :: (if trans then [.vad voice] else [])

/-- The effect of EMIT (R161). -/
def doEmit (s : State) : State :=
  { emitMessages (frameMessages s.frm s.trans s.voice) s with seq := seqAccum }

/-- `EMIT` (R160 to R162). -/
def execEmit (s : State) : Host.Outcome State Fault Refusal := whenRunning doEmit s

/-- `PCM.BEAT`: one beat of a PCM message at a rising edge (R83, R85). -/
def execPcmBeat (last : BitVec 1) (data : F32) (s : State) : Host.Outcome State Fault Refusal :=
  whenRunning (driveBeat (beatWord last 0#1 data)) s

/-- `VAD.VOICE`: the beat `0x300000001` (R86). -/
def execVadVoice (s : State) : Host.Outcome State Fault Refusal :=
  whenRunning (driveBeat (beatWord 1#1 1#1 (vadData true))) s

/-- `VAD.SILENCE`: the beat `0x300000000` (R86). -/
def execVadSilence (s : State) : Host.Outcome State Fault Refusal :=
  whenRunning (driveBeat (beatWord 1#1 1#1 (vadData false))) s

end Sys2Proof.Machine
end

