-- ==== Sys2Proof/Machine/Fatal.lean ====
section
/-! DEFINITION. Fatal conditions: CHECK, HALT, SEQ.RESERVED and the cause codes (60_exceptions.md), and RESET
(70_reset_and_hazards.md). -/

namespace Sys2Proof.Machine

/-- The scan of CHECK (R189) over any NUM: every element of the frame and every scalar is finite. -/
def valuesFinite {S C : Type} (N : Num S C) (frm : List S) (scalars : List C) : Bool :=
  frm.all N.finiteS && scalars.all N.finiteC

/-- Every value CHECK scans is finite (R189): the frame, the filter scalars, RMS, GAIN, CAL_SUM and NF. -/
def checkedFinite (s : State) : Bool :=
  valuesFinite numDefault s.frm.val [s.hpXp, s.hpYp, s.lpY, s.rms, s.gain, s.calSum, s.nf]

/-- The effect of CHECK (R189): on to EMIT, or `Fatal(2)` with the state of the failing frame kept (R184 (b)). -/
def doCheck (s : State) : State :=
  if checkedFinite s then { s with seq := seqEmit } else raiseFatal causeNonfiniteStateCode s

/-- `CHECK` (R189). -/
def execCheck (s : State) : Host.Outcome State Fault Refusal := whenRunning doCheck s

/-- `HALT`: nothing is accepted, nothing is emitted, no register changes, until reset (R182). -/
def execHalt (s : State) : Host.Outcome State Fault Refusal := whenRunning id s

/-- `SEQ.RESERVED`: SEQ code 14 is never entered; if it is ever held, it is treated as HALT (R89, U10; log 19). -/
def execSeqReserved (s : State) : Host.Outcome State Fault Refusal := whenRunning id s

/-- `CAUSE.NONE`: code 0, no fatal condition is raised (R183; log 20). -/
def execCauseNone (s : State) : Host.Outcome State Fault Refusal := whenRunning id s

/-- `CAUSE.NONFINITE_INPUT`: code 1, `raise Fatal(1)` (R181, R183; log 20). -/
def execCauseNonfiniteInput (s : State) : Host.Outcome State Fault Refusal :=
  whenRunning (raiseFatal causeNonfiniteInputCode) s

/-- `CAUSE.NONFINITE_STATE`: code 2, `raise Fatal(2)` (R181, R183; log 20). -/
def execCauseNonfiniteState (s : State) : Host.Outcome State Fault Refusal :=
  whenRunning (raiseFatal causeNonfiniteStateCode) s

/-- `CAUSE.RESERVED`: code 3 is reserved, never produced, and the spec gives it no effect (R183, U10): a fault. -/
def execCauseReserved (_ : State) : Host.Outcome State Fault Refusal := .fault .reservedCause

/-- The effect of `rst = 1` at a rising edge (R200, R201): every register takes its reset value, a frame in work is
abandoned and the messages in flight are cut off. The host's words stay offered and the beats already driven stay
driven (log 14). -/
def doReset (s : State) : State := { State.reset with rst := s.rst, inq := s.inq, sent := s.sent }

/-- `RESET` (R200): it works while halted too, and is the only exit from the halt (R182). -/
def execReset (s : State) : Host.Outcome State Fault Refusal := .next (doReset s)

end Sys2Proof.Machine
end

