-- ==== Sys2Proof/Machine/Features.lean ====
section
/-! DEFINITION. The Feature Extractor: ZCRCALC, DFT, FLATCALC (44_features.md), over any NUM. -/

namespace Sys2Proof.Machine

/-- `ZCR <- C(zc) / 160` (R141): the divisor is the frame length. -/
def zcrOf {S C : Type} (N : Num S C) (zc : Nat) : C := N.div (N.ofNat zc) (N.const .frameLen)

/-- The two sums of bin `k` from sample `n` on, in ascending index (R143): `re` adds `x * COS160[j]`, `im` subtracts
`x * SIN160[j]`. -/
def dftSums {S C : Type} (N : Num S C) (k : Nat) : Nat → C → C → List S → C × C
  | _, re, im, [] => (re, im)
  | n, re, im, w :: ws =>
    dftSums N k (n + 1)
      (N.add re (N.mul (N.ld w) (N.cos160 (twiddle k n))))
      (N.sub im (N.mul (N.ld w) (N.sin160 (twiddle k n)))) ws

/-- `MAG[k] <- hypot(re, im) / 160` (R143). -/
def dftBin {S C : Type} (N : Num S C) (frm : List S) (k : Nat) : C :=
  N.div
    (N.hypot (dftSums N k 0 (N.const .zero) (N.const .zero) frm).1 (dftSums N k 0 (N.const .zero) (N.const .zero) frm).2)
    (N.const .frameLen)

/-- The magnitude spectrum, bins 0 to 63 (R143, R40). -/
def spectrum {S C : Type} (N : Num S C) (frm : List S) : Buf C Config.nbins :=
  ⟨(List.range Config.nbins).map (dftBin N frm), by simp⟩

/-- The sum of `ln(MAG[k] + 1e-12)` in ascending index (R146). -/
def sumLogs {S C : Type} (N : Num S C) : C → List C → C
  | acc, [] => acc
  | acc, m :: ms => sumLogs N (N.add acc (N.ln (N.add m (N.const .flatEps)))) ms

/-- The sum of the bare magnitudes in ascending index (R146). -/
def sumMags {S C : Type} (N : Num S C) : C → List C → C
  | acc, [] => acc
  | acc, m :: ms => sumMags N (N.add acc m) ms

/-- `GM <- exp(s_ln / 63)` (R146). -/
def geoMean {S C : Type} (N : Num S C) (mags : List C) : C :=
  N.exp (N.div (sumLogs N (N.const .zero) mags) (N.const .nflat))

/-- `AM <- s_am / 63` (R146). -/
def arithMean {S C : Type} (N : Num S C) (mags : List C) : C :=
  N.div (sumMags N (N.const .zero) mags) (N.const .nflat)

/-- The bins that flatness reads: 1 to 63, without DC (R40, R146). -/
def flatBins {C : Type} {n : Nat} (mag : Buf C n) : List C := mag.val.drop 1

/-- `FLAT <- GM / AM` (R146): no value where the quotient has none, which is AM = 0 over the reals; under NUM_DEFAULT
always a value, `+inf` when AM = 0. -/
def flatOf {S C : Type} (N : Num S C) (mags : List C) : Option C :=
  if N.hasQuotient (geoMean N mags) (arithMean N mags) then some (N.div (geoMean N mags) (arithMean N mags)) else none

/-- The effect of ZCRCALC (R141). -/
def doZcrcalc (s : State) : State :=
  { s with
    zc := signChanges numDefault s.frm.val
    zcr := zcrOf numDefault (signChanges numDefault s.frm.val)
    seq := seqDft }

/-- `ZCRCALC` (R141). -/
def execZcrcalc (s : State) : Host.Outcome State Fault Refusal := whenRunning doZcrcalc s

/-- The effect of DFT (R143). -/
def doDft (s : State) : State := { s with mag := spectrum numDefault s.frm.val, seq := seqFlatcalc }

/-- `DFT` (R143). -/
def execDft (s : State) : Host.Outcome State Fault Refusal := whenRunning doDft s

/-- The effect of FLATCALC (R146): `FLAT` is `+inf` when `AM = 0`, by the division. -/
def doFlatcalc (s : State) : State :=
  { s with
    gm := geoMean numDefault (flatBins s.mag)
    am := arithMean numDefault (flatBins s.mag)
    flat := numDefault.div (geoMean numDefault (flatBins s.mag)) (arithMean numDefault (flatBins s.mag))
    seq := seqClassify }

/-- `FLATCALC` (R146). -/
def execFlatcalc (s : State) : Host.Outcome State Fault Refusal := whenRunning doFlatcalc s

end Sys2Proof.Machine
end

