-- ==== Sys2Proof/Machine/FilterChain.lean ====
section
/-! DEFINITION. The Filter Chain: HPF, LPF, FILT (41_filter_chain.md), over any NUM. -/

namespace Sys2Proof.Machine

/-- The three filter scalars (R24 to R26). -/
structure FilterState (C : Type) where
  hpXp : C
  hpYp : C
  lpY : C
  deriving DecidableEq, Repr

/-- `HPF x` (R110): `y <- A_HP * ((HP_YP + x) - HP_XP)`, then `HP_XP <- x`, `HP_YP <- y`; the result `y` is the new
`HP_YP`. -/
def hpf {S C : Type} (N : Num S C) (f : FilterState C) (x : C) : FilterState C :=
  { f with hpXp := x, hpYp := N.mul N.aHp (N.sub (N.add f.hpYp x) f.hpXp) }

/-- `LPF y` (R111): `LP_Y <- LP_Y + A_LP * (y - LP_Y)`; the result is the new `LP_Y`. -/
def lpf {S C : Type} (N : Num S C) (f : FilterState C) (y : C) : FilterState C :=
  { f with lpY := N.add f.lpY (N.mul N.aLp (N.sub y f.lpY)) }

/-- One sample through both filters (R112): the high-pass result goes to the low-pass in format C (R116). -/
def filtSample {S C : Type} (N : Num S C) (f : FilterState C) (w : S) : FilterState C :=
  lpf N (hpf N f (N.ld w)) (hpf N f (N.ld w)).hpYp

/-- The scalars after a run of samples (R112, R114). -/
def filtState {S C : Type} (N : Num S C) : FilterState C → List S → FilterState C
  | f, [] => f
  | f, w :: ws => filtState N (filtSample N f w) ws

/-- The stored samples of a run: `FRM[i] <- st(z)`, sample by sample (R112). -/
def filtSamples {S C : Type} (N : Num S C) : FilterState C → List S → List S
  | _, [] => []
  | f, w :: ws => N.st (filtSample N f w).lpY :: filtSamples N (filtSample N f w) ws

theorem filtSamples_length {S C : Type} (N : Num S C) (f : FilterState C) (l : List S) :
    (filtSamples N f l).length = l.length := by
  induction l generalizing f with
  | nil => rfl
  | cons w ws ih => simp [filtSamples, ih]

/-- The filtered frame (R112). -/
def filtFrame {S C : Type} {n : Nat} (N : Num S C) (f : FilterState C) (frm : Buf S n) : Buf S n :=
  ⟨filtSamples N f frm.val, by rw [filtSamples_length]; exact frm.property⟩

/-- The filter scalars of a state. -/
def filterStateOf (s : State) : FilterState F64 := { hpXp := s.hpXp, hpYp := s.hpYp, lpY := s.lpY }

/-- The effect of FILT (R112). -/
def doFilt (s : State) : State :=
  { s with
    frm := filtFrame numDefault (filterStateOf s) s.frm
    hpXp := (filtState numDefault (filterStateOf s) s.frm.val).hpXp
    hpYp := (filtState numDefault (filterStateOf s) s.frm.val).hpYp
    lpY := (filtState numDefault (filterStateOf s) s.frm.val).lpY
    seq := seqRmscalc }

/-- `FILT` (R112). -/
def execFilt (s : State) : Host.Outcome State Fault Refusal := whenRunning doFilt s

end Sys2Proof.Machine
end

