-- ==== Sys2Proof/Machine/Flags.lean ====
section
/-! DEFINITION. Every one-bit condition of 10_state.md R43: VOICE, IS_VOICE, TRANS as CLASSIFY and HYST compute them,
and the derived predicates. No arithmetic operation sets a flag as a side effect (R43). -/

namespace Sys2Proof.Machine

/-- `CALIBRATING`: `CAL_LEFT > 0` (R43). -/
def calibrating (calLeft : Int) : Bool := decide (0 < calLeft)

/-- `FROZEN`: `CAL_LEFT <= 0` (R43). -/
def frozen (calLeft : Int) : Bool := decide (calLeft ≤ 0)

/-- `FLAT < 0.5`: false for a FLAT without a value (44_features.md R146; 92_eei_decisions.md D16). -/
def tonal {S C : Type} (N : Num S C) : Option C → Bool
  | some flat => N.lt flat (N.const .flatMax)
  | none => false

/-- `IS_VOICE`: loud, tonal and in the zero-crossing window, four strict comparisons (45_vad.md R151). -/
def voiceTest {S C : Type} (N : Num S C) (rms thr : C) (flat : Option C) (zcr : C) : Bool :=
  N.lt thr rms && tonal N flat && N.lt (N.const .zcrLo) zcr && N.lt zcr (N.const .zcrHi)

/-- `SIL_CNT` after a frame (R152). -/
def silenceRun (isVoice : Bool) (silCnt : Nat) : Nat := if isVoice then 0 else silCnt + 1

/-- The new debounced state, from the silence run already updated (R153): `IS_VOICE or (SIL_CNT <= 4)`. -/
def debounced (isVoice : Bool) (silCnt : Nat) : Bool := isVoice || decide (silCnt ≤ Config.hang)

/-- `TRANS`: the debounced state changed (R153). -/
def transition (new old : Bool) : Bool := new != old

end Sys2Proof.Machine
end

