-- ==== Sys2Proof/Machine/NoiseFloor.lean ====
section
/-! DEFINITION. The Noise Floor Calibrator: CAL (43_noise_floor.md), over any NUM. -/

namespace Sys2Proof.Machine

/-- The calibration registers (R28 to R31). -/
structure CalState (C : Type) where
  calLeft : Int
  calSum : C
  calCnt : Nat
  nf : C
  deriving DecidableEq, Repr

/-- The noise floor once the window has ended (R131, R133): the mean, if a frame was counted. -/
def noiseFloor {S C : Type} (N : Num S C) (sum : C) (cnt : Nat) (nf : C) : C :=
  if 0 < cnt then N.div sum (N.ofNat cnt) else nf

/-- One calibration step (R131, R132): while CALIBRATING, add, count, subtract 160, and at zero or below write NF; once
FROZEN, nothing. -/
def calStep {S C : Type} (N : Num S C) (rms : C) (c : CalState C) : CalState C :=
  if calibrating c.calLeft then
    { calSum := N.add c.calSum rms
      calCnt := c.calCnt + 1
      calLeft := c.calLeft - Config.frame
      nf := if frozen (c.calLeft - Config.frame) then noiseFloor N (N.add c.calSum rms) (c.calCnt + 1) c.nf else c.nf }
  else c

/-- The calibration registers of a state. -/
def calStateOf (s : State) : CalState F64 :=
  { calLeft := s.calLeft, calSum := s.calSum, calCnt := s.calCnt, nf := s.nf }

/-- The effect of CAL (R131). -/
def doCal (s : State) : State :=
  { s with
    calLeft := (calStep numDefault s.rms (calStateOf s)).calLeft
    calSum := (calStep numDefault s.rms (calStateOf s)).calSum
    calCnt := (calStep numDefault s.rms (calStateOf s)).calCnt
    nf := (calStep numDefault s.rms (calStateOf s)).nf
    seq := seqZcrcalc }

/-- `CAL` (R131). -/
def execCal (s : State) : Host.Outcome State Fault Refusal := whenRunning doCal s

end Sys2Proof.Machine
end

