-- ==== Sys2Proof/Machine/Vad.lean ====
section
/-! DEFINITION. The VAD Decision Engine: CLASSIFY, HYST (45_vad.md). -/

namespace Sys2Proof.Machine

/-- `THR <- max(NF * 2, 0.003)` (R150). -/
def thresholdOf {S C : Type} (N : Num S C) (nf : C) : C :=
  nmax N (N.mul nf (N.const .nfMult)) (N.const .thrFloor)

/-- The effect of CLASSIFY, both halves (R150, R151). -/
def doClassify (s : State) : State :=
  { s with
    thr := thresholdOf numDefault s.nf
    isVoice := voiceTest numDefault s.rms (thresholdOf numDefault s.nf) (some s.flat) s.zcr
    seq := seqHyst }

/-- `CLASSIFY` (R150, R151). -/
def execClassify (s : State) : Host.Outcome State Fault Refusal := whenRunning doClassify s

/-- The effect of HYST, both halves (R152, R153): the run is updated before the state is evaluated. -/
def doHyst (s : State) : State :=
  { s with
    silCnt := silenceRun s.isVoice s.silCnt
    trans := transition (debounced s.isVoice (silenceRun s.isVoice s.silCnt)) s.voice
    voice := debounced s.isVoice (silenceRun s.isVoice s.silCnt)
    seq := seqCheck }

/-- `HYST` (R152, R153). -/
def execHyst (s : State) : Host.Outcome State Fault Refusal := whenRunning doHyst s

end Sys2Proof.Machine
end

