-- ==== Sys2Proof/Machine/Dispatch.lean ====
section
/-! DEFINITION. One arm per constructor of Instr. -/

namespace Sys2Proof.Machine

def exec (i : Instr) (s : State) : Host.Outcome State Fault Refusal :=
  match i with
  | .push sample => Sys2Proof.Machine.execPush sample s
  | .pushNonfinite sign fraction => Sys2Proof.Machine.execPushNonfinite sign fraction s
  | .accum => Sys2Proof.Machine.execAccum s
  | .handoff => Sys2Proof.Machine.execHandoff s
  | .filt => Sys2Proof.Machine.execFilt s
  | .rmscalc => Sys2Proof.Machine.execRmscalc s
  | .gainupd => Sys2Proof.Machine.execGainupd s
  | .apply => Sys2Proof.Machine.execApply s
  | .cal => Sys2Proof.Machine.execCal s
  | .zcrcalc => Sys2Proof.Machine.execZcrcalc s
  | .dft => Sys2Proof.Machine.execDft s
  | .flatcalc => Sys2Proof.Machine.execFlatcalc s
  | .classify => Sys2Proof.Machine.execClassify s
  | .hyst => Sys2Proof.Machine.execHyst s
  | .check => Sys2Proof.Machine.execCheck s
  | .emit => Sys2Proof.Machine.execEmit s
  | .halt => Sys2Proof.Machine.execHalt s
  | .seqReserved => Sys2Proof.Machine.execSeqReserved s
  | .pcmBeat last data => Sys2Proof.Machine.execPcmBeat last data s
  | .vadVoice => Sys2Proof.Machine.execVadVoice s
  | .vadSilence => Sys2Proof.Machine.execVadSilence s
  | .causeNone => Sys2Proof.Machine.execCauseNone s
  | .causeNonfiniteInput => Sys2Proof.Machine.execCauseNonfiniteInput s
  | .causeNonfiniteState => Sys2Proof.Machine.execCauseNonfiniteState s
  | .causeReserved => Sys2Proof.Machine.execCauseReserved s
  | .reset => Sys2Proof.Machine.execReset s

end Sys2Proof.Machine
end

