-- ==== Sys2Proof/Machine/Fetch.lean ====
section
/-! DEFINITION. What the core does next: the place, the word there, and the state with that word taken from its port
(30_encoding.md R81 to R83; 47_frame_sequencer.md R171; 60_exceptions.md R182). -/

namespace Sys2Proof.Machine

/-- A word at the place it was fetched from, and the state once it is taken. -/
structure Fetched where
  fmt : Format
  bits : Nat
  rest : State
  deriving DecidableEq, Repr

/-- Reset comes first (R81); a halted core holds HALT (R182); a message in flight is driven beat by beat (R83); in
ACCUM the next offered word is taken (R82); otherwise SEQ names the stage (R171). -/
def fetch (s : State) : Fetched :=
  if s.rst then { fmt := .pin, bits := 1, rest := { s with rst := false } }
  else if s.halted then { fmt := .seq, bits := seqHalt.toNat, rest := s }
  else match s.port with
    | b :: bs => { fmt := .out, bits := b.toNat, rest := { s with port := bs } }
    | [] =>
      if s.seq = seqAccum then
        match s.inq with
        | w :: ws => { fmt := .inp, bits := w.toNat, rest := { s with inq := ws } }
        | [] => { fmt := .seq, bits := s.seq.toNat, rest := s }
      else { fmt := .seq, bits := s.seq.toNat, rest := s }

/-- The places of a fetch made free for a word of another place: out of reset, not halted, no message in flight. -/
def clearFetch (s : State) : State := { s with rst := false, halted := false, cause := 0#2, port := [] }

/-- The state with a word of a format put where `fetch` takes it (log 22). A word of the cause pins is fetched from
nowhere: the state stays (log 21). -/
def placeWord (fmt : Format) (w : Nat) (s : State) : State :=
  match fmt with
  | .inp => { clearFetch s with seq := seqAccum, inq := BitVec.ofNat 32 w :: s.inq }
  | .seq =>
    { clearFetch s with
      seq := BitVec.ofNat 4 w
      inq := if BitVec.ofNat 4 w = seqAccum then [] else s.inq }
  | .out => { s with rst := false, halted := false, cause := 0#2, port := BitVec.ofNat 34 w :: s.port }
  | .cause => s
  | .pin => { s with rst := decide (w = 1) }

end Sys2Proof.Machine
end

