-- ==== Sys2Proof/Machine/Step.lean ====
section
/-! DEFINITION. One step: fetch, decode, execute (47_frame_sequencer.md R171; log 1). -/

namespace Sys2Proof.Machine

/-- One step of the core: the operation at the place `fetch` finds, performed on the state with its word taken. -/
def step (s : State) : Host.Outcome State Fault Refusal :=
  match decode (fetch s).fmt (fetch s).bits with
  | .ok i => exec i (fetch s).rest
  | .error e => .refused (.undecodable e)

/-- `s` with a word of the opcode table put where `step` fetches its next operation (log 21, log 22). -/
def State.withFetchWord (s : State) (nbits w : Nat) : State :=
  match formatOfBits nbits with
  | none => s
  | some fmt => placeWord fmt w s

end Sys2Proof.Machine
end

