-- ==== Sys2Proof/Machine/NumReal.lean ====
section
/-! DEFINITION. `NUM_REAL` (00_scope.md R9): the real numbers, every operation exact. It is the reference meaning of the
rules, for statements; the machine does not run on it (log 7). A real quotient by zero has no value there (44_features.md
R146): `hasQuotient` says so, and the number `div` then answers is read by nothing (log 31). -/

namespace Sys2Proof.Machine

/-- `NUM_REAL` (R9), with the coefficients of R7. -/
noncomputable def numReal : Num ℝ ℝ where
  ld := id
  st := id
  add := fun a b => a + b
  sub := fun a b => a - b
  mul := fun a b => a * b
  div := fun a b => a / b
  hasQuotient := fun _ b => decide (b ≠ 0)
  sqrt := Real.sqrt
  hypot := fun a b => Real.sqrt (a ^ 2 + b ^ 2)
  ln := Real.log
  exp := Real.exp
  cos160 := fun j => Real.cos (2 * Real.pi * j / 160)
  sin160 := fun j => Real.sin (2 * Real.pi * j / 160)
  const := fun l => (l.value.1 : ℝ) / (l.value.2 : ℝ)
  ofNat := fun n => (n : ℝ)
  lt := fun a b => decide (a < b)
  le := fun a b => decide (a ≤ b)
  eq := fun a b => decide (a = b)
  ltS := fun a b => decide (a < b)
  leS := fun a b => decide (a ≤ b)
  eqS := fun a b => decide (a = b)
  finiteC := fun _ => true
  finiteS := fun _ => true
  aHp := 1 / (1 + 15 / 1000 * Real.pi)
  aLp := Real.pi / (Real.pi + 2)

end Sys2Proof.Machine
end

