-- ==== Sys2Proof/Machine/Transaction.lean ====
section
/-! DEFINITION. The transaction level over any NUM: `process_frame`, the step on one input word and the run, as
47_frame_sequencer.md R172 and R173 write them. The machine's own step is finer and runs on NUM_DEFAULT (log 1, log 7);
statements tie the two together. -/

namespace Sys2Proof.Machine

/-- The persistent context without `ACC` and `WR` (R172). -/
structure Ctx (C : Type) where
  filters : FilterState C
  gain : C
  cal : CalState C
  voice : Bool
  silCnt : Nat
  deriving DecidableEq, Repr

/-- The result of a frame (R172). -/
inductive FrameResult (S C : Type) where
  | ok (ctx : Ctx C) (pcm : Buf S 160) (vad : Option Bool)
  | fatal (ctx : Ctx C) (cause : BitVec 2)
  deriving DecidableEq, Repr

/-- `RMS` of a frame: of the filtered samples, before the gain (R120). -/
def frameRms {S C : Type} (N : Num S C) (c : Ctx C) (frame : Buf S 160) : C :=
  rmsOf N (filtFrame N c.filters frame).val

/-- `GAIN` after GAINUPD (R121, R122). -/
def frameGain {S C : Type} (N : Num S C) (c : Ctx C) (frame : Buf S 160) : C :=
  gainOf N (needOf N (frameRms N c frame)) c.gain

/-- The frame after FILT and APPLY (R112, R124). -/
def processedFrame {S C : Type} (N : Num S C) (c : Ctx C) (frame : Buf S 160) : Buf S 160 :=
  bufMap (applySample N (frameGain N c frame)) (filtFrame N c.filters frame)

/-- `IS_VOICE` of a frame from its RMS, its noise floor and the processed samples (R140, R141, R143, R146, R150,
R151). -/
def frameIsVoice {S C : Type} (N : Num S C) (rms nf : C) (pcm : Buf S 160) : Bool :=
  voiceTest N rms (thresholdOf N nf) (flatOf N (flatBins (spectrum N pcm.val))) (zcrOf N (signChanges N pcm.val))

/-- The context after the stages of a frame (R172). -/
def nextCtx {S C : Type} (N : Num S C) (c : Ctx C) (frame : Buf S 160) : Ctx C :=
  let cal := calStep N (frameRms N c frame) c.cal
  let isVoice := frameIsVoice N (frameRms N c frame) cal.nf (processedFrame N c frame)
  { filters := filtState N c.filters frame.val
    gain := frameGain N c frame
    cal := cal
    voice := debounced isVoice (silenceRun isVoice c.silCnt)
    silCnt := silenceRun isVoice c.silCnt }

/-- CHECK over the values of a frame (R189). -/
def frameFinite {S C : Type} (N : Num S C) (c : Ctx C) (rms : C) (pcm : Buf S 160) : Bool :=
  valuesFinite N pcm.val [c.filters.hpXp, c.filters.hpYp, c.filters.lpY, rms, c.gain, c.cal.calSum, c.cal.nf]

/-- `process_frame` (R172). -/
def processFrame {S C : Type} (N : Num S C) (c : Ctx C) (frame : Buf S 160) : FrameResult S C :=
  if frameFinite N (nextCtx N c frame) (frameRms N c frame) (processedFrame N c frame) then
    .ok (nextCtx N c frame) (processedFrame N c frame)
      (if transition (nextCtx N c frame).voice c.voice then some (nextCtx N c frame).voice else none)
  else .fatal (nextCtx N c frame) causeNonfiniteStateCode

/-- The state of the transaction level: what lasts from one accepted word to the next (R20, R172). -/
structure Held (S C : Type) where
  acc : Buf S 160
  wr : Nat
  ctx : Ctx C
  halted : Bool
  cause : BitVec 2
  deriving DecidableEq, Repr

/-- What a state of the machine holds from one accepted word to the next. -/
def heldOf (s : State) : Held F32 F64 :=
  { acc := s.acc
    wr := s.wr
    ctx := { filters := filterStateOf s, gain := s.gain, cal := calStateOf s, voice := s.voice, silCnt := s.silCnt }
    halted := s.halted
    cause := s.cause }

/-- `reset()` of R173 (R48); ACC, which R48 leaves open, holds zeros (log 13). -/
def Held.reset {S C : Type} (N : Num S C) : Held S C :=
  { acc := bufFill 160 (N.st (N.const .zero))
    wr := 0
    ctx :=
      { filters := { hpXp := N.const .zero, hpYp := N.const .zero, lpY := N.const .zero }
        gain := N.const .gainInit
        cal := { calLeft := Config.calSamples, calSum := N.const .zero, calCnt := 0, nf := N.const .nfDefault }
        voice := false
        silCnt := 0 }
    halted := false
    cause := 0#2 }

/-- `Outcome` of the transaction step (00_scope.md R14). -/
inductive Transacted (S C : Type) where
  | next (h : Held S C) (out : List (Message S))
  | halt (h : Held S C) (cause : BitVec 2)
  deriving DecidableEq, Repr

/-- `raise Fatal(c)` at the transaction level (R181, R173). -/
def haltWith {S C : Type} (h : Held S C) (c : BitVec 2) : Transacted S C :=
  .halt { h with halted := true, cause := c } c

/-- The messages of a frame from `process_frame`'s optional transition (R173). -/
def resultMessages {S : Type} (pcm : Buf S 160) : Option Bool → List (Message S)
  | none => [.pcm pcm]
  | some v => [.pcm pcm, .vad v]

/-- The completed frame (R173): HANDOFF and `process_frame` on an accumulator that is full. -/
def transactFrame {S C : Type} (N : Num S C) (h : Held S C) : Transacted S C :=
  match processFrame N h.ctx h.acc with
  | .ok c pcm vad => .next { h with wr := 0, ctx := c } (resultMessages pcm vad)
  | .fatal c cause => haltWith { h with wr := 0, ctx := c } cause

/-- `step(s, w)` of R173: the acceptance of one word, with the whole frame it completes. -/
def transact {S C : Type} (N : Num S C) (h : Held S C) (w : S) : Transacted S C :=
  if h.halted then .halt h h.cause
  else if !N.finiteS w then haltWith h causeNonfiniteInputCode
  else if h.wr + 1 < Config.frame then .next { h with acc := bufSet h.acc h.wr w, wr := h.wr + 1 } []
  else transactFrame N { h with acc := bufSet h.acc h.wr w }

/-- A run over a sequence of words: the fold of the step, and its observation, the messages in order (R15, R173). -/
def runWords {S C : Type} (N : Num S C) : Held S C → List S → Held S C × List (Message S)
  | h, [] => (h, [])
  | h, w :: ws =>
    match transact N h w with
    | .next h' out => ((runWords N h' ws).1, out ++ (runWords N h' ws).2)
    | .halt h' _ => (h', [])

end Sys2Proof.Machine
end

