-- ==== Sys2Proof/Safety.lean ====
section
/-! DEFINITION. The terms in which claims about runs are stated: quiescence, and the invariants of 10_state.md R49. -/

namespace Sys2Proof.Machine

/-- Between transactions: waiting in ACCUM, out of reset, not halted, no message in flight (R34, R176). -/
def Quiescent (s : State) : Prop :=
  s.rst = false ∧ s.halted = false ∧ s.seq = seqAccum ∧ s.port = []

/-- Nothing to do: quiescent, and the host offers no word (R194). -/
def Idle (s : State) : Prop := Quiescent s ∧ s.inq = []

/-- HALT is held exactly while HALTED = 1, code 14 never, and messages are in flight only in ACCUM (R34, R88, R171). -/
def SeqOk (s : State) : Prop :=
  (s.halted = true ↔ s.seq = seqHalt) ∧ s.seq ≠ seqReservedCode ∧ (s.port ≠ [] → s.seq = seqAccum)

/-- `HALTED = 0` implies `CAUSE = 0` (R49 (f)); a halted core holds cause 1 or 2 (R183). -/
def CauseOk (s : State) : Prop :=
  (s.halted = false → s.cause = 0#2) ∧
    (s.halted = true → s.cause = causeNonfiniteInputCode ∨ s.cause = causeNonfiniteStateCode)

/-- `WR` is 160 between the PUSH that fills the frame and HANDOFF, and below 160 at every other point (R23, R49 (a)). -/
def WrOk (s : State) : Prop := if s.seq = seqHandoff then s.wr = 160 else s.wr < 160

/-- `CAL_LEFT = 6400 - 160*CAL_CNT`, `CAL_CNT <= 40`, and `NF = NF_DEFAULT` while calibrating (R49 (c), (d)). -/
def CalOk (s : State) : Prop :=
  s.calLeft = 6400 - 160 * (s.calCnt : Int) ∧ s.calCnt ≤ 40 ∧
    (0 < s.calLeft → s.nf = Literal.nfDefault.word)

/-- `VOICE = 1` goes with a silence run of at most 4; `VOICE = 0` with one of at least 5, or with the run of 0 that only
reset leaves (R49 (e), R154). -/
def VadOk (s : State) : Prop :=
  (s.voice = true → s.silCnt ≤ 4) ∧ (s.voice = false → s.silCnt = 0 ∨ 5 ≤ s.silCnt)

/-- `GAIN_MIN <= GAIN <= GAIN_MAX` in binary64 (R49 (b)). -/
def GainOk (s : State) : Prop :=
  le64 Literal.gainMin.word s.gain = true ∧ le64 s.gain Literal.gainMax.word = true

/-- `|w| <= st(CLIP)`, as a bound on the magnitude code: `0x3F7D70A4` (R125). Such a word is finite. -/
def ClipBounded (w : F32) : Prop := code32 w ≤ 0x3F7D70A4

/-- A beat that the opcode table describes, with a bounded sample if it is of a PCM message (R49 (g), R89 (b)). -/
def BeatOk (b : Beat) : Prop :=
  (∃ i, decode .out b.toNat = .ok i) ∧ (beatType b = 0#1 → ClipBounded (beatData b))

/-- Between APPLY and EMIT the working frame is bounded, and so is every beat in flight or driven (R49 (g), R125). -/
def OutputOk (s : State) : Prop :=
  (seqCal ≤ s.seq → s.seq ≤ seqEmit → ∀ w ∈ s.frm.val, ClipBounded w) ∧
    (∀ b ∈ s.port, BeatOk b) ∧ (∀ b ∈ s.sent, BeatOk b)

/-- Every register that R48 gives a reset value has it. -/
def ResetValues (t : State) : Prop :=
  t.wr = 0 ∧ t.seq = seqAccum ∧ t.halted = false ∧ t.cause = 0#2 ∧
    t.hpXp = 0#64 ∧ t.hpYp = 0#64 ∧ t.lpY = 0#64 ∧ t.gain = 0x3FF0000000000000#64 ∧
    t.calLeft = 6400 ∧ t.calSum = 0#64 ∧ t.calCnt = 0 ∧ t.nf = 0x3F60624DD2F1A9FC#64 ∧
    t.voice = false ∧ t.silCnt = 0

/-- `k` frames that are not voice, as HYST sees them: `IS_VOICE = 0` before each (R155). -/
def silentFrames : Nat → State → State
  | 0, s => s
  | k + 1, s => doHyst { silentFrames k s with isVoice := false }

/-- The gain after `m` frames that ask for the same gain (R126). -/
def gainAfter {S C : Type} (N : Num S C) (need : C) : Nat → C → C
  | 0, g => g
  | m + 1, g => gainOf N need (gainAfter N need m g)

/-! What the operations of NUM_DEFAULT answer, in real numbers (00_scope.md R9, R13; IEEE 754, log 24). -/

/-- The real value of a finite binary64 word. -/
noncomputable def real64 (w : F64) : ℝ := (value64 w : ℝ) / 2 ^ 1074

/-- The real value of a finite binary32 word. -/
noncomputable def real32 (w : F32) : ℝ := (if neg32 w then -(units32 w : ℝ) else (units32 w : ℝ)) / 2 ^ 149

/-- `r` is `x` rounded to binary64: to nearest, ties to the even word, with gradual underflow; from the midpoint above
the greatest finite value on, the infinity of the sign of `x`; the sign of a non-zero `x` is kept. -/
def RoundedTo64 (x : ℝ) (r : F64) : Prop :=
  (x < 0 → neg64 r = true) ∧ (0 < x → neg64 r = false) ∧
  (2 ^ 1024 - 2 ^ 970 ≤ |x| → isInf64 r = true) ∧
  (|x| < 2 ^ 1024 - 2 ^ 970 → finite64 r = true ∧
    ∀ c : F64, finite64 c = true → |real64 r - x| ≤ |real64 c - x| ∧
      (|real64 r - x| = |real64 c - x| → real64 c ≠ real64 r → code64 r % 2 = 0))

/-- `r` is `x` rounded to binary32, likewise. -/
def RoundedTo32 (x : ℝ) (r : F32) : Prop :=
  (x < 0 → neg32 r = true) ∧ (0 < x → neg32 r = false) ∧
  (2 ^ 128 - 2 ^ 103 ≤ |x| → isInf32 r = true) ∧
  (|x| < 2 ^ 128 - 2 ^ 103 → finite32 r = true ∧
    ∀ c : F32, finite32 c = true → |real32 r - x| ≤ |real32 c - x| ∧
      (|real32 r - x| = |real32 c - x| → real32 c ≠ real32 r → code32 r % 2 = 0))

/-- A message is a PCM message. -/
def Message.isPcm {S : Type} : Message S → Bool
  | .pcm _ => true
  | .vad _ => false

end Sys2Proof.Machine
end

