-- ==== Sys2Proof/Certificates/Slice0/Obligations.lean ====
section
/-! DEFINITION. The statements for the provers, from the numbered rules of the spec. A docstring that names a log entry
says which part of the statement is the model's choice. -/

open Sys2Proof Sys2Proof.Machine

/-! ## Encoding -/

/-- Decoding and encoding agree in both directions: a word decodes to an instruction exactly when the instruction is
well formed and encodes to that word (R83 to R88, R183). -/
def Obligations.DecodeEncodeAgree : Prop :=
  ∀ (fmt : Format) (w : Nat) (i : Instr), decode fmt w = .ok i ↔ (i.wf = true ∧ encode i = (fmt, w))

/-- A few words written out from the tables of 30_encoding.md and what they stand for. -/
def Obligations.SampleWordsDecode : Prop :=
  decode .inp 0x3F000000 = .ok (.push 0x3F000000#32) ∧
  decode .inp 0xFFC00001 = .ok (.pushNonfinite 1#1 0x400001#23) ∧
  decode .seq 0b0010 = .ok .filt ∧ decode .seq 0b1001 = .ok .flatcalc ∧ decode .seq 0b1111 = .ok .halt ∧
  decode .out 0x23F7D70A4 = .ok (.pcmBeat 1#1 0x3F7D70A4#32) ∧ decode .out 0x300000001 = .ok .vadVoice ∧
  decode .out 0x300000000 = .ok .vadSilence ∧ decode .cause 0b10 = .ok .causeNonfiniteState ∧
  decode .pin 1 = .ok .reset

/-- A consumer that reads the beats of a list of messages as R90 says gets the messages back. -/
def Obligations.MessageStreamReadsBack : Prop :=
  ∀ (ms : List (Message F32)) (n : Nat), ms.length ≤ n → readMessages n (messagesBeats ms) = ms

/-! ## The step -/

/-- A step runs the instruction that the word at its fetch place decodes to: the reset pin, the halt, the next beat in
flight, the next offered word, or the stage in SEQ (R81 to R83, R171, R182; the places are the model's, log 1 to 5). -/
def Obligations.StepRunsFetchedInstruction : Prop :=
  ∀ (s : State) (i : Instr),
    (s.rst = true → decode .pin 1 = .ok i → step s = exec i { s with rst := false }) ∧
    (s.rst = false → s.halted = true → decode .seq 15 = .ok i → step s = exec i s) ∧
    (s.rst = false → s.halted = false →
      (∀ b bs, s.port = b :: bs → decode .out b.toNat = .ok i → step s = exec i { s with port := bs }) ∧
      (s.port = [] → s.seq = seqAccum →
        (∀ w ws, s.inq = w :: ws → decode .inp w.toNat = .ok i → step s = exec i { s with inq := ws }) ∧
        (s.inq = [] → decode .seq s.seq.toNat = .ok i → step s = exec i s)) ∧
      (s.port = [] → s.seq ≠ seqAccum → decode .seq s.seq.toNat = .ok i → step s = exec i s))

/-- Every step answers a next state, as long as the beats in flight are ones the opcode table describes: no condition of
R187 is a fault, and a fatal condition is a next state of the model (log 6). -/
def Obligations.StepNeverStops : Prop :=
  ∀ s : State, (∀ b ∈ s.port, ∃ i, decode .out b.toNat = .ok i) → ∃ t, step s = .next t

/-- The halt state (R182): nothing is accepted, nothing is driven, the pins show the cause, no number of steps changes
anything, and a reset edge ends it and puts every register the spec gives a reset value to that value. That a halted core goes on
to the same next state, where R182 has the outcome halt, is the model's choice (log 6). -/
def Obligations.HaltHoldsUntilReset : Prop :=
  ∀ s : State, s.halted = true →
    (inReady s = false ∧ outValid s = false ∧ haltedPin s = true ∧ causePins s = s.cause) ∧
    (s.rst = false → ∀ n, Sys2Proof.core.run n s = .next s) ∧
    (s.rst = true → ∃ t, step s = .next t ∧ ResetValues t)

/-- What the host offers later never changes a step that has something to do: the result does not depend on how the
words are grouped into blocks or when they are offered (R104; the queue is the model's, log 2). -/
def Obligations.OffersCommuteWithSteps : Prop :=
  ∀ (s t : State) (block : List F32), ¬ Idle s → step s = .next t → step (offer block s) = .next (offer block t)

/-- Finite words short of a full frame are kept in ACC in order, and nothing else changes (R106, R65; the queue of offered
words is the model's, log 2). -/
def Obligations.PartialFrameIsKept : Prop :=
  ∀ (s : State) (ws rest : List F32), Quiescent s → (∀ w ∈ ws, w.extractLsb' 23 8 ≠ 0xFF#8) →
    s.wr + ws.length < 160 → s.inq = ws ++ rest →
    ∃ t, Sys2Proof.core.run ws.length s = .next t ∧
      t = { s with acc := t.acc, wr := s.wr + ws.length, inq := rest } ∧
      ∀ i, i < 160 → bufGet 0#32 t.acc i =
        if s.wr ≤ i ∧ i < s.wr + ws.length then ws.getD (i - s.wr) 0#32 else bufGet 0#32 s.acc i

/-- The stage-by-stage machine does what the transaction step of R173 says: from a quiescent state with a word offered,
some number of steps takes the word, runs the frame it completes if any, and drives exactly the messages of the
transaction; or ends in the transaction's halt with nothing driven (R170 to R173; the finer step and its queues are the
model's, log 1, log 2, log 4). -/
def Obligations.StepsRefineTransaction : Prop :=
  ∀ (s : State) (w : F32) (ws : List F32), Quiescent s → s.wr < 160 → s.inq = w :: ws →
    (∀ h out, transact numDefault (heldOf s) w = .next h out →
      ∃ n t, Sys2Proof.core.run n s = .next t ∧ Quiescent t ∧ t.inq = ws ∧ heldOf t = h ∧
        t.sent = s.sent ++ messagesBeats out) ∧
    (∀ h c, transact numDefault (heldOf s) w = .halt h c →
      ∃ n t, Sys2Proof.core.run n s = .next t ∧ t.rst = false ∧ t.halted = true ∧ t.cause = c ∧ t.seq = seqHalt ∧
        t.port = [] ∧ t.inq = ws ∧ heldOf t = h ∧ t.sent = s.sent)

/-- A transaction, under any NUM, emits nothing, or one PCM message, or one PCM message and directly after it a VAD
message that carries the new state and differs from the old: VAD messages alternate (R70, R157, R162). -/
def Obligations.TransactionMessagesAlternate : Prop :=
  ∀ (S C : Type) (N : Num S C) (h h' : Held S C) (w : S) (out : List (Message S)), transact N h w = .next h' out →
    (out = [] ∧ h'.ctx.voice = h.ctx.voice) ∨
    (∃ p, out = [.pcm p] ∧ h'.ctx.voice = h.ctx.voice) ∨
    (∃ p, out = [.pcm p, .vad h'.ctx.voice] ∧ h'.ctx.voice = !h.ctx.voice)

/-- Under NUM_REAL no run halts: CHECK finds nothing, after any number `n` of words from reset `WR` is `n mod 160`, and
`n / 160` PCM messages were emitted, none before its frame is complete (R9, R106, R172, R173, R189). -/
def Obligations.RealRunsEmitEveryFrame : Prop :=
  ∀ ws : List ℝ,
    (runWords numReal (Held.reset numReal) ws).1.halted = false ∧
    (runWords numReal (Held.reset numReal) ws).1.wr = ws.length % 160 ∧
    (runWords numReal (Held.reset numReal) ws).2.countP Message.isPcm = ws.length / 160

/-! ## Frame Accumulator -/

/-- PUSH of a finite word on a ready core (R100): the word goes bit for bit to `ACC[WR]`, WR counts it, HANDOFF follows
the 160th; nothing else changes. -/
def Obligations.PushStoresWord : Prop :=
  ∀ (w : F32) (s : State), inReady s = true → s.wr < 160 → w.extractLsb' 23 8 ≠ 0xFF#8 →
    ∃ t, exec (.push w) s = .next t ∧
      t = { s with acc := t.acc, wr := s.wr + 1, seq := if s.wr + 1 = 160 then seqHandoff else seqAccum } ∧
      ∀ i, i < 160 → bufGet 0#32 t.acc i = if i = s.wr then w else bufGet 0#32 s.acc i

/-- PUSH of a non-finite word (R101): HALTED and CAUSE 1 are set, SEQ is HALT, ACC, WR and all else are unchanged, and
nothing is emitted (R181, R184 (a)); that the halt is a next state is the model's choice (log 6). -/
def Obligations.NonfiniteWordHalts : Prop :=
  ∀ (sign : BitVec 1) (fraction : BitVec 23) (s : State), inReady s = true →
    exec (.pushNonfinite sign fraction) s = .next { s with halted := true, cause := 1#2, seq := seqHalt }

/-- A word offered while `in_ready` is 0 is not accepted and has no effect (R71, R107; that PUSH
performed then changes nothing is the model's form, log 17). -/
def Obligations.UnreadyWordHasNoEffect : Prop :=
  ∀ (w : F32) (sign : BitVec 1) (fraction : BitVec 23) (s : State), inReady s = false →
    exec (.push w) s = .next s ∧ exec (.pushNonfinite sign fraction) s = .next s

/-- HANDOFF copies ACC to FRM and resets the offset; ACC keeps its contents (R102). -/
def Obligations.HandoffCopiesFrame : Prop :=
  ∀ s : State, s.halted = false →
    exec .handoff s = .next { s with frm := s.acc, wr := 0, seq := seqFilt }

/-- The operations that change nothing: ACCUM waits (R171, R194), HALT holds (R182), SEQ.RESERVED is treated as HALT
(R89; log 19), CAUSE.NONE is no condition (R183; log 20). -/
def Obligations.WaitingOperationsChangeNothing : Prop :=
  ∀ s : State, exec .accum s = .next s ∧ exec .halt s = .next s ∧ exec .seqReserved s = .next s ∧
    exec .causeNone s = .next s

/-! ## Filter Chain -/

/-- FILT, sample by sample (R110, R111, R112): with `f i` the scalars before sample `i`, the high-pass result is
`A_HP * ((HP_YP + x) - HP_XP)`, the low-pass result `LP_Y + A_LP * (y - LP_Y)`, and `FRM[i]` is that rounded once. -/
def Obligations.FiltFollowsRecurrences : Prop :=
  ∀ s : State, s.halted = false →
    ∃ (t : State) (f : Nat → FilterState F64), exec .filt s = .next t ∧
      t = { s with frm := t.frm, hpXp := t.hpXp, hpYp := t.hpYp, lpY := t.lpY, seq := seqRmscalc } ∧
      f 0 = { hpXp := s.hpXp, hpYp := s.hpYp, lpY := s.lpY } ∧
      f 160 = { hpXp := t.hpXp, hpYp := t.hpYp, lpY := t.lpY } ∧
      ∀ i, i < 160 →
        (f (i + 1)).hpXp = ld64 (bufGet 0#32 s.frm i) ∧
        (f (i + 1)).hpYp =
          mul64 0x3FEE8F558572AD67#64 (sub64 (add64 (f i).hpYp (ld64 (bufGet 0#32 s.frm i))) (f i).hpXp) ∧
        (f (i + 1)).lpY =
          add64 (f i).lpY (mul64 0x3FE38D7050D05568#64 (sub64 (f (i + 1)).hpYp (f i).lpY)) ∧
        bufGet 0#32 t.frm i = st32 (f (i + 1)).lpY

/-- The filters run over the stream as if there were no frames, under any NUM (R114). -/
def Obligations.FiltersIgnoreFraming : Prop :=
  ∀ (S C : Type) (N : Num S C) (f : FilterState C) (a b : List S),
    filtSamples N f (a ++ b) = filtSamples N f a ++ filtSamples N (filtState N f a) b ∧
    filtState N f (a ++ b) = filtState N (filtState N f a) b

/-- Silence stays silence (R115): from zero scalars an all-zero frame gives an all-zero frame and zero scalars. -/
def Obligations.FilteredSilenceIsSilence : Prop :=
  ∀ s : State, s.halted = false → s.hpXp = 0#64 → s.hpYp = 0#64 → s.lpY = 0#64 →
    s.frm.val = List.replicate 160 0#32 →
    exec .filt s = .next { s with seq := seqRmscalc }

/-- The difference equations over the reals (R113): impulse and step response of the high-pass, the recurrence of the
low-pass and its step response alone, and the range of the coefficients that makes both stable. -/
def Obligations.RealFilterResponses : Prop :=
  (∀ n : Nat, (filtState numReal { hpXp := 0, hpYp := 0, lpY := 0 } (1 :: List.replicate n 0)).hpYp =
    if n = 0 then numReal.aHp else numReal.aHp ^ n * (numReal.aHp - 1)) ∧
  (∀ n : Nat, (filtState numReal { hpXp := 0, hpYp := 0, lpY := 0 } (List.replicate (n + 1) 1)).hpYp =
    numReal.aHp ^ (n + 1)) ∧
  (∀ (f : FilterState ℝ) (xs : List ℝ) (x : ℝ),
    (filtState numReal f (xs ++ [x])).lpY =
      (1 - numReal.aLp) * (filtState numReal f xs).lpY + numReal.aLp * (filtState numReal f (xs ++ [x])).hpYp) ∧
  (∀ n : Nat, (Nat.iterate (fun f => lpf numReal f 1) (n + 1) { hpXp := 0, hpYp := 0, lpY := 0 }).lpY =
    1 - (1 - numReal.aLp) ^ (n + 1)) ∧
  0 < numReal.aHp ∧ numReal.aHp < 1 ∧ 0 < numReal.aLp ∧ numReal.aLp < 1

/-! ## Level Normalizer -/

/-- RMSCALC (R120): the root of the mean of squares, summed in ascending index; `RMS_EPS` for an exact zero. -/
def Obligations.RmsOfFilteredFrame : Prop :=
  ∀ s : State, s.halted = false →
    let acc := (List.range 160).foldl
      (fun a i => add64 a (mul64 (ld64 (bufGet 0#32 s.frm i)) (ld64 (bufGet 0#32 s.frm i)))) 0#64
    let r := sqrt64 (div64 acc 0x4064000000000000#64)
    exec .rmscalc s =
      .next { s with rms := if eq64 r 0#64 then 0x3EB0C6F7A0B5ED8D#64 else r, seq := seqGainupd }

/-- GAINUPD (R121, R122): `NEED` is 0.25 / RMS clamped to 0.1 and 12, and `GAIN` moves towards it by 0.35 of the gap when
rising, by 0.01 of it otherwise. -/
def Obligations.GainMovesTowardsNeed : Prop :=
  ∀ s : State, s.halted = false →
    let q := div64 0x3FD0000000000000#64 s.rms
    let lower := if lt64 0x3FB999999999999A#64 q then q else 0x3FB999999999999A#64
    let need := if lt64 lower 0x4028000000000000#64 then lower else 0x4028000000000000#64
    let coeff := if lt64 s.gain need then 0x3FD6666666666666#64 else 0x3F847AE147AE147B#64
    exec .gainupd s =
      .next { s with need := need, gain := add64 s.gain (mul64 coeff (sub64 need s.gain)), seq := seqApply }

/-- APPLY (R124): every sample times the gain, clamped to 0.99 either side, and rounded once. -/
def Obligations.ApplyScalesAndClips : Prop :=
  ∀ s : State, s.halted = false →
    ∃ t, exec .apply s = .next t ∧ t = { s with frm := t.frm, seq := seqCal } ∧
      ∀ i, i < 160 →
        let v := mul64 (ld64 (bufGet 0#32 s.frm i)) s.gain
        let lower := if lt64 0xBFEFAE147AE147AE#64 v then v else 0xBFEFAE147AE147AE#64
        bufGet 0#32 t.frm i = st32 (if lt64 lower 0x3FEFAE147AE147AE#64 then lower else 0x3FEFAE147AE147AE#64)

/-- Whatever the frame and the gain hold, every sample APPLY stores is finite and at most `st(0.99)` in magnitude
(R125, derived from R11 and R124; 90_conflicts.md C11); over the reals at most 0.99. -/
def Obligations.AppliedSamplesAreBounded : Prop :=
  (∀ s t : State, s.halted = false → exec .apply s = .next t →
    ∀ w ∈ t.frm.val, ClipBounded w ∧ finite32 w = true) ∧
  (∀ g x : ℝ, |applySample numReal g x| ≤ 99 / 100)

/-- Every step keeps the gain between 0.1 and 12 in binary64, with no clamp on it (R49 (b), R216). -/
def Obligations.StepKeepsGainBounds : Prop :=
  ∀ s t : State, GainOk s → step s = .next t → GainOk t

/-- Gain trajectories over the reals (R126), and the gain asked for and reached in silence (R127), both derived from R121
and R122. -/
def Obligations.RealGainTrajectories : Prop :=
  (∀ (need g : ℝ) (m : Nat), g < need →
    gainAfter numReal need m g = need - (need - g) * (65 / 100) ^ m) ∧
  (∀ (need g : ℝ) (m : Nat), need ≤ g →
    gainAfter numReal need m g = need - (need - g) * (99 / 100) ^ m) ∧
  needOf numReal (numReal.const .rmsEps) = 12 ∧
  (∀ m : Nat, gainAfter numReal (needOf numReal (numReal.const .rmsEps)) m 1 = 12 - 11 * (65 / 100) ^ m)

/-! ## Noise Floor Calibrator -/

/-- CAL (R131): while `CAL_LEFT > 0` the RMS is added and counted and 160 subtracted; the frame that brings it to zero or
below writes the mean to NF; after that nothing. -/
def Obligations.CalAveragesThenFreezes : Prop :=
  ∀ s : State, s.halted = false →
    (160 < s.calLeft → exec .cal s =
      .next { s with calSum := add64 s.calSum s.rms, calCnt := s.calCnt + 1, calLeft := s.calLeft - 160,
                     seq := seqZcrcalc }) ∧
    (0 < s.calLeft → s.calLeft ≤ 160 → exec .cal s =
      .next { s with calSum := add64 s.calSum s.rms, calCnt := s.calCnt + 1, calLeft := s.calLeft - 160,
                     nf := div64 (add64 s.calSum s.rms) (ofNat64 (s.calCnt + 1)), seq := seqZcrcalc }) ∧
    (s.calLeft ≤ 0 → exec .cal s = .next { s with seq := seqZcrcalc })

/-- Once the window is over no step but a reset changes a calibration register (R132). -/
def Obligations.CalibrationStaysFrozen : Prop :=
  ∀ s t : State, s.rst = false → s.calLeft ≤ 0 → step s = .next t →
    t.calLeft = s.calLeft ∧ t.calSum = s.calSum ∧ t.calCnt = s.calCnt ∧ t.nf = s.nf

/-- Every step keeps `CAL_LEFT = 6400 - 160*CAL_CNT`, `CAL_CNT <= 40` and the default floor while calibrating (R49 (c),
(d)). -/
def Obligations.StepKeepsCalibration : Prop :=
  ∀ s t : State, CalOk s → step s = .next t → CalOk t

/-! ## Feature Extractor -/

/-- ZCRCALC (R141): the number of the 159 neighbour pairs on different sides of `>= 0`, and that over 160. -/
def Obligations.ZeroCrossingsCounted : Prop :=
  ∀ s : State, s.halted = false →
    let side := fun i => le64 0#64 (ld64 (bufGet 0#32 s.frm i))
    let zc := (List.range 159).countP (fun i => side (i + 1) != side i)
    exec .zcrcalc s =
      .next { s with zc := zc, zcr := div64 (ofNat64 zc) 0x4064000000000000#64, seq := seqDft }

/-- DFT (R143): each of the 64 bins by direct summation in ascending index. -/
def Obligations.DftSumsDirectly : Prop :=
  ∀ s : State, s.halted = false →
    ∃ t, exec .dft s = .next t ∧ t = { s with mag := t.mag, seq := seqFlatcalc } ∧
      ∀ k, k < 64 →
        let re := (List.range 160).foldl
          (fun a n => add64 a (mul64 (ld64 (bufGet 0#32 s.frm n)) (cosTable (k * n % 160)))) 0#64
        let im := (List.range 160).foldl
          (fun a n => sub64 a (mul64 (ld64 (bufGet 0#32 s.frm n)) (sinTable (k * n % 160)))) 0#64
        bufGet 0#64 t.mag k = div64 (hypot64 re im) 0x4064000000000000#64

/-- FLATCALC (R146): the geometric mean through logarithms with the epsilon, the bare arithmetic mean, their ratio. -/
def Obligations.FlatnessOfBins : Prop :=
  ∀ s : State, s.halted = false →
    let gm := exp64 (div64 ((List.range 63).foldl
      (fun a j => add64 a (ln64 (add64 (bufGet 0#64 s.mag (j + 1)) 0x3D719799812DEA11#64))) 0#64) 0x404F800000000000#64)
    let am := div64 ((List.range 63).foldl
      (fun a j => add64 a (bufGet 0#64 s.mag (j + 1))) 0#64) 0x404F800000000000#64
    exec .flatcalc s = .next { s with gm := gm, am := am, flat := div64 gm am, seq := seqClassify }

/-- A spectrum whose bins 1 to 63 are all zero has `FLAT = +inf`, and the test `FLAT < 0.5` is false, whatever the free
accuracy of `ln` and `exp` (log 9); over the reals FLAT has no value exactly when AM is zero, and then no frame is voice
(R146, R151; 92_eei_decisions.md D16). -/
def Obligations.ZeroSpectrumIsNotTonal : Prop :=
  (∀ s : State, s.halted = false → (∀ k, 1 ≤ k → k < 64 → code64 (bufGet 0#64 s.mag k) = 0) →
    ∃ t, exec .flatcalc s = .next t ∧ t.flat = 0x7FF0000000000000#64 ∧ lt64 t.flat 0x3FE0000000000000#64 = false) ∧
  (∀ mags : List ℝ, (flatOf numReal mags = none ↔ arithMean numReal mags = 0) ∧
    ((∀ m ∈ mags, m = 0) → ∀ rms thr zcr : ℝ, voiceTest numReal rms thr (flatOf numReal mags) zcr = false))

/-- The range of the flatness over the reals (R147): positive, and at most `1 + 1e-12/AM` when `AM > 0`. -/
def Obligations.RealFlatnessRange : Prop :=
  ∀ mags : List ℝ, mags.length = 63 → (∀ m ∈ mags, 0 ≤ m) → 0 < arithMean numReal mags →
    0 < numReal.div (geoMean numReal mags) (arithMean numReal mags) ∧
    numReal.div (geoMean numReal mags) (arithMean numReal mags) ≤ 1 + (1 / 10 ^ 12) / arithMean numReal mags

/-- Over the reals a positive gain scales every magnitude and leaves the zero crossings alone (R142 (b), R144 (c)). -/
def Obligations.RealFeaturesUnderGain : Prop :=
  ∀ (g : ℝ) (frm : List ℝ), 0 < g →
    signChanges numReal (frm.map (fun x => g * x)) = signChanges numReal frm ∧
    ∀ k, dftBin numReal (frm.map (fun x => g * x)) k = g * dftBin numReal frm k

/-! ## VAD Decision Engine -/

/-- CLASSIFY (R150, R151): the threshold is `max(NF * 2, 0.003)`, the decision four strict comparisons. -/
def Obligations.ClassifyThresholds : Prop :=
  ∀ s : State, s.halted = false →
    let twice := mul64 s.nf 0x4000000000000000#64
    let thr := if lt64 0x3F689374BC6A7EFA#64 twice then twice else 0x3F689374BC6A7EFA#64
    exec .classify s =
      .next { s with thr := thr,
                     isVoice := lt64 thr s.rms && lt64 s.flat 0x3FE0000000000000#64 &&
                       lt64 0x3F947AE147AE147B#64 s.zcr && lt64 s.zcr 0x3FD0000000000000#64,
                     seq := seqHyst }

/-- HYST (R152, R153): the run is updated first, then the state is voice exactly when the run is at most 4, and TRANS
tells whether it changed. -/
def Obligations.HysteresisRule : Prop :=
  ∀ s : State, s.halted = false →
    (s.isVoice = true → exec .hyst s =
      .next { s with silCnt := 0, voice := true, trans := !s.voice, seq := seqCheck }) ∧
    (s.isVoice = false → s.silCnt ≤ 3 → exec .hyst s =
      .next { s with silCnt := s.silCnt + 1, voice := true, trans := !s.voice, seq := seqCheck }) ∧
    (s.isVoice = false → 4 ≤ s.silCnt → exec .hyst s =
      .next { s with silCnt := s.silCnt + 1, voice := false, trans := s.voice, seq := seqCheck })

/-- The hang-over is five frames (R155): after a voice frame, `k` silent frames leave the state voice for `k <= 4` and
silence from the fifth on, and only the fifth is a transition. -/
def Obligations.HangOverIsFiveFrames : Prop :=
  ∀ (s : State) (k : Nat), s.voice = true → s.silCnt = 0 → 1 ≤ k →
    (silentFrames k s).voice = decide (k ≤ 4) ∧ (silentFrames k s).trans = decide (k = 5) ∧
    (silentFrames k s).silCnt = k

/-- Every step keeps the tie of VOICE to the silence run (R49 (e), R154). -/
def Obligations.StepKeepsVadTie : Prop :=
  ∀ s t : State, VadOk s → step s = .next t → VadOk t

/-! ## Emitter -/

/-- EMIT (R160, R161, R162): 160 beats with the samples in order and `out_last` on the final one, then on a transition
the one VAD beat with the new state; the sequencer returns to ACCUM. That the beats wait in a list of State is the
model's form (log 4). -/
def Obligations.EmitQueuesMessages : Prop :=
  ∀ s : State, s.halted = false →
    ∃ (t : State) (pcm : List Beat), exec .emit s = .next t ∧ t = { s with port := t.port, seq := seqAccum } ∧
      t.port = s.port ++ pcm ++
        (if s.trans then [if s.voice then 0x300000001#34 else 0x300000000#34] else []) ∧
      pcm.length = 160 ∧
      ∀ i, i < 160 →
        pcm.getD i 0#34 = ((if i = 159 then 1#1 else 0#1) ++ 0#1 ++ bufGet 0#32 s.frm i : BitVec 34)

/-- The output beats (R83, R85, R86): each is driven once, and nothing else changes (the record of driven
beats is the model's, log 4). -/
def Obligations.BeatsAreDriven : Prop :=
  ∀ (last : BitVec 1) (data : F32) (s : State), s.halted = false →
    exec (.pcmBeat last data) s = .next { s with sent := s.sent ++ [(last ++ 0#1 ++ data : BitVec 34)] } ∧
    exec .vadVoice s = .next { s with sent := s.sent ++ [0x300000001#34] } ∧
    exec .vadSilence s = .next { s with sent := s.sent ++ [0x300000000#34] }

/-- Every step keeps every beat in flight or driven legal, and every sample of a PCM beat within `st(0.99)` (R49 (g),
R89 (b), R125). -/
def Obligations.StepKeepsOutputBounds : Prop :=
  ∀ s t : State, OutputOk s → step s = .next t → OutputOk t

/-! ## Fatal conditions and reset -/

/-- `raise Fatal(c)` (R181): the latch, the cause and SEQ are written and nothing else; the cause rows performed as
operations are the model's reading (log 20), the next state in place of an outcome `halt` too (log 6). -/
def Obligations.CauseRowsRaiseFatal : Prop :=
  ∀ s : State, s.halted = false →
    exec .causeNonfiniteInput s = .next { s with halted := true, cause := 1#2, seq := seqHalt } ∧
    exec .causeNonfiniteState s = .next { s with halted := true, cause := 2#2, seq := seqHalt }

/-- The reserved cause code is never raised (R183): performed as an operation it stops (log 20). -/
def Obligations.ReservedCauseStops : Prop :=
  ∀ s : State, exec .causeReserved s = .fault .reservedCause

/-- CHECK (R189): when the frame, the filter scalars, RMS, GAIN, CAL_SUM and NF are all finite the core goes on to EMIT;
otherwise `Fatal(2)`, with everything the frame wrote kept and nothing emitted (R181, R184 (b)); that the halt is a next state
is the model's choice (log 6). -/
def Obligations.CheckGuardsEmission : Prop :=
  ∀ s : State, s.halted = false →
    ((∀ w ∈ s.frm.val, w.extractLsb' 23 8 ≠ 0xFF#8) ∧
      (∀ v ∈ [s.hpXp, s.hpYp, s.lpY, s.rms, s.gain, s.calSum, s.nf], v.extractLsb' 52 11 ≠ 0x7FF#11) →
      exec .check s = .next { s with seq := seqEmit }) ∧
    (¬ ((∀ w ∈ s.frm.val, w.extractLsb' 23 8 ≠ 0xFF#8) ∧
      (∀ v ∈ [s.hpXp, s.hpYp, s.lpY, s.rms, s.gain, s.calSum, s.nf], v.extractLsb' 52 11 ≠ 0x7FF#11)) →
      exec .check s = .next { s with halted := true, cause := 2#2, seq := seqHalt })

/-- RESET (R48, R200): every register the spec gives a reset value has it, whatever the state before. -/
def Obligations.ResetRestoresRegisters : Prop :=
  ∀ s : State, ∃ t, exec .reset s = .next t ∧
    t.wr = 0 ∧ t.seq = 0#4 ∧ t.halted = false ∧ t.cause = 0#2 ∧
    t.hpXp = 0#64 ∧ t.hpYp = 0#64 ∧ t.lpY = 0#64 ∧ t.gain = 0x3FF0000000000000#64 ∧
    t.calLeft = 6400 ∧ t.calSum = 0#64 ∧ t.calCnt = 0 ∧ t.nf = 0x3F60624DD2F1A9FC#64 ∧
    t.voice = false ∧ t.silCnt = 0

/-- The state after reset has the values of R48 that the spec gives. -/
def Obligations.ResetStateValues : Prop := ResetValues State.reset

/-- A reset edge at any point, also inside a frame or a message, abandons it: nothing more of it is driven, nothing is
accepted at that edge, and the core waits in ACCUM (R200, R201; that the host's words stay offered is log 14). -/
def Obligations.ResetEdgeAbandonsFrame : Prop :=
  ∀ s : State, s.rst = true → ∃ t, step s = .next t ∧ t.seq = seqAccum ∧ t.wr = 0 ∧ t.port = [] ∧
    t.sent = s.sent ∧ t.inq = s.inq ∧ outValid s = false ∧ inReady s = false

/-- Every step keeps the sequencer, the latch and the write offset in order (R34, R49 (a), (f), R88, R171, R183). That
messages are in flight only in ACCUM is the model's form: EMIT queues the beats, which are driven afterwards (log 4,
log 5). -/
def Obligations.StepKeepsSequencer : Prop :=
  ∀ s t : State, SeqOk s → CauseOk s → WrOk s → step s = .next t → SeqOk t ∧ CauseOk t ∧ WrOk t

/-- The state after reset meets every invariant (R49). -/
def Obligations.ResetMeetsInvariants : Prop :=
  SeqOk State.reset ∧ CauseOk State.reset ∧ WrOk State.reset ∧ CalOk State.reset ∧ VadOk State.reset ∧
    GainOk State.reset ∧ OutputOk State.reset

/-- Only HALTED forbids an operation (R182, R190): while it is 1 no operation but RESET changes anything (log 16;
CAUSE.RESERVED faults, log 20). -/
def Obligations.HaltedForbidsOperations : Prop :=
  ∀ (i : Instr) (s : State), s.halted = true → i ≠ .reset → i ≠ .causeReserved → exec i s = .next s

/-- The write map: outside reset each register changes only in the stage that the table of R50 names, and SEQ goes where
R171 sends it. Beyond the table's rows HALTED and CAUSE change with PUSH.NONFINITE (R101) and with the two cause rows
(log 20), the list of driven beats with the three output beats and the list of beats in flight with EMIT (log 4); the
offered words and the reset pin, which `exec` leaves alone, are the host's (log 2, log 3). -/
def Obligations.OnlyNamedStagesWrite : Prop :=
  ∀ (i : Instr) (s t : State), i.wf = true → exec i s = .next t → i ≠ .reset →
    ((∀ w, i ≠ .push w) → t.acc = s.acc ∧ (i ≠ .handoff → t.wr = s.wr)) ∧
    (i ≠ .handoff → i ≠ .filt → i ≠ .apply → t.frm = s.frm) ∧
    (i ≠ .filt → t.hpXp = s.hpXp ∧ t.hpYp = s.hpYp ∧ t.lpY = s.lpY) ∧
    (i ≠ .rmscalc → t.rms = s.rms) ∧
    (i ≠ .gainupd → t.need = s.need ∧ t.gain = s.gain) ∧
    (i ≠ .cal → t.calLeft = s.calLeft ∧ t.calSum = s.calSum ∧ t.calCnt = s.calCnt ∧ t.nf = s.nf) ∧
    (i ≠ .zcrcalc → t.zc = s.zc ∧ t.zcr = s.zcr) ∧
    (i ≠ .dft → t.mag = s.mag) ∧
    (i ≠ .flatcalc → t.gm = s.gm ∧ t.am = s.am ∧ t.flat = s.flat) ∧
    (i ≠ .classify → t.thr = s.thr ∧ t.isVoice = s.isVoice) ∧
    (i ≠ .hyst → t.silCnt = s.silCnt ∧ t.voice = s.voice ∧ t.trans = s.trans) ∧
    (i ≠ .emit → t.port = s.port) ∧
    ((∀ l d, i ≠ .pcmBeat l d) → i ≠ .vadVoice → i ≠ .vadSilence → t.sent = s.sent) ∧
    ((∀ a b, i ≠ .pushNonfinite a b) → i ≠ .check → i ≠ .causeNonfiniteInput → i ≠ .causeNonfiniteState →
      t.halted = s.halted ∧ t.cause = s.cause) ∧
    (s.halted = true → t.seq = s.seq) ∧
    (i = .accum ∨ i = .halt ∨ i = .seqReserved ∨ (∃ l d, i = .pcmBeat l d) ∨ i = .vadVoice ∨ i = .vadSilence ∨
      i = .causeNone → t.seq = s.seq) ∧
    (∀ w, i = .push w → t.seq = if inReady s = true ∧ s.wr + 1 = 160 then seqHandoff else s.seq) ∧
    (∀ a b, i = .pushNonfinite a b → t.seq = if inReady s = true then seqHalt else s.seq) ∧
    (s.halted = false →
      (i = .handoff → t.seq = seqFilt) ∧ (i = .filt → t.seq = seqRmscalc) ∧ (i = .rmscalc → t.seq = seqGainupd) ∧
      (i = .gainupd → t.seq = seqApply) ∧ (i = .apply → t.seq = seqCal) ∧ (i = .cal → t.seq = seqZcrcalc) ∧
      (i = .zcrcalc → t.seq = seqDft) ∧ (i = .dft → t.seq = seqFlatcalc) ∧ (i = .flatcalc → t.seq = seqClassify) ∧
      (i = .classify → t.seq = seqHyst) ∧ (i = .hyst → t.seq = seqCheck) ∧
      (i = .check → t.seq = if checkedFinite s then seqEmit else seqHalt) ∧ (i = .emit → t.seq = seqAccum) ∧
      (i = .causeNonfiniteInput ∨ i = .causeNonfiniteState → t.seq = seqHalt)) ∧
    t.rst = s.rst ∧ t.inq = s.inq

/-! ## The numeric configuration -/

/-- `codeOfRatio`, which the operations use, rounds to nearest, ties to even (R9, log 24): no representable magnitude is closer to `p / q` units than the one
chosen, and if another is as close the one chosen has an even code. -/
def Obligations.RoundingIsNearestEven : Prop :=
  ∀ f p q c : Nat, 1 ≤ f → 0 < q →
    ((unitsOfCode f (codeOfRatio f p q) * q : Int) - p).natAbs ≤ ((unitsOfCode f c * q : Int) - p).natAbs ∧
    (((unitsOfCode f (codeOfRatio f p q) * q : Int) - p).natAbs = ((unitsOfCode f c * q : Int) - p).natAbs →
      c ≠ codeOfRatio f p q → codeOfRatio f p q % 2 = 0)

/-- Addition, subtraction, multiplication and division of finite words answer the exact result rounded once, with
overflow to infinity; the sign of an exact zero and of a product or quotient, and division by zero, are IEEE 754's
(R9, R13; log 24). -/
def Obligations.ArithmeticRoundsExactly : Prop :=
  ∀ a b : F64, finite64 a = true → finite64 b = true →
    RoundedTo64 (real64 a + real64 b) (add64 a b) ∧
    (real64 a + real64 b = 0 → neg64 (add64 a b) = (neg64 a && neg64 b)) ∧
    RoundedTo64 (real64 a - real64 b) (sub64 a b) ∧
    (real64 a - real64 b = 0 → neg64 (sub64 a b) = (neg64 a && !neg64 b)) ∧
    RoundedTo64 (real64 a * real64 b) (mul64 a b) ∧ neg64 (mul64 a b) = (neg64 a != neg64 b) ∧
    (real64 b ≠ 0 → RoundedTo64 (real64 a / real64 b) (div64 a b) ∧ neg64 (div64 a b) = (neg64 a != neg64 b)) ∧
    (real64 b = 0 → real64 a ≠ 0 → isInf64 (div64 a b) = true ∧ neg64 (div64 a b) = (neg64 a != neg64 b)) ∧
    (real64 b = 0 → real64 a = 0 → isNan64 (div64 a b) = true)

/-- The square root of a finite word that is not negative, the conversion of an integer, the narrowing of a finite word
and every literal are the exact value rounded once (R9; log 24). -/
def Obligations.RootsAndConversionsRoundExactly : Prop :=
  (∀ a : F64, finite64 a = true → 0 ≤ real64 a →
    RoundedTo64 (Real.sqrt (real64 a)) (sqrt64 a) ∧ (real64 a = 0 → sqrt64 a = a)) ∧
  (∀ n : Nat, RoundedTo64 (n : ℝ) (ofNat64 n)) ∧
  (∀ w : F64, finite64 w = true → RoundedTo32 (real64 w) (st32 w) ∧ neg32 (st32 w) = neg64 w) ∧
  (∀ l : Literal, RoundedTo64 ((l.value.1 : ℝ) / (l.value.2 : ℝ)) l.word)

/-- Comparisons of finite words are those of their values, every comparison with a NaN is false, and the comparisons on
S are those on C after `ld`; a NaN gives a NaN, and infinities combine as in IEEE 754 (R9, R13; log 24). -/
def Obligations.ComparisonsAndSpecialOperands : Prop :=
  (∀ a b : F64, finite64 a = true → finite64 b = true →
    (lt64 a b = true ↔ real64 a < real64 b) ∧ (le64 a b = true ↔ real64 a ≤ real64 b) ∧
    (eq64 a b = true ↔ real64 a = real64 b)) ∧
  (∀ a b : F64, finite64 a = true → isInf64 b = true →
    lt64 a b = !neg64 b ∧ lt64 b a = neg64 b ∧ le64 a b = !neg64 b ∧ le64 b a = neg64 b ∧ eq64 a b = false) ∧
  (∀ a b : F64, isNan64 a = true ∨ isNan64 b = true →
    lt64 a b = false ∧ le64 a b = false ∧ eq64 a b = false ∧ isNan64 (add64 a b) = true ∧ isNan64 (sub64 a b) = true ∧
    isNan64 (mul64 a b) = true ∧ isNan64 (div64 a b) = true) ∧
  (∀ a b : F32, lt32 a b = lt64 (ld64 a) (ld64 b) ∧ le32 a b = le64 (ld64 a) (ld64 b) ∧
    eq32 a b = eq64 (ld64 a) (ld64 b)) ∧
  (∀ a b : F64, isInf64 a = true → isNan64 b = false →
    (isInf64 b = true → neg64 a ≠ neg64 b → isNan64 (add64 a b) = true ∧ sub64 a b = a) ∧
    (isInf64 b = true → neg64 a = neg64 b → add64 a b = a ∧ isNan64 (sub64 a b) = true) ∧
    (isInf64 b = true → isNan64 (div64 a b) = true) ∧
    (finite64 b = true → add64 a b = a ∧ add64 b a = a ∧ sub64 a b = a ∧ sub64 b a = negate64 a ∧
      div64 a b = pack64 (neg64 a != neg64 b) infCode64 ∧ div64 b a = pack64 (neg64 b != neg64 a) 0) ∧
    (code64 b = 0 → isNan64 (mul64 a b) = true ∧ isNan64 (mul64 b a) = true) ∧
    (code64 b ≠ 0 → mul64 a b = pack64 (neg64 a != neg64 b) infCode64 ∧
      mul64 b a = pack64 (neg64 b != neg64 a) infCode64)) ∧
  (∀ a : F64, (isNan64 a = true → isNan64 (sqrt64 a) = true ∧ isNan32 (st32 a) = true) ∧
    (isInf64 a = true → st32 a = pack32 (neg64 a) infCode32 ∧ (neg64 a = false → sqrt64 a = a)) ∧
    (isNan64 a = false → neg64 a = true → code64 a ≠ 0 → isNan64 (sqrt64 a) = true))

/-- `ld` is exact, and `st` undoes it (R9): the value of a finite binary32 word is unchanged, a unit of 2^-149 being
2^925 units of 2^-1074. -/
def Obligations.WideningIsExact : Prop :=
  ∀ w : F32, finite32 w = true →
    finite64 (ld64 w) = true ∧ neg64 (ld64 w) = neg32 w ∧ units64 (ld64 w) = units32 w * 2 ^ 925 ∧ st32 (ld64 w) = w

/-- The integer square root that `sqrt` rounds is the true floor. -/
def Obligations.IntegerRootIsFloor : Prop :=
  ∀ m : Nat, isqrt m * isqrt m ≤ m ∧ m < (isqrt m + 1) * (isqrt m + 1)

/-- Every literal of the rules is the binary64 nearest its decimal value (R9). -/
def Obligations.LiteralsAreNearest : Prop :=
  ∀ l ∈ Literal.all, l.word = round64 (decide (l.value.1 < 0)) (l.value.1.natAbs * 2 ^ 1074) l.value.2

/-- What D35 asks of `hypot`, `ln` and `exp`, whatever free map computes them (R9, U7; log 9): `hypot(a, 0) = |a|`
exactly; the sign of the second operand, the imaginary part, does not affect the result (R143); `hypot` does not fall when
the magnitudes of its operands grow (the sign of the first one kept), and is within one unit in the last place of the root
of the sum of squares (an infinite result bounds the root from below only); `ln` and `exp` are monotone, `exp` is not
negative, `ln 1` is within one unit of 0, and `exp 0` is 1 or a neighbour of it. How close the fixed-point bounds of the
other values of `ln` and `exp` lie is log 10's and not stated here. -/
def Obligations.ElementaryFunctionLaws : Prop :=
  (∀ a b : F64, finite64 a = true → code64 b = 0 →
    neg64 (hypot64 a b) = false ∧ code64 (hypot64 a b) = code64 a) ∧
  (∀ a b : F64, hypot64 a (negate64 b) = hypot64 a b) ∧
  (∀ a a' b b' : F64, finite64 a' = true → finite64 b' = true → neg64 a = neg64 a' →
    code64 a ≤ code64 a' → code64 b ≤ code64 b' →
    neg64 (hypot64 a b) = false ∧ code64 (hypot64 a b) ≤ code64 (hypot64 a' b')) ∧
  (∀ a b : F64, finite64 a = true → finite64 b = true →
    (units64 (hypot64 a b) - ulpUnits (isqrt (units64 a ^ 2 + units64 b ^ 2))) ^ 2 ≤ units64 a ^ 2 + units64 b ^ 2 ∧
    (finite64 (hypot64 a b) = true → units64 a ^ 2 + units64 b ^ 2 ≤
      (units64 (hypot64 a b) + ulpUnits (isqrt (units64 a ^ 2 + units64 b ^ 2))) ^ 2)) ∧
  (∀ x y : F64, finite64 y = true → neg64 x = false → neg64 y = false → code64 x ≠ 0 → code64 x ≤ code64 y →
    le64 (ln64 x) (ln64 y) = true) ∧
  (value64 (ln64 0x3FF0000000000000#64)).natAbs ≤ 1 ∧
  (∀ x y : F64, finite64 x = true → finite64 y = true → le64 x y = true →
    le64 (exp64 x) (exp64 y) = true ∧ le64 0#64 (exp64 x) = true) ∧
  (∀ z : F64, code64 z = 0 →
    le64 0x3FEFFFFFFFFFFFFF#64 (exp64 z) = true ∧ le64 (exp64 z) 0x3FF0000000000001#64 = true)
end

