-- ==== Sys2Proof/Laws/Float.lean ====
section
/-! SUPPORT. First facts of the binary32 and binary64 words: sign and magnitude code of a packed word, and the bounds
of the rounding. -/

namespace Sys2Proof.Machine

theorem code64_lt (w : F64) : code64 w < 2 ^ 63 := Nat.mod_lt _ (by decide)

theorem code32_lt (w : F32) : code32 w < 2 ^ 31 := Nat.mod_lt _ (by decide)

@[simp] theorem code64_pack64 (neg : Bool) (code : Nat) : code64 (pack64 neg code) = min code infCode64 := by
  have h : min code infCode64 ≤ infCode64 := Nat.min_le_right _ _
  have hi : infCode64 = 0x7FF0000000000000 := rfl
  cases neg <;> simp only [code64, pack64, BitVec.toNat_ofNat] <;> simp <;> omega

@[simp] theorem neg64_pack64 (neg : Bool) (code : Nat) : neg64 (pack64 neg code) = neg := by
  have h : min code infCode64 ≤ infCode64 := Nat.min_le_right _ _
  have hi : infCode64 = 0x7FF0000000000000 := rfl
  cases neg <;> simp only [neg64, pack64, BitVec.msb_eq_decide, BitVec.toNat_ofNat] <;> simp <;> omega

@[simp] theorem isNan64_pack64 (neg : Bool) (code : Nat) : isNan64 (pack64 neg code) = false := by
  simp [isNan64]

@[simp] theorem code32_pack32 (neg : Bool) (code : Nat) : code32 (pack32 neg code) = min code infCode32 := by
  have h : min code infCode32 ≤ infCode32 := Nat.min_le_right _ _
  have hi : infCode32 = 0x7F800000 := rfl
  cases neg <;> simp only [code32, pack32, BitVec.toNat_ofNat] <;> simp <;> omega

@[simp] theorem neg32_pack32 (neg : Bool) (code : Nat) : neg32 (pack32 neg code) = neg := by
  have h : min code infCode32 ≤ infCode32 := Nat.min_le_right _ _
  have hi : infCode32 = 0x7F800000 := rfl
  cases neg <;> simp only [neg32, pack32, BitVec.msb_eq_decide, BitVec.toNat_ofNat] <;> simp <;> omega

/-- A word that is no NaN is the pack of its sign and code. -/
theorem pack64_self (w : F64) (h : isNan64 w = false) : pack64 (neg64 w) (code64 w) = w := by
  have hc : code64 w ≤ infCode64 := by simpa [isNan64] using h
  have hw := w.isLt
  have hm : (if neg64 w then 2 ^ 63 else 0) + code64 w = w.toNat := by
    unfold neg64 code64
    rw [BitVec.msb_eq_decide]
    by_cases hs : 2 ^ (64 - 1) ≤ w.toNat <;> simp only [hs, decide_true, decide_false] <;> simp <;> omega
  apply BitVec.eq_of_toNat_eq
  rw [pack64, BitVec.toNat_ofNat, Nat.min_eq_left hc, hm, Nat.mod_eq_of_lt hw]

@[simp] theorem code64_negate64 (w : F64) : code64 (negate64 w) = code64 w := by
  have h : (negate64 w).setWidth 63 = w.setWidth 63 := by
    unfold negate64
    ext i hi
    have : i < 63 := hi
    interval_cases i <;> simp
  have h' := congrArg BitVec.toNat h
  simpa [code64] using h'

@[simp] theorem magnitude64_negate64 (w : F64) : magnitude64 (negate64 w) = magnitude64 w := by
  unfold magnitude64 negate64
  ext i hi
  interval_cases i <;> simp

theorem finite64_iff (w : F64) : finite64 w = true ↔ code64 w < infCode64 := by simp [finite64]

theorem finite32_iff (w : F32) : finite32 w = true ↔ code32 w < infCode32 := by simp [finite32]

/-- Rounding a ratio to an integer gives its floor or the next integer. -/
theorem divNearestEven_bounds (p q : Nat) : p / q ≤ divNearestEven p q ∧ divNearestEven p q ≤ p / q + 1 := by
  unfold divNearestEven; split <;> omega

theorem codeOfRatio_zero (f q : Nat) : codeOfRatio f 0 q = 0 := by
  have h : lastPlace f 0 q = 0 := by
    have : Nat.log2 0 = 0 := by decide
    simp [lastPlace, this]
  by_cases hq : q = 0
  · subst hq; simp [codeOfRatio, h, divNearestEven]
  · have : 0 < q := Nat.pos_of_ne_zero hq
    simp [codeOfRatio, h, divNearestEven]

/-! The fields of NUM_DEFAULT. -/

@[simp] theorem numDefault_ld : numDefault.ld = ld64 := rfl
@[simp] theorem numDefault_st : numDefault.st = st32 := rfl
@[simp] theorem numDefault_add : numDefault.add = add64 := rfl
@[simp] theorem numDefault_sub : numDefault.sub = sub64 := rfl
@[simp] theorem numDefault_mul : numDefault.mul = mul64 := rfl
@[simp] theorem numDefault_div : numDefault.div = div64 := rfl
@[simp] theorem numDefault_sqrt : numDefault.sqrt = sqrt64 := rfl
@[simp] theorem numDefault_hypot : numDefault.hypot = hypot64 := rfl
@[simp] theorem numDefault_ln : numDefault.ln = ln64 := rfl
@[simp] theorem numDefault_exp : numDefault.exp = exp64 := rfl
@[simp] theorem numDefault_cos160 : numDefault.cos160 = cosTable := rfl
@[simp] theorem numDefault_sin160 : numDefault.sin160 = sinTable := rfl
@[simp] theorem numDefault_const : numDefault.const = Literal.word := rfl
@[simp] theorem numDefault_ofNat : numDefault.ofNat = ofNat64 := rfl
@[simp] theorem numDefault_lt : numDefault.lt = lt64 := rfl
@[simp] theorem numDefault_le : numDefault.le = le64 := rfl
@[simp] theorem numDefault_eq : numDefault.eq = eq64 := rfl
@[simp] theorem numDefault_finiteC : numDefault.finiteC = finite64 := rfl
@[simp] theorem numDefault_finiteS : numDefault.finiteS = finite32 := rfl
@[simp] theorem numDefault_aHp : numDefault.aHp = Config.aHp := rfl
@[simp] theorem numDefault_aLp : numDefault.aLp = Config.aLp := rfl

end Sys2Proof.Machine
end

