-- ==== Sys2Proof/Laws/Elementary.lean ====
section
/-! SUPPORT. First facts of `hypot`, `ln` and `exp`: holding a value inside a span is monotone, the word of a place in
the order has that place, and the floor of a value in the words rises with the value. -/

namespace Sys2Proof.Machine

/-- What `within` can answer: a value of the span. -/
theorem within_between {α : Type} [LinearOrder α] {lo hi : α} (x : α) (h : lo ≤ hi) :
    lo ≤ within lo hi x ∧ within lo hi x ≤ hi :=
  ⟨le_max_left _ _, max_le h (min_le_left _ _)⟩

/-- The answer rises with the value and with the ends of the span. -/
theorem within_mono {α : Type} [LinearOrder α] {lo lo' hi hi' x x' : α} (hl : lo ≤ lo') (hh : hi ≤ hi') (hx : x ≤ x') :
    within lo hi x ≤ within lo' hi' x' :=
  max_le_max hl (min_le_min hh hx)

/-- The word of a place in the order has that place, held inside the infinities. -/
theorem key64_wordOfKey (zeroNeg : Bool) (key : Int) :
    key64 (wordOfKey zeroNeg key) = max (-(infCode64 : Int)) (min infCode64 key) := by
  have hi : infCode64 = 0x7FF0000000000000 := rfl
  simp only [key64, wordOfKey, neg64_pack64, code64_pack64]
  split
  · rename_i h
    have : key ≤ 0 := by simp at h; omega
    omega
  · rename_i h
    have : 0 ≤ key := by simp at h; omega
    omega

theorem isNan64_wordOfKey (zeroNeg : Bool) (key : Int) : isNan64 (wordOfKey zeroNeg key) = false :=
  isNan64_pack64 _ _

/-- What `freeWithin` can answer: a word whose place is in the span, as far as the infinities. -/
theorem key64_freeWithin_between (lib : ℕ →o ℕ) {span : Int × Int} (a : F64) (h : span.1 ≤ span.2) :
    min (infCode64 : Int) span.1 ≤ key64 (freeWithin lib span a) ∧
      key64 (freeWithin lib span a) ≤ max (-(infCode64 : Int)) span.2 := by
  have hw := within_between ((lib (rank64 a) : Int) - 2 ^ 63) h
  rw [freeWithin, key64_wordOfKey]
  omega

/-- The answer of a free map held in a span rises with the operand, where the ends of the span do. -/
theorem key64_freeWithin_mono (lib : ℕ →o ℕ) {span span' : Int × Int} {a b : F64} (hl : span.1 ≤ span'.1)
    (hh : span.2 ≤ span'.2) (hk : key64 a ≤ key64 b) :
    key64 (freeWithin lib span a) ≤ key64 (freeWithin lib span' b) := by
  have hr : rank64 a ≤ rank64 b := by unfold rank64; omega
  have hlib : (lib (rank64 a) : Int) - 2 ^ 63 ≤ (lib (rank64 b) : Int) - 2 ^ 63 := by
    have := lib.monotone hr; omega
  have hw := within_mono hl hh hlib
  simp only [freeWithin, key64_wordOfKey]
  omega

/-- On words that are no NaN the comparison is of places in the order. -/
theorem le64_iff {a b : F64} (ha : isNan64 a = false) (hb : isNan64 b = false) :
    le64 a b = true ↔ key64 a ≤ key64 b := by
  simp [le64, ha, hb]

/-- `hypot64` of finite operands, the second not zero: sign plus, and a code of the span. -/
theorem hypot64_of_finite {a b : F64} (ha : finite64 a = true) (hb : finite64 b = true) (h : code64 b ≠ 0) :
    hypot64 a b = pack64 false
      (within (hypotSpan a b).1 (hypotSpan a b).2 (Config.hypotLib (neg64 a) (code64 a, code64 b)).1) := by
  simp [hypot64, ha, hb, h]

/-- `ln64` of a positive finite operand. -/
theorem ln64_of_pos {a : F64} (hf : finite64 a = true) (hn : neg64 a = false) (hc : code64 a ≠ 0) :
    ln64 a = freeWithin Config.lnLib (lnSpan (units64 a)) a := by
  simp [ln64, hf, hn, hc]

/-- `exp64` of a finite operand. -/
theorem exp64_of_finite {a : F64} (hf : finite64 a = true) :
    exp64 a = freeWithin Config.expLib (expSpan (value64 a)) a := by
  simp [exp64, hf]

/-- The floor of a ratio in the words is that of its integer part. -/
theorem floorCode_div (p q : Nat) : floorCode p q = floorCode (p / q) 1 := by
  simp [floorCode, lastPlace, Nat.div_div_eq_div_mul]

/-- The floor in the words rises with the integer part. -/
theorem floorCode_mono {m n : Nat} (h : m ≤ n) : floorCode m 1 ≤ floorCode n 1 := by
  have hlog : Nat.log2 m ≤ Nat.log2 n := by
    simpa only [Nat.log2_eq_log_two] using Nat.log_mono_right h
  obtain ⟨d, hd⟩ : ∃ d, lastPlace 52 n 1 = lastPlace 52 m 1 + d :=
    ⟨_, (Nat.add_sub_cancel' (by simp only [lastPlace, Nat.div_one]; omega)).symm⟩
  simp only [floorCode, one_mul, hd]
  rcases Nat.eq_zero_or_pos d with rfl | hpos
  · exact Nat.add_le_add_left (Nat.div_le_div_right h) _
  · have hm : m / 2 ^ lastPlace 52 m 1 < 2 ^ 53 := by
      rw [Nat.div_lt_iff_lt_mul (by positivity), ← pow_add]
      refine lt_of_lt_of_le Nat.lt_log2_self (Nat.pow_le_pow_right (by decide) ?_)
      simp only [lastPlace, Nat.div_one]; omega
    have hn : 2 ^ 52 ≤ n / 2 ^ (lastPlace 52 m 1 + d) := by
      have hl : 0 < lastPlace 52 n 1 := by omega
      have hn0 : n ≠ 0 := by
        rintro rfl
        simp [lastPlace, show Nat.log2 0 = 0 by decide] at hl
      rw [Nat.le_div_iff_mul_le (by positivity), ← pow_add, ← hd]
      refine le_trans (Nat.pow_le_pow_right (by decide) ?_) (Nat.log2_self_le hn0)
      simp only [lastPlace, Nat.div_one] at hl ⊢; omega
    have : lastPlace 52 m 1 * 2 ^ 52 + 2 ^ 52 ≤ (lastPlace 52 m 1 + d) * 2 ^ 52 := by nlinarith
    omega

end Sys2Proof.Machine
end

