-- ==== Sys2Proof/Laws/State.lean ====
section
/-! SUPPORT. One lemma per field of State per named update, so that no proof unfolds a record update. -/

namespace Sys2Proof.Machine

@[simp] theorem raiseFatal_acc (c : BitVec 2) (s : State) : (raiseFatal c s).acc = s.acc := rfl
@[simp] theorem raiseFatal_frm (c : BitVec 2) (s : State) : (raiseFatal c s).frm = s.frm := rfl
@[simp] theorem raiseFatal_wr (c : BitVec 2) (s : State) : (raiseFatal c s).wr = s.wr := rfl
@[simp] theorem raiseFatal_hpXp (c : BitVec 2) (s : State) : (raiseFatal c s).hpXp = s.hpXp := rfl
@[simp] theorem raiseFatal_hpYp (c : BitVec 2) (s : State) : (raiseFatal c s).hpYp = s.hpYp := rfl
@[simp] theorem raiseFatal_lpY (c : BitVec 2) (s : State) : (raiseFatal c s).lpY = s.lpY := rfl
@[simp] theorem raiseFatal_gain (c : BitVec 2) (s : State) : (raiseFatal c s).gain = s.gain := rfl
@[simp] theorem raiseFatal_calLeft (c : BitVec 2) (s : State) : (raiseFatal c s).calLeft = s.calLeft := rfl
@[simp] theorem raiseFatal_calSum (c : BitVec 2) (s : State) : (raiseFatal c s).calSum = s.calSum := rfl
@[simp] theorem raiseFatal_calCnt (c : BitVec 2) (s : State) : (raiseFatal c s).calCnt = s.calCnt := rfl
@[simp] theorem raiseFatal_nf (c : BitVec 2) (s : State) : (raiseFatal c s).nf = s.nf := rfl
@[simp] theorem raiseFatal_voice (c : BitVec 2) (s : State) : (raiseFatal c s).voice = s.voice := rfl
@[simp] theorem raiseFatal_silCnt (c : BitVec 2) (s : State) : (raiseFatal c s).silCnt = s.silCnt := rfl
@[simp] theorem raiseFatal_seq (c : BitVec 2) (s : State) : (raiseFatal c s).seq = seqHalt := rfl
@[simp] theorem raiseFatal_halted (c : BitVec 2) (s : State) : (raiseFatal c s).halted = true := rfl
@[simp] theorem raiseFatal_cause (c : BitVec 2) (s : State) : (raiseFatal c s).cause = c := rfl
@[simp] theorem raiseFatal_rms (c : BitVec 2) (s : State) : (raiseFatal c s).rms = s.rms := rfl
@[simp] theorem raiseFatal_need (c : BitVec 2) (s : State) : (raiseFatal c s).need = s.need := rfl
@[simp] theorem raiseFatal_zc (c : BitVec 2) (s : State) : (raiseFatal c s).zc = s.zc := rfl
@[simp] theorem raiseFatal_zcr (c : BitVec 2) (s : State) : (raiseFatal c s).zcr = s.zcr := rfl
@[simp] theorem raiseFatal_mag (c : BitVec 2) (s : State) : (raiseFatal c s).mag = s.mag := rfl
@[simp] theorem raiseFatal_gm (c : BitVec 2) (s : State) : (raiseFatal c s).gm = s.gm := rfl
@[simp] theorem raiseFatal_am (c : BitVec 2) (s : State) : (raiseFatal c s).am = s.am := rfl
@[simp] theorem raiseFatal_flat (c : BitVec 2) (s : State) : (raiseFatal c s).flat = s.flat := rfl
@[simp] theorem raiseFatal_thr (c : BitVec 2) (s : State) : (raiseFatal c s).thr = s.thr := rfl
@[simp] theorem raiseFatal_isVoice (c : BitVec 2) (s : State) : (raiseFatal c s).isVoice = s.isVoice := rfl
@[simp] theorem raiseFatal_trans (c : BitVec 2) (s : State) : (raiseFatal c s).trans = s.trans := rfl
@[simp] theorem raiseFatal_rst (c : BitVec 2) (s : State) : (raiseFatal c s).rst = s.rst := rfl
@[simp] theorem raiseFatal_inq (c : BitVec 2) (s : State) : (raiseFatal c s).inq = s.inq := rfl
@[simp] theorem raiseFatal_port (c : BitVec 2) (s : State) : (raiseFatal c s).port = s.port := rfl
@[simp] theorem raiseFatal_sent (c : BitVec 2) (s : State) : (raiseFatal c s).sent = s.sent := rfl

@[simp] theorem storeSample_acc (w : F32) (s : State) : (storeSample w s).acc = bufSet s.acc s.wr w := rfl
@[simp] theorem storeSample_frm (w : F32) (s : State) : (storeSample w s).frm = s.frm := rfl
@[simp] theorem storeSample_wr (w : F32) (s : State) : (storeSample w s).wr = s.wr + 1 := rfl
@[simp] theorem storeSample_hpXp (w : F32) (s : State) : (storeSample w s).hpXp = s.hpXp := rfl
@[simp] theorem storeSample_hpYp (w : F32) (s : State) : (storeSample w s).hpYp = s.hpYp := rfl
@[simp] theorem storeSample_lpY (w : F32) (s : State) : (storeSample w s).lpY = s.lpY := rfl
@[simp] theorem storeSample_gain (w : F32) (s : State) : (storeSample w s).gain = s.gain := rfl
@[simp] theorem storeSample_calLeft (w : F32) (s : State) : (storeSample w s).calLeft = s.calLeft := rfl
@[simp] theorem storeSample_calSum (w : F32) (s : State) : (storeSample w s).calSum = s.calSum := rfl
@[simp] theorem storeSample_calCnt (w : F32) (s : State) : (storeSample w s).calCnt = s.calCnt := rfl
@[simp] theorem storeSample_nf (w : F32) (s : State) : (storeSample w s).nf = s.nf := rfl
@[simp] theorem storeSample_voice (w : F32) (s : State) : (storeSample w s).voice = s.voice := rfl
@[simp] theorem storeSample_silCnt (w : F32) (s : State) : (storeSample w s).silCnt = s.silCnt := rfl
@[simp] theorem storeSample_seq (w : F32) (s : State) : (storeSample w s).seq = if s.wr + 1 = Config.frame then seqHandoff else s.seq := by simp only [storeSample]
@[simp] theorem storeSample_halted (w : F32) (s : State) : (storeSample w s).halted = s.halted := rfl
@[simp] theorem storeSample_cause (w : F32) (s : State) : (storeSample w s).cause = s.cause := rfl
@[simp] theorem storeSample_rms (w : F32) (s : State) : (storeSample w s).rms = s.rms := rfl
@[simp] theorem storeSample_need (w : F32) (s : State) : (storeSample w s).need = s.need := rfl
@[simp] theorem storeSample_zc (w : F32) (s : State) : (storeSample w s).zc = s.zc := rfl
@[simp] theorem storeSample_zcr (w : F32) (s : State) : (storeSample w s).zcr = s.zcr := rfl
@[simp] theorem storeSample_mag (w : F32) (s : State) : (storeSample w s).mag = s.mag := rfl
@[simp] theorem storeSample_gm (w : F32) (s : State) : (storeSample w s).gm = s.gm := rfl
@[simp] theorem storeSample_am (w : F32) (s : State) : (storeSample w s).am = s.am := rfl
@[simp] theorem storeSample_flat (w : F32) (s : State) : (storeSample w s).flat = s.flat := rfl
@[simp] theorem storeSample_thr (w : F32) (s : State) : (storeSample w s).thr = s.thr := rfl
@[simp] theorem storeSample_isVoice (w : F32) (s : State) : (storeSample w s).isVoice = s.isVoice := rfl
@[simp] theorem storeSample_trans (w : F32) (s : State) : (storeSample w s).trans = s.trans := rfl
@[simp] theorem storeSample_rst (w : F32) (s : State) : (storeSample w s).rst = s.rst := rfl
@[simp] theorem storeSample_inq (w : F32) (s : State) : (storeSample w s).inq = s.inq := rfl
@[simp] theorem storeSample_port (w : F32) (s : State) : (storeSample w s).port = s.port := rfl
@[simp] theorem storeSample_sent (w : F32) (s : State) : (storeSample w s).sent = s.sent := rfl

@[simp] theorem doHandoff_acc (s : State) : (doHandoff s).acc = s.acc := rfl
@[simp] theorem doHandoff_frm (s : State) : (doHandoff s).frm = s.acc := rfl
@[simp] theorem doHandoff_wr (s : State) : (doHandoff s).wr = 0 := rfl
@[simp] theorem doHandoff_hpXp (s : State) : (doHandoff s).hpXp = s.hpXp := rfl
@[simp] theorem doHandoff_hpYp (s : State) : (doHandoff s).hpYp = s.hpYp := rfl
@[simp] theorem doHandoff_lpY (s : State) : (doHandoff s).lpY = s.lpY := rfl
@[simp] theorem doHandoff_gain (s : State) : (doHandoff s).gain = s.gain := rfl
@[simp] theorem doHandoff_calLeft (s : State) : (doHandoff s).calLeft = s.calLeft := rfl
@[simp] theorem doHandoff_calSum (s : State) : (doHandoff s).calSum = s.calSum := rfl
@[simp] theorem doHandoff_calCnt (s : State) : (doHandoff s).calCnt = s.calCnt := rfl
@[simp] theorem doHandoff_nf (s : State) : (doHandoff s).nf = s.nf := rfl
@[simp] theorem doHandoff_voice (s : State) : (doHandoff s).voice = s.voice := rfl
@[simp] theorem doHandoff_silCnt (s : State) : (doHandoff s).silCnt = s.silCnt := rfl
@[simp] theorem doHandoff_seq (s : State) : (doHandoff s).seq = seqFilt := rfl
@[simp] theorem doHandoff_halted (s : State) : (doHandoff s).halted = s.halted := rfl
@[simp] theorem doHandoff_cause (s : State) : (doHandoff s).cause = s.cause := rfl
@[simp] theorem doHandoff_rms (s : State) : (doHandoff s).rms = s.rms := rfl
@[simp] theorem doHandoff_need (s : State) : (doHandoff s).need = s.need := rfl
@[simp] theorem doHandoff_zc (s : State) : (doHandoff s).zc = s.zc := rfl
@[simp] theorem doHandoff_zcr (s : State) : (doHandoff s).zcr = s.zcr := rfl
@[simp] theorem doHandoff_mag (s : State) : (doHandoff s).mag = s.mag := rfl
@[simp] theorem doHandoff_gm (s : State) : (doHandoff s).gm = s.gm := rfl
@[simp] theorem doHandoff_am (s : State) : (doHandoff s).am = s.am := rfl
@[simp] theorem doHandoff_flat (s : State) : (doHandoff s).flat = s.flat := rfl
@[simp] theorem doHandoff_thr (s : State) : (doHandoff s).thr = s.thr := rfl
@[simp] theorem doHandoff_isVoice (s : State) : (doHandoff s).isVoice = s.isVoice := rfl
@[simp] theorem doHandoff_trans (s : State) : (doHandoff s).trans = s.trans := rfl
@[simp] theorem doHandoff_rst (s : State) : (doHandoff s).rst = s.rst := rfl
@[simp] theorem doHandoff_inq (s : State) : (doHandoff s).inq = s.inq := rfl
@[simp] theorem doHandoff_port (s : State) : (doHandoff s).port = s.port := rfl
@[simp] theorem doHandoff_sent (s : State) : (doHandoff s).sent = s.sent := rfl

@[simp] theorem doFilt_acc (s : State) : (doFilt s).acc = s.acc := rfl
@[simp] theorem doFilt_frm (s : State) : (doFilt s).frm = filtFrame numDefault (filterStateOf s) s.frm := by simp only [doFilt]
@[simp] theorem doFilt_wr (s : State) : (doFilt s).wr = s.wr := rfl
@[simp] theorem doFilt_hpXp (s : State) : (doFilt s).hpXp = (filtState numDefault (filterStateOf s) s.frm.val).hpXp := by simp only [doFilt]
@[simp] theorem doFilt_hpYp (s : State) : (doFilt s).hpYp = (filtState numDefault (filterStateOf s) s.frm.val).hpYp := by simp only [doFilt]
@[simp] theorem doFilt_lpY (s : State) : (doFilt s).lpY = (filtState numDefault (filterStateOf s) s.frm.val).lpY := by simp only [doFilt]
@[simp] theorem doFilt_gain (s : State) : (doFilt s).gain = s.gain := rfl
@[simp] theorem doFilt_calLeft (s : State) : (doFilt s).calLeft = s.calLeft := rfl
@[simp] theorem doFilt_calSum (s : State) : (doFilt s).calSum = s.calSum := rfl
@[simp] theorem doFilt_calCnt (s : State) : (doFilt s).calCnt = s.calCnt := rfl
@[simp] theorem doFilt_nf (s : State) : (doFilt s).nf = s.nf := rfl
@[simp] theorem doFilt_voice (s : State) : (doFilt s).voice = s.voice := rfl
@[simp] theorem doFilt_silCnt (s : State) : (doFilt s).silCnt = s.silCnt := rfl
@[simp] theorem doFilt_seq (s : State) : (doFilt s).seq = seqRmscalc := rfl
@[simp] theorem doFilt_halted (s : State) : (doFilt s).halted = s.halted := rfl
@[simp] theorem doFilt_cause (s : State) : (doFilt s).cause = s.cause := rfl
@[simp] theorem doFilt_rms (s : State) : (doFilt s).rms = s.rms := rfl
@[simp] theorem doFilt_need (s : State) : (doFilt s).need = s.need := rfl
@[simp] theorem doFilt_zc (s : State) : (doFilt s).zc = s.zc := rfl
@[simp] theorem doFilt_zcr (s : State) : (doFilt s).zcr = s.zcr := rfl
@[simp] theorem doFilt_mag (s : State) : (doFilt s).mag = s.mag := rfl
@[simp] theorem doFilt_gm (s : State) : (doFilt s).gm = s.gm := rfl
@[simp] theorem doFilt_am (s : State) : (doFilt s).am = s.am := rfl
@[simp] theorem doFilt_flat (s : State) : (doFilt s).flat = s.flat := rfl
@[simp] theorem doFilt_thr (s : State) : (doFilt s).thr = s.thr := rfl
@[simp] theorem doFilt_isVoice (s : State) : (doFilt s).isVoice = s.isVoice := rfl
@[simp] theorem doFilt_trans (s : State) : (doFilt s).trans = s.trans := rfl
@[simp] theorem doFilt_rst (s : State) : (doFilt s).rst = s.rst := rfl
@[simp] theorem doFilt_inq (s : State) : (doFilt s).inq = s.inq := rfl
@[simp] theorem doFilt_port (s : State) : (doFilt s).port = s.port := rfl
@[simp] theorem doFilt_sent (s : State) : (doFilt s).sent = s.sent := rfl

@[simp] theorem doRmscalc_acc (s : State) : (doRmscalc s).acc = s.acc := rfl
@[simp] theorem doRmscalc_frm (s : State) : (doRmscalc s).frm = s.frm := rfl
@[simp] theorem doRmscalc_wr (s : State) : (doRmscalc s).wr = s.wr := rfl
@[simp] theorem doRmscalc_hpXp (s : State) : (doRmscalc s).hpXp = s.hpXp := rfl
@[simp] theorem doRmscalc_hpYp (s : State) : (doRmscalc s).hpYp = s.hpYp := rfl
@[simp] theorem doRmscalc_lpY (s : State) : (doRmscalc s).lpY = s.lpY := rfl
@[simp] theorem doRmscalc_gain (s : State) : (doRmscalc s).gain = s.gain := rfl
@[simp] theorem doRmscalc_calLeft (s : State) : (doRmscalc s).calLeft = s.calLeft := rfl
@[simp] theorem doRmscalc_calSum (s : State) : (doRmscalc s).calSum = s.calSum := rfl
@[simp] theorem doRmscalc_calCnt (s : State) : (doRmscalc s).calCnt = s.calCnt := rfl
@[simp] theorem doRmscalc_nf (s : State) : (doRmscalc s).nf = s.nf := rfl
@[simp] theorem doRmscalc_voice (s : State) : (doRmscalc s).voice = s.voice := rfl
@[simp] theorem doRmscalc_silCnt (s : State) : (doRmscalc s).silCnt = s.silCnt := rfl
@[simp] theorem doRmscalc_seq (s : State) : (doRmscalc s).seq = seqGainupd := rfl
@[simp] theorem doRmscalc_halted (s : State) : (doRmscalc s).halted = s.halted := rfl
@[simp] theorem doRmscalc_cause (s : State) : (doRmscalc s).cause = s.cause := rfl
@[simp] theorem doRmscalc_rms (s : State) : (doRmscalc s).rms = rmsOf numDefault s.frm.val := by simp only [doRmscalc]
@[simp] theorem doRmscalc_need (s : State) : (doRmscalc s).need = s.need := rfl
@[simp] theorem doRmscalc_zc (s : State) : (doRmscalc s).zc = s.zc := rfl
@[simp] theorem doRmscalc_zcr (s : State) : (doRmscalc s).zcr = s.zcr := rfl
@[simp] theorem doRmscalc_mag (s : State) : (doRmscalc s).mag = s.mag := rfl
@[simp] theorem doRmscalc_gm (s : State) : (doRmscalc s).gm = s.gm := rfl
@[simp] theorem doRmscalc_am (s : State) : (doRmscalc s).am = s.am := rfl
@[simp] theorem doRmscalc_flat (s : State) : (doRmscalc s).flat = s.flat := rfl
@[simp] theorem doRmscalc_thr (s : State) : (doRmscalc s).thr = s.thr := rfl
@[simp] theorem doRmscalc_isVoice (s : State) : (doRmscalc s).isVoice = s.isVoice := rfl
@[simp] theorem doRmscalc_trans (s : State) : (doRmscalc s).trans = s.trans := rfl
@[simp] theorem doRmscalc_rst (s : State) : (doRmscalc s).rst = s.rst := rfl
@[simp] theorem doRmscalc_inq (s : State) : (doRmscalc s).inq = s.inq := rfl
@[simp] theorem doRmscalc_port (s : State) : (doRmscalc s).port = s.port := rfl
@[simp] theorem doRmscalc_sent (s : State) : (doRmscalc s).sent = s.sent := rfl

@[simp] theorem doGainupd_acc (s : State) : (doGainupd s).acc = s.acc := rfl
@[simp] theorem doGainupd_frm (s : State) : (doGainupd s).frm = s.frm := rfl
@[simp] theorem doGainupd_wr (s : State) : (doGainupd s).wr = s.wr := rfl
@[simp] theorem doGainupd_hpXp (s : State) : (doGainupd s).hpXp = s.hpXp := rfl
@[simp] theorem doGainupd_hpYp (s : State) : (doGainupd s).hpYp = s.hpYp := rfl
@[simp] theorem doGainupd_lpY (s : State) : (doGainupd s).lpY = s.lpY := rfl
@[simp] theorem doGainupd_gain (s : State) : (doGainupd s).gain = gainOf numDefault (needOf numDefault s.rms) s.gain := by simp only [doGainupd]
@[simp] theorem doGainupd_calLeft (s : State) : (doGainupd s).calLeft = s.calLeft := rfl
@[simp] theorem doGainupd_calSum (s : State) : (doGainupd s).calSum = s.calSum := rfl
@[simp] theorem doGainupd_calCnt (s : State) : (doGainupd s).calCnt = s.calCnt := rfl
@[simp] theorem doGainupd_nf (s : State) : (doGainupd s).nf = s.nf := rfl
@[simp] theorem doGainupd_voice (s : State) : (doGainupd s).voice = s.voice := rfl
@[simp] theorem doGainupd_silCnt (s : State) : (doGainupd s).silCnt = s.silCnt := rfl
@[simp] theorem doGainupd_seq (s : State) : (doGainupd s).seq = seqApply := rfl
@[simp] theorem doGainupd_halted (s : State) : (doGainupd s).halted = s.halted := rfl
@[simp] theorem doGainupd_cause (s : State) : (doGainupd s).cause = s.cause := rfl
@[simp] theorem doGainupd_rms (s : State) : (doGainupd s).rms = s.rms := rfl
@[simp] theorem doGainupd_need (s : State) : (doGainupd s).need = needOf numDefault s.rms := by simp only [doGainupd]
@[simp] theorem doGainupd_zc (s : State) : (doGainupd s).zc = s.zc := rfl
@[simp] theorem doGainupd_zcr (s : State) : (doGainupd s).zcr = s.zcr := rfl
@[simp] theorem doGainupd_mag (s : State) : (doGainupd s).mag = s.mag := rfl
@[simp] theorem doGainupd_gm (s : State) : (doGainupd s).gm = s.gm := rfl
@[simp] theorem doGainupd_am (s : State) : (doGainupd s).am = s.am := rfl
@[simp] theorem doGainupd_flat (s : State) : (doGainupd s).flat = s.flat := rfl
@[simp] theorem doGainupd_thr (s : State) : (doGainupd s).thr = s.thr := rfl
@[simp] theorem doGainupd_isVoice (s : State) : (doGainupd s).isVoice = s.isVoice := rfl
@[simp] theorem doGainupd_trans (s : State) : (doGainupd s).trans = s.trans := rfl
@[simp] theorem doGainupd_rst (s : State) : (doGainupd s).rst = s.rst := rfl
@[simp] theorem doGainupd_inq (s : State) : (doGainupd s).inq = s.inq := rfl
@[simp] theorem doGainupd_port (s : State) : (doGainupd s).port = s.port := rfl
@[simp] theorem doGainupd_sent (s : State) : (doGainupd s).sent = s.sent := rfl

@[simp] theorem doApply_acc (s : State) : (doApply s).acc = s.acc := rfl
@[simp] theorem doApply_frm (s : State) : (doApply s).frm = bufMap (applySample numDefault s.gain) s.frm := by simp only [doApply]
@[simp] theorem doApply_wr (s : State) : (doApply s).wr = s.wr := rfl
@[simp] theorem doApply_hpXp (s : State) : (doApply s).hpXp = s.hpXp := rfl
@[simp] theorem doApply_hpYp (s : State) : (doApply s).hpYp = s.hpYp := rfl
@[simp] theorem doApply_lpY (s : State) : (doApply s).lpY = s.lpY := rfl
@[simp] theorem doApply_gain (s : State) : (doApply s).gain = s.gain := rfl
@[simp] theorem doApply_calLeft (s : State) : (doApply s).calLeft = s.calLeft := rfl
@[simp] theorem doApply_calSum (s : State) : (doApply s).calSum = s.calSum := rfl
@[simp] theorem doApply_calCnt (s : State) : (doApply s).calCnt = s.calCnt := rfl
@[simp] theorem doApply_nf (s : State) : (doApply s).nf = s.nf := rfl
@[simp] theorem doApply_voice (s : State) : (doApply s).voice = s.voice := rfl
@[simp] theorem doApply_silCnt (s : State) : (doApply s).silCnt = s.silCnt := rfl
@[simp] theorem doApply_seq (s : State) : (doApply s).seq = seqCal := rfl
@[simp] theorem doApply_halted (s : State) : (doApply s).halted = s.halted := rfl
@[simp] theorem doApply_cause (s : State) : (doApply s).cause = s.cause := rfl
@[simp] theorem doApply_rms (s : State) : (doApply s).rms = s.rms := rfl
@[simp] theorem doApply_need (s : State) : (doApply s).need = s.need := rfl
@[simp] theorem doApply_zc (s : State) : (doApply s).zc = s.zc := rfl
@[simp] theorem doApply_zcr (s : State) : (doApply s).zcr = s.zcr := rfl
@[simp] theorem doApply_mag (s : State) : (doApply s).mag = s.mag := rfl
@[simp] theorem doApply_gm (s : State) : (doApply s).gm = s.gm := rfl
@[simp] theorem doApply_am (s : State) : (doApply s).am = s.am := rfl
@[simp] theorem doApply_flat (s : State) : (doApply s).flat = s.flat := rfl
@[simp] theorem doApply_thr (s : State) : (doApply s).thr = s.thr := rfl
@[simp] theorem doApply_isVoice (s : State) : (doApply s).isVoice = s.isVoice := rfl
@[simp] theorem doApply_trans (s : State) : (doApply s).trans = s.trans := rfl
@[simp] theorem doApply_rst (s : State) : (doApply s).rst = s.rst := rfl
@[simp] theorem doApply_inq (s : State) : (doApply s).inq = s.inq := rfl
@[simp] theorem doApply_port (s : State) : (doApply s).port = s.port := rfl
@[simp] theorem doApply_sent (s : State) : (doApply s).sent = s.sent := rfl

@[simp] theorem doCal_acc (s : State) : (doCal s).acc = s.acc := rfl
@[simp] theorem doCal_frm (s : State) : (doCal s).frm = s.frm := rfl
@[simp] theorem doCal_wr (s : State) : (doCal s).wr = s.wr := rfl
@[simp] theorem doCal_hpXp (s : State) : (doCal s).hpXp = s.hpXp := rfl
@[simp] theorem doCal_hpYp (s : State) : (doCal s).hpYp = s.hpYp := rfl
@[simp] theorem doCal_lpY (s : State) : (doCal s).lpY = s.lpY := rfl
@[simp] theorem doCal_gain (s : State) : (doCal s).gain = s.gain := rfl
@[simp] theorem doCal_calLeft (s : State) : (doCal s).calLeft = (calStep numDefault s.rms (calStateOf s)).calLeft := by simp only [doCal]
@[simp] theorem doCal_calSum (s : State) : (doCal s).calSum = (calStep numDefault s.rms (calStateOf s)).calSum := by simp only [doCal]
@[simp] theorem doCal_calCnt (s : State) : (doCal s).calCnt = (calStep numDefault s.rms (calStateOf s)).calCnt := by simp only [doCal]
@[simp] theorem doCal_nf (s : State) : (doCal s).nf = (calStep numDefault s.rms (calStateOf s)).nf := by simp only [doCal]
@[simp] theorem doCal_voice (s : State) : (doCal s).voice = s.voice := rfl
@[simp] theorem doCal_silCnt (s : State) : (doCal s).silCnt = s.silCnt := rfl
@[simp] theorem doCal_seq (s : State) : (doCal s).seq = seqZcrcalc := rfl
@[simp] theorem doCal_halted (s : State) : (doCal s).halted = s.halted := rfl
@[simp] theorem doCal_cause (s : State) : (doCal s).cause = s.cause := rfl
@[simp] theorem doCal_rms (s : State) : (doCal s).rms = s.rms := rfl
@[simp] theorem doCal_need (s : State) : (doCal s).need = s.need := rfl
@[simp] theorem doCal_zc (s : State) : (doCal s).zc = s.zc := rfl
@[simp] theorem doCal_zcr (s : State) : (doCal s).zcr = s.zcr := rfl
@[simp] theorem doCal_mag (s : State) : (doCal s).mag = s.mag := rfl
@[simp] theorem doCal_gm (s : State) : (doCal s).gm = s.gm := rfl
@[simp] theorem doCal_am (s : State) : (doCal s).am = s.am := rfl
@[simp] theorem doCal_flat (s : State) : (doCal s).flat = s.flat := rfl
@[simp] theorem doCal_thr (s : State) : (doCal s).thr = s.thr := rfl
@[simp] theorem doCal_isVoice (s : State) : (doCal s).isVoice = s.isVoice := rfl
@[simp] theorem doCal_trans (s : State) : (doCal s).trans = s.trans := rfl
@[simp] theorem doCal_rst (s : State) : (doCal s).rst = s.rst := rfl
@[simp] theorem doCal_inq (s : State) : (doCal s).inq = s.inq := rfl
@[simp] theorem doCal_port (s : State) : (doCal s).port = s.port := rfl
@[simp] theorem doCal_sent (s : State) : (doCal s).sent = s.sent := rfl

@[simp] theorem doZcrcalc_acc (s : State) : (doZcrcalc s).acc = s.acc := rfl
@[simp] theorem doZcrcalc_frm (s : State) : (doZcrcalc s).frm = s.frm := rfl
@[simp] theorem doZcrcalc_wr (s : State) : (doZcrcalc s).wr = s.wr := rfl
@[simp] theorem doZcrcalc_hpXp (s : State) : (doZcrcalc s).hpXp = s.hpXp := rfl
@[simp] theorem doZcrcalc_hpYp (s : State) : (doZcrcalc s).hpYp = s.hpYp := rfl
@[simp] theorem doZcrcalc_lpY (s : State) : (doZcrcalc s).lpY = s.lpY := rfl
@[simp] theorem doZcrcalc_gain (s : State) : (doZcrcalc s).gain = s.gain := rfl
@[simp] theorem doZcrcalc_calLeft (s : State) : (doZcrcalc s).calLeft = s.calLeft := rfl
@[simp] theorem doZcrcalc_calSum (s : State) : (doZcrcalc s).calSum = s.calSum := rfl
@[simp] theorem doZcrcalc_calCnt (s : State) : (doZcrcalc s).calCnt = s.calCnt := rfl
@[simp] theorem doZcrcalc_nf (s : State) : (doZcrcalc s).nf = s.nf := rfl
@[simp] theorem doZcrcalc_voice (s : State) : (doZcrcalc s).voice = s.voice := rfl
@[simp] theorem doZcrcalc_silCnt (s : State) : (doZcrcalc s).silCnt = s.silCnt := rfl
@[simp] theorem doZcrcalc_seq (s : State) : (doZcrcalc s).seq = seqDft := rfl
@[simp] theorem doZcrcalc_halted (s : State) : (doZcrcalc s).halted = s.halted := rfl
@[simp] theorem doZcrcalc_cause (s : State) : (doZcrcalc s).cause = s.cause := rfl
@[simp] theorem doZcrcalc_rms (s : State) : (doZcrcalc s).rms = s.rms := rfl
@[simp] theorem doZcrcalc_need (s : State) : (doZcrcalc s).need = s.need := rfl
@[simp] theorem doZcrcalc_zc (s : State) : (doZcrcalc s).zc = signChanges numDefault s.frm.val := by simp only [doZcrcalc]
@[simp] theorem doZcrcalc_zcr (s : State) : (doZcrcalc s).zcr = zcrOf numDefault (signChanges numDefault s.frm.val) := by simp only [doZcrcalc]
@[simp] theorem doZcrcalc_mag (s : State) : (doZcrcalc s).mag = s.mag := rfl
@[simp] theorem doZcrcalc_gm (s : State) : (doZcrcalc s).gm = s.gm := rfl
@[simp] theorem doZcrcalc_am (s : State) : (doZcrcalc s).am = s.am := rfl
@[simp] theorem doZcrcalc_flat (s : State) : (doZcrcalc s).flat = s.flat := rfl
@[simp] theorem doZcrcalc_thr (s : State) : (doZcrcalc s).thr = s.thr := rfl
@[simp] theorem doZcrcalc_isVoice (s : State) : (doZcrcalc s).isVoice = s.isVoice := rfl
@[simp] theorem doZcrcalc_trans (s : State) : (doZcrcalc s).trans = s.trans := rfl
@[simp] theorem doZcrcalc_rst (s : State) : (doZcrcalc s).rst = s.rst := rfl
@[simp] theorem doZcrcalc_inq (s : State) : (doZcrcalc s).inq = s.inq := rfl
@[simp] theorem doZcrcalc_port (s : State) : (doZcrcalc s).port = s.port := rfl
@[simp] theorem doZcrcalc_sent (s : State) : (doZcrcalc s).sent = s.sent := rfl

@[simp] theorem doDft_acc (s : State) : (doDft s).acc = s.acc := rfl
@[simp] theorem doDft_frm (s : State) : (doDft s).frm = s.frm := rfl
@[simp] theorem doDft_wr (s : State) : (doDft s).wr = s.wr := rfl
@[simp] theorem doDft_hpXp (s : State) : (doDft s).hpXp = s.hpXp := rfl
@[simp] theorem doDft_hpYp (s : State) : (doDft s).hpYp = s.hpYp := rfl
@[simp] theorem doDft_lpY (s : State) : (doDft s).lpY = s.lpY := rfl
@[simp] theorem doDft_gain (s : State) : (doDft s).gain = s.gain := rfl
@[simp] theorem doDft_calLeft (s : State) : (doDft s).calLeft = s.calLeft := rfl
@[simp] theorem doDft_calSum (s : State) : (doDft s).calSum = s.calSum := rfl
@[simp] theorem doDft_calCnt (s : State) : (doDft s).calCnt = s.calCnt := rfl
@[simp] theorem doDft_nf (s : State) : (doDft s).nf = s.nf := rfl
@[simp] theorem doDft_voice (s : State) : (doDft s).voice = s.voice := rfl
@[simp] theorem doDft_silCnt (s : State) : (doDft s).silCnt = s.silCnt := rfl
@[simp] theorem doDft_seq (s : State) : (doDft s).seq = seqFlatcalc := rfl
@[simp] theorem doDft_halted (s : State) : (doDft s).halted = s.halted := rfl
@[simp] theorem doDft_cause (s : State) : (doDft s).cause = s.cause := rfl
@[simp] theorem doDft_rms (s : State) : (doDft s).rms = s.rms := rfl
@[simp] theorem doDft_need (s : State) : (doDft s).need = s.need := rfl
@[simp] theorem doDft_zc (s : State) : (doDft s).zc = s.zc := rfl
@[simp] theorem doDft_zcr (s : State) : (doDft s).zcr = s.zcr := rfl
@[simp] theorem doDft_mag (s : State) : (doDft s).mag = spectrum numDefault s.frm.val := by simp only [doDft]
@[simp] theorem doDft_gm (s : State) : (doDft s).gm = s.gm := rfl
@[simp] theorem doDft_am (s : State) : (doDft s).am = s.am := rfl
@[simp] theorem doDft_flat (s : State) : (doDft s).flat = s.flat := rfl
@[simp] theorem doDft_thr (s : State) : (doDft s).thr = s.thr := rfl
@[simp] theorem doDft_isVoice (s : State) : (doDft s).isVoice = s.isVoice := rfl
@[simp] theorem doDft_trans (s : State) : (doDft s).trans = s.trans := rfl
@[simp] theorem doDft_rst (s : State) : (doDft s).rst = s.rst := rfl
@[simp] theorem doDft_inq (s : State) : (doDft s).inq = s.inq := rfl
@[simp] theorem doDft_port (s : State) : (doDft s).port = s.port := rfl
@[simp] theorem doDft_sent (s : State) : (doDft s).sent = s.sent := rfl

@[simp] theorem doFlatcalc_acc (s : State) : (doFlatcalc s).acc = s.acc := rfl
@[simp] theorem doFlatcalc_frm (s : State) : (doFlatcalc s).frm = s.frm := rfl
@[simp] theorem doFlatcalc_wr (s : State) : (doFlatcalc s).wr = s.wr := rfl
@[simp] theorem doFlatcalc_hpXp (s : State) : (doFlatcalc s).hpXp = s.hpXp := rfl
@[simp] theorem doFlatcalc_hpYp (s : State) : (doFlatcalc s).hpYp = s.hpYp := rfl
@[simp] theorem doFlatcalc_lpY (s : State) : (doFlatcalc s).lpY = s.lpY := rfl
@[simp] theorem doFlatcalc_gain (s : State) : (doFlatcalc s).gain = s.gain := rfl
@[simp] theorem doFlatcalc_calLeft (s : State) : (doFlatcalc s).calLeft = s.calLeft := rfl
@[simp] theorem doFlatcalc_calSum (s : State) : (doFlatcalc s).calSum = s.calSum := rfl
@[simp] theorem doFlatcalc_calCnt (s : State) : (doFlatcalc s).calCnt = s.calCnt := rfl
@[simp] theorem doFlatcalc_nf (s : State) : (doFlatcalc s).nf = s.nf := rfl
@[simp] theorem doFlatcalc_voice (s : State) : (doFlatcalc s).voice = s.voice := rfl
@[simp] theorem doFlatcalc_silCnt (s : State) : (doFlatcalc s).silCnt = s.silCnt := rfl
@[simp] theorem doFlatcalc_seq (s : State) : (doFlatcalc s).seq = seqClassify := rfl
@[simp] theorem doFlatcalc_halted (s : State) : (doFlatcalc s).halted = s.halted := rfl
@[simp] theorem doFlatcalc_cause (s : State) : (doFlatcalc s).cause = s.cause := rfl
@[simp] theorem doFlatcalc_rms (s : State) : (doFlatcalc s).rms = s.rms := rfl
@[simp] theorem doFlatcalc_need (s : State) : (doFlatcalc s).need = s.need := rfl
@[simp] theorem doFlatcalc_zc (s : State) : (doFlatcalc s).zc = s.zc := rfl
@[simp] theorem doFlatcalc_zcr (s : State) : (doFlatcalc s).zcr = s.zcr := rfl
@[simp] theorem doFlatcalc_mag (s : State) : (doFlatcalc s).mag = s.mag := rfl
@[simp] theorem doFlatcalc_gm (s : State) : (doFlatcalc s).gm = geoMean numDefault (flatBins s.mag) := by simp only [doFlatcalc]
@[simp] theorem doFlatcalc_am (s : State) : (doFlatcalc s).am = arithMean numDefault (flatBins s.mag) := by simp only [doFlatcalc]
@[simp] theorem doFlatcalc_flat (s : State) : (doFlatcalc s).flat = numDefault.div (geoMean numDefault (flatBins s.mag)) (arithMean numDefault (flatBins s.mag)) := by simp only [doFlatcalc]
@[simp] theorem doFlatcalc_thr (s : State) : (doFlatcalc s).thr = s.thr := rfl
@[simp] theorem doFlatcalc_isVoice (s : State) : (doFlatcalc s).isVoice = s.isVoice := rfl
@[simp] theorem doFlatcalc_trans (s : State) : (doFlatcalc s).trans = s.trans := rfl
@[simp] theorem doFlatcalc_rst (s : State) : (doFlatcalc s).rst = s.rst := rfl
@[simp] theorem doFlatcalc_inq (s : State) : (doFlatcalc s).inq = s.inq := rfl
@[simp] theorem doFlatcalc_port (s : State) : (doFlatcalc s).port = s.port := rfl
@[simp] theorem doFlatcalc_sent (s : State) : (doFlatcalc s).sent = s.sent := rfl

@[simp] theorem doClassify_acc (s : State) : (doClassify s).acc = s.acc := rfl
@[simp] theorem doClassify_frm (s : State) : (doClassify s).frm = s.frm := rfl
@[simp] theorem doClassify_wr (s : State) : (doClassify s).wr = s.wr := rfl
@[simp] theorem doClassify_hpXp (s : State) : (doClassify s).hpXp = s.hpXp := rfl
@[simp] theorem doClassify_hpYp (s : State) : (doClassify s).hpYp = s.hpYp := rfl
@[simp] theorem doClassify_lpY (s : State) : (doClassify s).lpY = s.lpY := rfl
@[simp] theorem doClassify_gain (s : State) : (doClassify s).gain = s.gain := rfl
@[simp] theorem doClassify_calLeft (s : State) : (doClassify s).calLeft = s.calLeft := rfl
@[simp] theorem doClassify_calSum (s : State) : (doClassify s).calSum = s.calSum := rfl
@[simp] theorem doClassify_calCnt (s : State) : (doClassify s).calCnt = s.calCnt := rfl
@[simp] theorem doClassify_nf (s : State) : (doClassify s).nf = s.nf := rfl
@[simp] theorem doClassify_voice (s : State) : (doClassify s).voice = s.voice := rfl
@[simp] theorem doClassify_silCnt (s : State) : (doClassify s).silCnt = s.silCnt := rfl
@[simp] theorem doClassify_seq (s : State) : (doClassify s).seq = seqHyst := rfl
@[simp] theorem doClassify_halted (s : State) : (doClassify s).halted = s.halted := rfl
@[simp] theorem doClassify_cause (s : State) : (doClassify s).cause = s.cause := rfl
@[simp] theorem doClassify_rms (s : State) : (doClassify s).rms = s.rms := rfl
@[simp] theorem doClassify_need (s : State) : (doClassify s).need = s.need := rfl
@[simp] theorem doClassify_zc (s : State) : (doClassify s).zc = s.zc := rfl
@[simp] theorem doClassify_zcr (s : State) : (doClassify s).zcr = s.zcr := rfl
@[simp] theorem doClassify_mag (s : State) : (doClassify s).mag = s.mag := rfl
@[simp] theorem doClassify_gm (s : State) : (doClassify s).gm = s.gm := rfl
@[simp] theorem doClassify_am (s : State) : (doClassify s).am = s.am := rfl
@[simp] theorem doClassify_flat (s : State) : (doClassify s).flat = s.flat := rfl
@[simp] theorem doClassify_thr (s : State) : (doClassify s).thr = thresholdOf numDefault s.nf := by simp only [doClassify]
@[simp] theorem doClassify_isVoice (s : State) : (doClassify s).isVoice = voiceTest numDefault s.rms (thresholdOf numDefault s.nf) (some s.flat) s.zcr := by simp only [doClassify]
@[simp] theorem doClassify_trans (s : State) : (doClassify s).trans = s.trans := rfl
@[simp] theorem doClassify_rst (s : State) : (doClassify s).rst = s.rst := rfl
@[simp] theorem doClassify_inq (s : State) : (doClassify s).inq = s.inq := rfl
@[simp] theorem doClassify_port (s : State) : (doClassify s).port = s.port := rfl
@[simp] theorem doClassify_sent (s : State) : (doClassify s).sent = s.sent := rfl

@[simp] theorem doHyst_acc (s : State) : (doHyst s).acc = s.acc := rfl
@[simp] theorem doHyst_frm (s : State) : (doHyst s).frm = s.frm := rfl
@[simp] theorem doHyst_wr (s : State) : (doHyst s).wr = s.wr := rfl
@[simp] theorem doHyst_hpXp (s : State) : (doHyst s).hpXp = s.hpXp := rfl
@[simp] theorem doHyst_hpYp (s : State) : (doHyst s).hpYp = s.hpYp := rfl
@[simp] theorem doHyst_lpY (s : State) : (doHyst s).lpY = s.lpY := rfl
@[simp] theorem doHyst_gain (s : State) : (doHyst s).gain = s.gain := rfl
@[simp] theorem doHyst_calLeft (s : State) : (doHyst s).calLeft = s.calLeft := rfl
@[simp] theorem doHyst_calSum (s : State) : (doHyst s).calSum = s.calSum := rfl
@[simp] theorem doHyst_calCnt (s : State) : (doHyst s).calCnt = s.calCnt := rfl
@[simp] theorem doHyst_nf (s : State) : (doHyst s).nf = s.nf := rfl
@[simp] theorem doHyst_voice (s : State) : (doHyst s).voice = debounced s.isVoice (silenceRun s.isVoice s.silCnt) := by simp only [doHyst]
@[simp] theorem doHyst_silCnt (s : State) : (doHyst s).silCnt = silenceRun s.isVoice s.silCnt := by simp only [doHyst]
@[simp] theorem doHyst_seq (s : State) : (doHyst s).seq = seqCheck := rfl
@[simp] theorem doHyst_halted (s : State) : (doHyst s).halted = s.halted := rfl
@[simp] theorem doHyst_cause (s : State) : (doHyst s).cause = s.cause := rfl
@[simp] theorem doHyst_rms (s : State) : (doHyst s).rms = s.rms := rfl
@[simp] theorem doHyst_need (s : State) : (doHyst s).need = s.need := rfl
@[simp] theorem doHyst_zc (s : State) : (doHyst s).zc = s.zc := rfl
@[simp] theorem doHyst_zcr (s : State) : (doHyst s).zcr = s.zcr := rfl
@[simp] theorem doHyst_mag (s : State) : (doHyst s).mag = s.mag := rfl
@[simp] theorem doHyst_gm (s : State) : (doHyst s).gm = s.gm := rfl
@[simp] theorem doHyst_am (s : State) : (doHyst s).am = s.am := rfl
@[simp] theorem doHyst_flat (s : State) : (doHyst s).flat = s.flat := rfl
@[simp] theorem doHyst_thr (s : State) : (doHyst s).thr = s.thr := rfl
@[simp] theorem doHyst_isVoice (s : State) : (doHyst s).isVoice = s.isVoice := rfl
@[simp] theorem doHyst_trans (s : State) : (doHyst s).trans = transition (debounced s.isVoice (silenceRun s.isVoice s.silCnt)) s.voice := by simp only [doHyst]
@[simp] theorem doHyst_rst (s : State) : (doHyst s).rst = s.rst := rfl
@[simp] theorem doHyst_inq (s : State) : (doHyst s).inq = s.inq := rfl
@[simp] theorem doHyst_port (s : State) : (doHyst s).port = s.port := rfl
@[simp] theorem doHyst_sent (s : State) : (doHyst s).sent = s.sent := rfl

@[simp] theorem emitMessages_acc (ms : List (Message F32)) (s : State) : (emitMessages ms s).acc = s.acc := rfl
@[simp] theorem emitMessages_frm (ms : List (Message F32)) (s : State) : (emitMessages ms s).frm = s.frm := rfl
@[simp] theorem emitMessages_wr (ms : List (Message F32)) (s : State) : (emitMessages ms s).wr = s.wr := rfl
@[simp] theorem emitMessages_hpXp (ms : List (Message F32)) (s : State) : (emitMessages ms s).hpXp = s.hpXp := rfl
@[simp] theorem emitMessages_hpYp (ms : List (Message F32)) (s : State) : (emitMessages ms s).hpYp = s.hpYp := rfl
@[simp] theorem emitMessages_lpY (ms : List (Message F32)) (s : State) : (emitMessages ms s).lpY = s.lpY := rfl
@[simp] theorem emitMessages_gain (ms : List (Message F32)) (s : State) : (emitMessages ms s).gain = s.gain := rfl
@[simp] theorem emitMessages_calLeft (ms : List (Message F32)) (s : State) : (emitMessages ms s).calLeft = s.calLeft := rfl
@[simp] theorem emitMessages_calSum (ms : List (Message F32)) (s : State) : (emitMessages ms s).calSum = s.calSum := rfl
@[simp] theorem emitMessages_calCnt (ms : List (Message F32)) (s : State) : (emitMessages ms s).calCnt = s.calCnt := rfl
@[simp] theorem emitMessages_nf (ms : List (Message F32)) (s : State) : (emitMessages ms s).nf = s.nf := rfl
@[simp] theorem emitMessages_voice (ms : List (Message F32)) (s : State) : (emitMessages ms s).voice = s.voice := rfl
@[simp] theorem emitMessages_silCnt (ms : List (Message F32)) (s : State) : (emitMessages ms s).silCnt = s.silCnt := rfl
@[simp] theorem emitMessages_seq (ms : List (Message F32)) (s : State) : (emitMessages ms s).seq = s.seq := rfl
@[simp] theorem emitMessages_halted (ms : List (Message F32)) (s : State) : (emitMessages ms s).halted = s.halted := rfl
@[simp] theorem emitMessages_cause (ms : List (Message F32)) (s : State) : (emitMessages ms s).cause = s.cause := rfl
@[simp] theorem emitMessages_rms (ms : List (Message F32)) (s : State) : (emitMessages ms s).rms = s.rms := rfl
@[simp] theorem emitMessages_need (ms : List (Message F32)) (s : State) : (emitMessages ms s).need = s.need := rfl
@[simp] theorem emitMessages_zc (ms : List (Message F32)) (s : State) : (emitMessages ms s).zc = s.zc := rfl
@[simp] theorem emitMessages_zcr (ms : List (Message F32)) (s : State) : (emitMessages ms s).zcr = s.zcr := rfl
@[simp] theorem emitMessages_mag (ms : List (Message F32)) (s : State) : (emitMessages ms s).mag = s.mag := rfl
@[simp] theorem emitMessages_gm (ms : List (Message F32)) (s : State) : (emitMessages ms s).gm = s.gm := rfl
@[simp] theorem emitMessages_am (ms : List (Message F32)) (s : State) : (emitMessages ms s).am = s.am := rfl
@[simp] theorem emitMessages_flat (ms : List (Message F32)) (s : State) : (emitMessages ms s).flat = s.flat := rfl
@[simp] theorem emitMessages_thr (ms : List (Message F32)) (s : State) : (emitMessages ms s).thr = s.thr := rfl
@[simp] theorem emitMessages_isVoice (ms : List (Message F32)) (s : State) : (emitMessages ms s).isVoice = s.isVoice := rfl
@[simp] theorem emitMessages_trans (ms : List (Message F32)) (s : State) : (emitMessages ms s).trans = s.trans := rfl
@[simp] theorem emitMessages_rst (ms : List (Message F32)) (s : State) : (emitMessages ms s).rst = s.rst := rfl
@[simp] theorem emitMessages_inq (ms : List (Message F32)) (s : State) : (emitMessages ms s).inq = s.inq := rfl
@[simp] theorem emitMessages_port (ms : List (Message F32)) (s : State) : (emitMessages ms s).port = s.port ++ messagesBeats ms := by simp only [emitMessages]
@[simp] theorem emitMessages_sent (ms : List (Message F32)) (s : State) : (emitMessages ms s).sent = s.sent := rfl

@[simp] theorem doEmit_acc (s : State) : (doEmit s).acc = s.acc := rfl
@[simp] theorem doEmit_frm (s : State) : (doEmit s).frm = s.frm := rfl
@[simp] theorem doEmit_wr (s : State) : (doEmit s).wr = s.wr := rfl
@[simp] theorem doEmit_hpXp (s : State) : (doEmit s).hpXp = s.hpXp := rfl
@[simp] theorem doEmit_hpYp (s : State) : (doEmit s).hpYp = s.hpYp := rfl
@[simp] theorem doEmit_lpY (s : State) : (doEmit s).lpY = s.lpY := rfl
@[simp] theorem doEmit_gain (s : State) : (doEmit s).gain = s.gain := rfl
@[simp] theorem doEmit_calLeft (s : State) : (doEmit s).calLeft = s.calLeft := rfl
@[simp] theorem doEmit_calSum (s : State) : (doEmit s).calSum = s.calSum := rfl
@[simp] theorem doEmit_calCnt (s : State) : (doEmit s).calCnt = s.calCnt := rfl
@[simp] theorem doEmit_nf (s : State) : (doEmit s).nf = s.nf := rfl
@[simp] theorem doEmit_voice (s : State) : (doEmit s).voice = s.voice := rfl
@[simp] theorem doEmit_silCnt (s : State) : (doEmit s).silCnt = s.silCnt := rfl
@[simp] theorem doEmit_seq (s : State) : (doEmit s).seq = seqAccum := rfl
@[simp] theorem doEmit_halted (s : State) : (doEmit s).halted = s.halted := rfl
@[simp] theorem doEmit_cause (s : State) : (doEmit s).cause = s.cause := rfl
@[simp] theorem doEmit_rms (s : State) : (doEmit s).rms = s.rms := rfl
@[simp] theorem doEmit_need (s : State) : (doEmit s).need = s.need := rfl
@[simp] theorem doEmit_zc (s : State) : (doEmit s).zc = s.zc := rfl
@[simp] theorem doEmit_zcr (s : State) : (doEmit s).zcr = s.zcr := rfl
@[simp] theorem doEmit_mag (s : State) : (doEmit s).mag = s.mag := rfl
@[simp] theorem doEmit_gm (s : State) : (doEmit s).gm = s.gm := rfl
@[simp] theorem doEmit_am (s : State) : (doEmit s).am = s.am := rfl
@[simp] theorem doEmit_flat (s : State) : (doEmit s).flat = s.flat := rfl
@[simp] theorem doEmit_thr (s : State) : (doEmit s).thr = s.thr := rfl
@[simp] theorem doEmit_isVoice (s : State) : (doEmit s).isVoice = s.isVoice := rfl
@[simp] theorem doEmit_trans (s : State) : (doEmit s).trans = s.trans := rfl
@[simp] theorem doEmit_rst (s : State) : (doEmit s).rst = s.rst := rfl
@[simp] theorem doEmit_inq (s : State) : (doEmit s).inq = s.inq := rfl
@[simp] theorem doEmit_port (s : State) : (doEmit s).port = s.port ++ messagesBeats (frameMessages s.frm s.trans s.voice) := by simp only [doEmit, emitMessages]
@[simp] theorem doEmit_sent (s : State) : (doEmit s).sent = s.sent := rfl

@[simp] theorem driveBeat_acc (b : Beat) (s : State) : (driveBeat b s).acc = s.acc := rfl
@[simp] theorem driveBeat_frm (b : Beat) (s : State) : (driveBeat b s).frm = s.frm := rfl
@[simp] theorem driveBeat_wr (b : Beat) (s : State) : (driveBeat b s).wr = s.wr := rfl
@[simp] theorem driveBeat_hpXp (b : Beat) (s : State) : (driveBeat b s).hpXp = s.hpXp := rfl
@[simp] theorem driveBeat_hpYp (b : Beat) (s : State) : (driveBeat b s).hpYp = s.hpYp := rfl
@[simp] theorem driveBeat_lpY (b : Beat) (s : State) : (driveBeat b s).lpY = s.lpY := rfl
@[simp] theorem driveBeat_gain (b : Beat) (s : State) : (driveBeat b s).gain = s.gain := rfl
@[simp] theorem driveBeat_calLeft (b : Beat) (s : State) : (driveBeat b s).calLeft = s.calLeft := rfl
@[simp] theorem driveBeat_calSum (b : Beat) (s : State) : (driveBeat b s).calSum = s.calSum := rfl
@[simp] theorem driveBeat_calCnt (b : Beat) (s : State) : (driveBeat b s).calCnt = s.calCnt := rfl
@[simp] theorem driveBeat_nf (b : Beat) (s : State) : (driveBeat b s).nf = s.nf := rfl
@[simp] theorem driveBeat_voice (b : Beat) (s : State) : (driveBeat b s).voice = s.voice := rfl
@[simp] theorem driveBeat_silCnt (b : Beat) (s : State) : (driveBeat b s).silCnt = s.silCnt := rfl
@[simp] theorem driveBeat_seq (b : Beat) (s : State) : (driveBeat b s).seq = s.seq := rfl
@[simp] theorem driveBeat_halted (b : Beat) (s : State) : (driveBeat b s).halted = s.halted := rfl
@[simp] theorem driveBeat_cause (b : Beat) (s : State) : (driveBeat b s).cause = s.cause := rfl
@[simp] theorem driveBeat_rms (b : Beat) (s : State) : (driveBeat b s).rms = s.rms := rfl
@[simp] theorem driveBeat_need (b : Beat) (s : State) : (driveBeat b s).need = s.need := rfl
@[simp] theorem driveBeat_zc (b : Beat) (s : State) : (driveBeat b s).zc = s.zc := rfl
@[simp] theorem driveBeat_zcr (b : Beat) (s : State) : (driveBeat b s).zcr = s.zcr := rfl
@[simp] theorem driveBeat_mag (b : Beat) (s : State) : (driveBeat b s).mag = s.mag := rfl
@[simp] theorem driveBeat_gm (b : Beat) (s : State) : (driveBeat b s).gm = s.gm := rfl
@[simp] theorem driveBeat_am (b : Beat) (s : State) : (driveBeat b s).am = s.am := rfl
@[simp] theorem driveBeat_flat (b : Beat) (s : State) : (driveBeat b s).flat = s.flat := rfl
@[simp] theorem driveBeat_thr (b : Beat) (s : State) : (driveBeat b s).thr = s.thr := rfl
@[simp] theorem driveBeat_isVoice (b : Beat) (s : State) : (driveBeat b s).isVoice = s.isVoice := rfl
@[simp] theorem driveBeat_trans (b : Beat) (s : State) : (driveBeat b s).trans = s.trans := rfl
@[simp] theorem driveBeat_rst (b : Beat) (s : State) : (driveBeat b s).rst = s.rst := rfl
@[simp] theorem driveBeat_inq (b : Beat) (s : State) : (driveBeat b s).inq = s.inq := rfl
@[simp] theorem driveBeat_port (b : Beat) (s : State) : (driveBeat b s).port = s.port := rfl
@[simp] theorem driveBeat_sent (b : Beat) (s : State) : (driveBeat b s).sent = s.sent ++ [b] := rfl

@[simp] theorem offer_acc (block : List F32) (s : State) : (offer block s).acc = s.acc := rfl
@[simp] theorem offer_frm (block : List F32) (s : State) : (offer block s).frm = s.frm := rfl
@[simp] theorem offer_wr (block : List F32) (s : State) : (offer block s).wr = s.wr := rfl
@[simp] theorem offer_hpXp (block : List F32) (s : State) : (offer block s).hpXp = s.hpXp := rfl
@[simp] theorem offer_hpYp (block : List F32) (s : State) : (offer block s).hpYp = s.hpYp := rfl
@[simp] theorem offer_lpY (block : List F32) (s : State) : (offer block s).lpY = s.lpY := rfl
@[simp] theorem offer_gain (block : List F32) (s : State) : (offer block s).gain = s.gain := rfl
@[simp] theorem offer_calLeft (block : List F32) (s : State) : (offer block s).calLeft = s.calLeft := rfl
@[simp] theorem offer_calSum (block : List F32) (s : State) : (offer block s).calSum = s.calSum := rfl
@[simp] theorem offer_calCnt (block : List F32) (s : State) : (offer block s).calCnt = s.calCnt := rfl
@[simp] theorem offer_nf (block : List F32) (s : State) : (offer block s).nf = s.nf := rfl
@[simp] theorem offer_voice (block : List F32) (s : State) : (offer block s).voice = s.voice := rfl
@[simp] theorem offer_silCnt (block : List F32) (s : State) : (offer block s).silCnt = s.silCnt := rfl
@[simp] theorem offer_seq (block : List F32) (s : State) : (offer block s).seq = s.seq := rfl
@[simp] theorem offer_halted (block : List F32) (s : State) : (offer block s).halted = s.halted := rfl
@[simp] theorem offer_cause (block : List F32) (s : State) : (offer block s).cause = s.cause := rfl
@[simp] theorem offer_rms (block : List F32) (s : State) : (offer block s).rms = s.rms := rfl
@[simp] theorem offer_need (block : List F32) (s : State) : (offer block s).need = s.need := rfl
@[simp] theorem offer_zc (block : List F32) (s : State) : (offer block s).zc = s.zc := rfl
@[simp] theorem offer_zcr (block : List F32) (s : State) : (offer block s).zcr = s.zcr := rfl
@[simp] theorem offer_mag (block : List F32) (s : State) : (offer block s).mag = s.mag := rfl
@[simp] theorem offer_gm (block : List F32) (s : State) : (offer block s).gm = s.gm := rfl
@[simp] theorem offer_am (block : List F32) (s : State) : (offer block s).am = s.am := rfl
@[simp] theorem offer_flat (block : List F32) (s : State) : (offer block s).flat = s.flat := rfl
@[simp] theorem offer_thr (block : List F32) (s : State) : (offer block s).thr = s.thr := rfl
@[simp] theorem offer_isVoice (block : List F32) (s : State) : (offer block s).isVoice = s.isVoice := rfl
@[simp] theorem offer_trans (block : List F32) (s : State) : (offer block s).trans = s.trans := rfl
@[simp] theorem offer_rst (block : List F32) (s : State) : (offer block s).rst = s.rst := rfl
@[simp] theorem offer_inq (block : List F32) (s : State) : (offer block s).inq = s.inq ++ block := rfl
@[simp] theorem offer_port (block : List F32) (s : State) : (offer block s).port = s.port := rfl
@[simp] theorem offer_sent (block : List F32) (s : State) : (offer block s).sent = s.sent := rfl

@[simp] theorem assertReset_acc (s : State) : (assertReset s).acc = s.acc := rfl
@[simp] theorem assertReset_frm (s : State) : (assertReset s).frm = s.frm := rfl
@[simp] theorem assertReset_wr (s : State) : (assertReset s).wr = s.wr := rfl
@[simp] theorem assertReset_hpXp (s : State) : (assertReset s).hpXp = s.hpXp := rfl
@[simp] theorem assertReset_hpYp (s : State) : (assertReset s).hpYp = s.hpYp := rfl
@[simp] theorem assertReset_lpY (s : State) : (assertReset s).lpY = s.lpY := rfl
@[simp] theorem assertReset_gain (s : State) : (assertReset s).gain = s.gain := rfl
@[simp] theorem assertReset_calLeft (s : State) : (assertReset s).calLeft = s.calLeft := rfl
@[simp] theorem assertReset_calSum (s : State) : (assertReset s).calSum = s.calSum := rfl
@[simp] theorem assertReset_calCnt (s : State) : (assertReset s).calCnt = s.calCnt := rfl
@[simp] theorem assertReset_nf (s : State) : (assertReset s).nf = s.nf := rfl
@[simp] theorem assertReset_voice (s : State) : (assertReset s).voice = s.voice := rfl
@[simp] theorem assertReset_silCnt (s : State) : (assertReset s).silCnt = s.silCnt := rfl
@[simp] theorem assertReset_seq (s : State) : (assertReset s).seq = s.seq := rfl
@[simp] theorem assertReset_halted (s : State) : (assertReset s).halted = s.halted := rfl
@[simp] theorem assertReset_cause (s : State) : (assertReset s).cause = s.cause := rfl
@[simp] theorem assertReset_rms (s : State) : (assertReset s).rms = s.rms := rfl
@[simp] theorem assertReset_need (s : State) : (assertReset s).need = s.need := rfl
@[simp] theorem assertReset_zc (s : State) : (assertReset s).zc = s.zc := rfl
@[simp] theorem assertReset_zcr (s : State) : (assertReset s).zcr = s.zcr := rfl
@[simp] theorem assertReset_mag (s : State) : (assertReset s).mag = s.mag := rfl
@[simp] theorem assertReset_gm (s : State) : (assertReset s).gm = s.gm := rfl
@[simp] theorem assertReset_am (s : State) : (assertReset s).am = s.am := rfl
@[simp] theorem assertReset_flat (s : State) : (assertReset s).flat = s.flat := rfl
@[simp] theorem assertReset_thr (s : State) : (assertReset s).thr = s.thr := rfl
@[simp] theorem assertReset_isVoice (s : State) : (assertReset s).isVoice = s.isVoice := rfl
@[simp] theorem assertReset_trans (s : State) : (assertReset s).trans = s.trans := rfl
@[simp] theorem assertReset_rst (s : State) : (assertReset s).rst = true := rfl
@[simp] theorem assertReset_inq (s : State) : (assertReset s).inq = s.inq := rfl
@[simp] theorem assertReset_port (s : State) : (assertReset s).port = s.port := rfl
@[simp] theorem assertReset_sent (s : State) : (assertReset s).sent = s.sent := rfl

@[simp] theorem clearFetch_acc (s : State) : (clearFetch s).acc = s.acc := rfl
@[simp] theorem clearFetch_frm (s : State) : (clearFetch s).frm = s.frm := rfl
@[simp] theorem clearFetch_wr (s : State) : (clearFetch s).wr = s.wr := rfl
@[simp] theorem clearFetch_hpXp (s : State) : (clearFetch s).hpXp = s.hpXp := rfl
@[simp] theorem clearFetch_hpYp (s : State) : (clearFetch s).hpYp = s.hpYp := rfl
@[simp] theorem clearFetch_lpY (s : State) : (clearFetch s).lpY = s.lpY := rfl
@[simp] theorem clearFetch_gain (s : State) : (clearFetch s).gain = s.gain := rfl
@[simp] theorem clearFetch_calLeft (s : State) : (clearFetch s).calLeft = s.calLeft := rfl
@[simp] theorem clearFetch_calSum (s : State) : (clearFetch s).calSum = s.calSum := rfl
@[simp] theorem clearFetch_calCnt (s : State) : (clearFetch s).calCnt = s.calCnt := rfl
@[simp] theorem clearFetch_nf (s : State) : (clearFetch s).nf = s.nf := rfl
@[simp] theorem clearFetch_voice (s : State) : (clearFetch s).voice = s.voice := rfl
@[simp] theorem clearFetch_silCnt (s : State) : (clearFetch s).silCnt = s.silCnt := rfl
@[simp] theorem clearFetch_seq (s : State) : (clearFetch s).seq = s.seq := rfl
@[simp] theorem clearFetch_halted (s : State) : (clearFetch s).halted = false := rfl
@[simp] theorem clearFetch_cause (s : State) : (clearFetch s).cause = 0#2 := rfl
@[simp] theorem clearFetch_rms (s : State) : (clearFetch s).rms = s.rms := rfl
@[simp] theorem clearFetch_need (s : State) : (clearFetch s).need = s.need := rfl
@[simp] theorem clearFetch_zc (s : State) : (clearFetch s).zc = s.zc := rfl
@[simp] theorem clearFetch_zcr (s : State) : (clearFetch s).zcr = s.zcr := rfl
@[simp] theorem clearFetch_mag (s : State) : (clearFetch s).mag = s.mag := rfl
@[simp] theorem clearFetch_gm (s : State) : (clearFetch s).gm = s.gm := rfl
@[simp] theorem clearFetch_am (s : State) : (clearFetch s).am = s.am := rfl
@[simp] theorem clearFetch_flat (s : State) : (clearFetch s).flat = s.flat := rfl
@[simp] theorem clearFetch_thr (s : State) : (clearFetch s).thr = s.thr := rfl
@[simp] theorem clearFetch_isVoice (s : State) : (clearFetch s).isVoice = s.isVoice := rfl
@[simp] theorem clearFetch_trans (s : State) : (clearFetch s).trans = s.trans := rfl
@[simp] theorem clearFetch_rst (s : State) : (clearFetch s).rst = false := rfl
@[simp] theorem clearFetch_inq (s : State) : (clearFetch s).inq = s.inq := rfl
@[simp] theorem clearFetch_port (s : State) : (clearFetch s).port = [] := rfl
@[simp] theorem clearFetch_sent (s : State) : (clearFetch s).sent = s.sent := rfl


@[simp] theorem doReset_acc (s : State) : (doReset s).acc = State.reset.acc := rfl
@[simp] theorem doReset_frm (s : State) : (doReset s).frm = State.reset.frm := rfl
@[simp] theorem doReset_wr (s : State) : (doReset s).wr = State.reset.wr := rfl
@[simp] theorem doReset_hpXp (s : State) : (doReset s).hpXp = State.reset.hpXp := rfl
@[simp] theorem doReset_hpYp (s : State) : (doReset s).hpYp = State.reset.hpYp := rfl
@[simp] theorem doReset_lpY (s : State) : (doReset s).lpY = State.reset.lpY := rfl
@[simp] theorem doReset_gain (s : State) : (doReset s).gain = State.reset.gain := rfl
@[simp] theorem doReset_calLeft (s : State) : (doReset s).calLeft = State.reset.calLeft := rfl
@[simp] theorem doReset_calSum (s : State) : (doReset s).calSum = State.reset.calSum := rfl
@[simp] theorem doReset_calCnt (s : State) : (doReset s).calCnt = State.reset.calCnt := rfl
@[simp] theorem doReset_nf (s : State) : (doReset s).nf = State.reset.nf := rfl
@[simp] theorem doReset_voice (s : State) : (doReset s).voice = State.reset.voice := rfl
@[simp] theorem doReset_silCnt (s : State) : (doReset s).silCnt = State.reset.silCnt := rfl
@[simp] theorem doReset_seq (s : State) : (doReset s).seq = State.reset.seq := rfl
@[simp] theorem doReset_halted (s : State) : (doReset s).halted = State.reset.halted := rfl
@[simp] theorem doReset_cause (s : State) : (doReset s).cause = State.reset.cause := rfl
@[simp] theorem doReset_rms (s : State) : (doReset s).rms = State.reset.rms := rfl
@[simp] theorem doReset_need (s : State) : (doReset s).need = State.reset.need := rfl
@[simp] theorem doReset_zc (s : State) : (doReset s).zc = State.reset.zc := rfl
@[simp] theorem doReset_zcr (s : State) : (doReset s).zcr = State.reset.zcr := rfl
@[simp] theorem doReset_mag (s : State) : (doReset s).mag = State.reset.mag := rfl
@[simp] theorem doReset_gm (s : State) : (doReset s).gm = State.reset.gm := rfl
@[simp] theorem doReset_am (s : State) : (doReset s).am = State.reset.am := rfl
@[simp] theorem doReset_flat (s : State) : (doReset s).flat = State.reset.flat := rfl
@[simp] theorem doReset_thr (s : State) : (doReset s).thr = State.reset.thr := rfl
@[simp] theorem doReset_isVoice (s : State) : (doReset s).isVoice = State.reset.isVoice := rfl
@[simp] theorem doReset_trans (s : State) : (doReset s).trans = State.reset.trans := rfl
@[simp] theorem doReset_rst (s : State) : (doReset s).rst = s.rst := rfl
@[simp] theorem doReset_inq (s : State) : (doReset s).inq = s.inq := rfl
@[simp] theorem doReset_port (s : State) : (doReset s).port = State.reset.port := rfl
@[simp] theorem doReset_sent (s : State) : (doReset s).sent = s.sent := rfl

@[simp] theorem doCheck_acc (s : State) : (doCheck s).acc = s.acc := by unfold doCheck; split <;> rfl
@[simp] theorem doCheck_frm (s : State) : (doCheck s).frm = s.frm := by unfold doCheck; split <;> rfl
@[simp] theorem doCheck_wr (s : State) : (doCheck s).wr = s.wr := by unfold doCheck; split <;> rfl
@[simp] theorem doCheck_hpXp (s : State) : (doCheck s).hpXp = s.hpXp := by unfold doCheck; split <;> rfl
@[simp] theorem doCheck_hpYp (s : State) : (doCheck s).hpYp = s.hpYp := by unfold doCheck; split <;> rfl
@[simp] theorem doCheck_lpY (s : State) : (doCheck s).lpY = s.lpY := by unfold doCheck; split <;> rfl
@[simp] theorem doCheck_gain (s : State) : (doCheck s).gain = s.gain := by unfold doCheck; split <;> rfl
@[simp] theorem doCheck_calLeft (s : State) : (doCheck s).calLeft = s.calLeft := by unfold doCheck; split <;> rfl
@[simp] theorem doCheck_calSum (s : State) : (doCheck s).calSum = s.calSum := by unfold doCheck; split <;> rfl
@[simp] theorem doCheck_calCnt (s : State) : (doCheck s).calCnt = s.calCnt := by unfold doCheck; split <;> rfl
@[simp] theorem doCheck_nf (s : State) : (doCheck s).nf = s.nf := by unfold doCheck; split <;> rfl
@[simp] theorem doCheck_voice (s : State) : (doCheck s).voice = s.voice := by unfold doCheck; split <;> rfl
@[simp] theorem doCheck_silCnt (s : State) : (doCheck s).silCnt = s.silCnt := by unfold doCheck; split <;> rfl
@[simp] theorem doCheck_rms (s : State) : (doCheck s).rms = s.rms := by unfold doCheck; split <;> rfl
@[simp] theorem doCheck_need (s : State) : (doCheck s).need = s.need := by unfold doCheck; split <;> rfl
@[simp] theorem doCheck_zc (s : State) : (doCheck s).zc = s.zc := by unfold doCheck; split <;> rfl
@[simp] theorem doCheck_zcr (s : State) : (doCheck s).zcr = s.zcr := by unfold doCheck; split <;> rfl
@[simp] theorem doCheck_mag (s : State) : (doCheck s).mag = s.mag := by unfold doCheck; split <;> rfl
@[simp] theorem doCheck_gm (s : State) : (doCheck s).gm = s.gm := by unfold doCheck; split <;> rfl
@[simp] theorem doCheck_am (s : State) : (doCheck s).am = s.am := by unfold doCheck; split <;> rfl
@[simp] theorem doCheck_flat (s : State) : (doCheck s).flat = s.flat := by unfold doCheck; split <;> rfl
@[simp] theorem doCheck_thr (s : State) : (doCheck s).thr = s.thr := by unfold doCheck; split <;> rfl
@[simp] theorem doCheck_isVoice (s : State) : (doCheck s).isVoice = s.isVoice := by unfold doCheck; split <;> rfl
@[simp] theorem doCheck_trans (s : State) : (doCheck s).trans = s.trans := by unfold doCheck; split <;> rfl
@[simp] theorem doCheck_rst (s : State) : (doCheck s).rst = s.rst := by unfold doCheck; split <;> rfl
@[simp] theorem doCheck_inq (s : State) : (doCheck s).inq = s.inq := by unfold doCheck; split <;> rfl
@[simp] theorem doCheck_port (s : State) : (doCheck s).port = s.port := by unfold doCheck; split <;> rfl
@[simp] theorem doCheck_sent (s : State) : (doCheck s).sent = s.sent := by unfold doCheck; split <;> rfl

@[simp] theorem doCheck_halted (s : State) : (doCheck s).halted = (!checkedFinite s || s.halted) := by
  unfold doCheck; split <;> simp_all
@[simp] theorem doCheck_seq (s : State) : (doCheck s).seq = if checkedFinite s then seqEmit else seqHalt := by
  unfold doCheck; split <;> rfl
@[simp] theorem doCheck_cause (s : State) : (doCheck s).cause = if checkedFinite s then s.cause else causeNonfiniteStateCode := by
  unfold doCheck; split <;> rfl

end Sys2Proof.Machine
end

