-- ==== Sys2Proof/Laws/Ops.lean ====
section
/-! SUPPORT. What each shared operation can do, said once. -/

namespace Sys2Proof.Machine

/-! The guards of execution. -/

theorem whenRunning_of_running {f : State → State} {s : State} (h : s.halted = false) :
    whenRunning f s = .next (f s) := by simp [whenRunning, h]

theorem whenRunning_of_halted {f : State → State} {s : State} (h : s.halted = true) :
    whenRunning f s = .next s := by simp [whenRunning, h]

/-- A guarded operation always answers a next state: the state itself when halted, else its effect. -/
theorem whenRunning_next {f : State → State} {s t : State} (h : whenRunning f s = .next t) :
    (s.halted = true ∧ t = s) ∨ (s.halted = false ∧ t = f s) := by
  unfold whenRunning at h
  split at h
  · exact .inl ⟨by assumption, by simpa using h.symm⟩
  · rename_i hh
    exact .inr ⟨by simpa using hh, by simpa using h.symm⟩

theorem whenRunning_id (s : State) : whenRunning id s = .next s := by
  unfold whenRunning; split <;> rfl

theorem whenAccepted_of_ready {f : State → State} {s : State} (h : inReady s = true) :
    whenAccepted f s = .next (f s) := by simp [whenAccepted, h]

theorem whenAccepted_of_not_ready {f : State → State} {s : State} (h : inReady s = false) :
    whenAccepted f s = .next s := by simp [whenAccepted, h]

/-- An offered word is accepted exactly when `in_ready` is 1. -/
theorem whenAccepted_next {f : State → State} {s t : State} (h : whenAccepted f s = .next t) :
    (inReady s = false ∧ t = s) ∨ (inReady s = true ∧ t = f s) := by
  unfold whenAccepted at h
  split at h
  · exact .inr ⟨by assumption, by simpa using h.symm⟩
  · rename_i hh
    exact .inl ⟨by simpa using hh, by simpa using h.symm⟩

theorem inReady_iff (s : State) :
    inReady s = true ↔ s.rst = false ∧ s.halted = false ∧ s.seq = seqAccum ∧ s.port = [] := by
  simp [inReady, List.isEmpty_iff, and_assoc]

theorem inReady_of_quiescent {s : State} (h : Quiescent s) : inReady s = true := (inReady_iff s).2 h

/-! The fetch: one lemma per place. -/

theorem fetch_of_rst {s : State} (h : s.rst = true) :
    fetch s = { fmt := .pin, bits := 1, rest := { s with rst := false } } := by simp [fetch, h]

theorem fetch_of_halted {s : State} (h : s.rst = false) (hh : s.halted = true) :
    fetch s = { fmt := .seq, bits := 15, rest := s } := by simp [fetch, h, hh]

theorem fetch_of_port {s : State} {b : Beat} {bs : List Beat} (h : s.rst = false) (hh : s.halted = false)
    (hp : s.port = b :: bs) : fetch s = { fmt := .out, bits := b.toNat, rest := { s with port := bs } } := by
  simp [fetch, h, hh, hp]

theorem fetch_of_word {s : State} {w : F32} {ws : List F32} (h : Quiescent s) (hq : s.inq = w :: ws) :
    fetch s = { fmt := .inp, bits := w.toNat, rest := { s with inq := ws } } := by
  obtain ⟨h1, h2, h3, h4⟩ := h
  simp [fetch, h1, h2, h3, h4, hq]

theorem fetch_of_idle {s : State} (h : Idle s) : fetch s = { fmt := .seq, bits := 0, rest := s } := by
  obtain ⟨⟨h1, h2, h3, h4⟩, h5⟩ := h
  simp [fetch, h1, h2, h3, h4, h5]

theorem fetch_of_stage {s : State} (h : s.rst = false) (hh : s.halted = false) (hp : s.port = [])
    (hs : s.seq ≠ seqAccum) : fetch s = { fmt := .seq, bits := s.seq.toNat, rest := s } := by
  unfold fetch
  rw [h, hh, hp]
  simp [hs]

/-- Where a fetch finds its word: reset, the halt, a beat, an offered word, or the stage in SEQ. -/
theorem fetch_cases (s : State) :
    (s.rst = true ∧ fetch s = { fmt := .pin, bits := 1, rest := { s with rst := false } }) ∨
    (s.rst = false ∧ s.halted = true ∧ fetch s = { fmt := .seq, bits := 15, rest := s }) ∨
    (∃ b bs, s.rst = false ∧ s.halted = false ∧ s.port = b :: bs ∧
      fetch s = { fmt := .out, bits := b.toNat, rest := { s with port := bs } }) ∨
    (∃ w ws, Quiescent s ∧ s.inq = w :: ws ∧
      fetch s = { fmt := .inp, bits := w.toNat, rest := { s with inq := ws } }) ∨
    (s.rst = false ∧ s.halted = false ∧ s.port = [] ∧ (s.seq = seqAccum → s.inq = []) ∧
      fetch s = { fmt := .seq, bits := s.seq.toNat, rest := s }) := by
  by_cases hr : s.rst = true
  · exact .inl ⟨hr, fetch_of_rst hr⟩
  have hr : s.rst = false := by simpa using hr
  by_cases hh : s.halted = true
  · exact .inr (.inl ⟨hr, hh, fetch_of_halted hr hh⟩)
  have hh : s.halted = false := by simpa using hh
  by_cases hp : s.port = []
  · by_cases hs : s.seq = seqAccum
    · by_cases hq : s.inq = []
      · refine .inr (.inr (.inr (.inr ⟨hr, hh, hp, fun _ => hq, ?_⟩)))
        rw [fetch_of_idle ⟨⟨hr, hh, hs, hp⟩, hq⟩, hs]; rfl
      · obtain ⟨w, ws, hq⟩ := List.exists_cons_of_ne_nil hq
        exact .inr (.inr (.inr (.inl ⟨w, ws, ⟨hr, hh, hs, hp⟩, hq, fetch_of_word ⟨hr, hh, hs, hp⟩ hq⟩)))
    · exact .inr (.inr (.inr (.inr ⟨hr, hh, hp, fun h => absurd h hs, fetch_of_stage hr hh hp hs⟩)))
  · obtain ⟨b, bs, hp⟩ := List.exists_cons_of_ne_nil hp
    exact .inr (.inr (.inl ⟨b, bs, hr, hh, hp, fetch_of_port hr hh hp⟩))

/-! Decoding at the places of a fetch. -/

theorem decode_inp (w : F32) : decode .inp w.toNat = .ok (decodeIn w) := by
  have h := w.isLt
  simp [decode, Format.width, Nat.not_le.2 h]

theorem decode_seq (c : BitVec 4) : decode .seq c.toNat = .ok (decodeSeq c) := by
  have h := c.isLt
  simp [decode, Format.width, Nat.not_le.2 h]

theorem decode_out (b : Beat) : decode .out b.toNat = decodeOut b := by
  have h := b.isLt
  simp [decode, Format.width, Nat.not_le.2 h]

theorem decode_pin_high : decode .pin 1 = .ok .reset := rfl

/-! Buffers. -/

theorem bufGet_bufFill {α : Type} (n i : Nat) (v : α) : bufGet v (bufFill n v) i = v := by
  simp only [bufGet, bufFill, List.getD_eq_getElem?_getD, List.getElem?_replicate]
  split <;> rfl

/-- What a write to a buffer leaves: the written element, every other as before. -/
theorem bufGet_bufSet {α : Type} {n : Nat} (d v : α) (b : Buf α n) (i j : Nat) :
    bufGet d (bufSet b i v) j = if i = j ∧ i < n then v else bufGet d b j := by
  have hl := b.property
  simp only [bufGet, bufSet, List.getD_eq_getElem?_getD, List.getElem?_set]
  by_cases h : i = j
  · subst h
    by_cases hi : i < n
    · simp [hi, hl]
    · simp [hi, hl]
  · simp [h]

/-- An element of a mapped buffer. -/
theorem bufGet_bufMap {α : Type} {n : Nat} (d : α) (f : α → α) (b : Buf α n) (i : Nat) (h : i < n) :
    bufGet d (bufMap f b) i = f (bufGet d b i) := by
  have hl : i < b.val.length := by rw [b.property]; exact h
  simp [bufGet, bufMap, List.getD_eq_getElem?_getD, List.getElem?_map, List.getElem?_eq_getElem hl]

end Sys2Proof.Machine
end

