-- ==== Sys2Proof/Laws/PerInstr.lean ====
section
/-! SUPPORT. Families of statements about every instruction, one lemma per constructor. -/

/-- The encoder writes no more bits than the format of the word has (R17). -/
def Sys2Proof.Laws.EncodingFits.Statement (i : Sys2Proof.Instr) : Prop :=
  (Sys2Proof.encode i).2 < 2 ^ (Sys2Proof.encode i).1.width

namespace Sys2Proof.Laws.EncodingFits

theorem push (sample : F32) : Statement (.push sample) := sample.isLt
theorem pushNonfinite (sign : BitVec 1) (fraction : BitVec 23) : Statement (.pushNonfinite sign fraction) :=
  (nonfiniteWord sign fraction).isLt
theorem accum : Statement .accum := by unfold Statement; decide
theorem handoff : Statement .handoff := by unfold Statement; decide
theorem filt : Statement .filt := by unfold Statement; decide
theorem rmscalc : Statement .rmscalc := by unfold Statement; decide
theorem gainupd : Statement .gainupd := by unfold Statement; decide
theorem apply : Statement .apply := by unfold Statement; decide
theorem cal : Statement .cal := by unfold Statement; decide
theorem zcrcalc : Statement .zcrcalc := by unfold Statement; decide
theorem dft : Statement .dft := by unfold Statement; decide
theorem flatcalc : Statement .flatcalc := by unfold Statement; decide
theorem classify : Statement .classify := by unfold Statement; decide
theorem hyst : Statement .hyst := by unfold Statement; decide
theorem check : Statement .check := by unfold Statement; decide
theorem emit : Statement .emit := by unfold Statement; decide
theorem halt : Statement .halt := by unfold Statement; decide
theorem seqReserved : Statement .seqReserved := by unfold Statement; decide
theorem pcmBeat (last : BitVec 1) (data : F32) : Statement (.pcmBeat last data) := (beatWord last 0#1 data).isLt
theorem vadVoice : Statement .vadVoice := by unfold Statement; decide
theorem vadSilence : Statement .vadSilence := by unfold Statement; decide
theorem causeNone : Statement .causeNone := by unfold Statement; decide
theorem causeNonfiniteInput : Statement .causeNonfiniteInput := by unfold Statement; decide
theorem causeNonfiniteState : Statement .causeNonfiniteState := by unfold Statement; decide
theorem causeReserved : Statement .causeReserved := by unfold Statement; decide
theorem reset : Statement .reset := by unfold Statement; decide

end Sys2Proof.Laws.EncodingFits
end

