-- ==== Sys2Proof/Laws/Stages.lean ====
section
/-! SUPPORT. What each stage, each beat and the step can do, said once: later proofs cite these and unfold neither
`exec` nor `step`. -/

namespace Sys2Proof.Machine

/-! The stages on a running core. -/

theorem exec_handoff {s : State} (h : s.halted = false) : exec .handoff s = .next (doHandoff s) :=
  whenRunning_of_running h
theorem exec_filt {s : State} (h : s.halted = false) : exec .filt s = .next (doFilt s) :=
  whenRunning_of_running h
theorem exec_rmscalc {s : State} (h : s.halted = false) : exec .rmscalc s = .next (doRmscalc s) :=
  whenRunning_of_running h
theorem exec_gainupd {s : State} (h : s.halted = false) : exec .gainupd s = .next (doGainupd s) :=
  whenRunning_of_running h
theorem exec_apply {s : State} (h : s.halted = false) : exec .apply s = .next (doApply s) :=
  whenRunning_of_running h
theorem exec_cal {s : State} (h : s.halted = false) : exec .cal s = .next (doCal s) :=
  whenRunning_of_running h
theorem exec_zcrcalc {s : State} (h : s.halted = false) : exec .zcrcalc s = .next (doZcrcalc s) :=
  whenRunning_of_running h
theorem exec_dft {s : State} (h : s.halted = false) : exec .dft s = .next (doDft s) :=
  whenRunning_of_running h
theorem exec_flatcalc {s : State} (h : s.halted = false) : exec .flatcalc s = .next (doFlatcalc s) :=
  whenRunning_of_running h
theorem exec_classify {s : State} (h : s.halted = false) : exec .classify s = .next (doClassify s) :=
  whenRunning_of_running h
theorem exec_hyst {s : State} (h : s.halted = false) : exec .hyst s = .next (doHyst s) :=
  whenRunning_of_running h
theorem exec_check {s : State} (h : s.halted = false) : exec .check s = .next (doCheck s) :=
  whenRunning_of_running h
theorem exec_emit {s : State} (h : s.halted = false) : exec .emit s = .next (doEmit s) :=
  whenRunning_of_running h

/-- What the stage of a code does to a running core. -/
def stageEffect (c : BitVec 4) (s : State) : State :=
  match decodeSeq c with
  | .handoff => doHandoff s
  | .filt => doFilt s
  | .rmscalc => doRmscalc s
  | .gainupd => doGainupd s
  | .apply => doApply s
  | .cal => doCal s
  | .zcrcalc => doZcrcalc s
  | .dft => doDft s
  | .flatcalc => doFlatcalc s
  | .classify => doClassify s
  | .hyst => doHyst s
  | .check => doCheck s
  | .emit => doEmit s
  | _ => s

/-- Executing the stage that SEQ names, on a running core. -/
theorem exec_stage (c : BitVec 4) {s : State} (h : s.halted = false) :
    exec (decodeSeq c) s = .next (stageEffect c s) := by
  have hc : c.toNat < 16 := c.isLt
  unfold stageEffect
  unfold decodeSeq
  split <;>
    simp only [exec, execAccum, execHandoff, execFilt, execRmscalc, execGainupd, execApply, execCal, execZcrcalc, execDft,
      execFlatcalc, execClassify, execHyst, execCheck, execEmit, execSeqReserved, execHalt, whenRunning_of_running h, id]

/-! The beats. -/

/-- A beat of a PCM message put together again from its fields. -/
theorem beatWord_of_type_zero (b : Beat) (h : b.extractLsb' 32 1 = 0#1) :
    beatWord (b.extractLsb' 33 1) 0#1 (b.extractLsb' 0 32) = b := by
  rw [← h]
  apply BitVec.eq_of_toNat_eq
  have hb := b.isLt
  simp only [beatWord, BitVec.toNat_append, BitVec.extractLsb'_toNat, Nat.shiftLeft_eq, Nat.shiftRight_eq_div_pow]
  rw [← Nat.shiftLeft_eq, ← Nat.shiftLeft_add_eq_or_of_lt (by omega), ← Nat.shiftLeft_eq,
    ← Nat.shiftLeft_add_eq_or_of_lt (by omega)]
  simp only [Nat.shiftLeft_eq]
  omega

/-- A beat in flight that the table describes is driven as it is. -/
theorem exec_beat {b : Beat} {i : Instr} {s : State} (hd : decode .out b.toNat = .ok i) (h : s.halted = false) :
    exec i s = .next (driveBeat b s) := by
  rw [decode_out] at hd
  unfold decodeOut at hd
  split at hd
  · rename_i ht
    obtain rfl : _ = i := by simpa using hd
    show whenRunning _ s = _
    rw [whenRunning_of_running h, beatWord_of_type_zero b (by simpa using ht)]
  · rename_i ht
    have h1 : b.extractLsb' 32 1 = 1#1 := by
      have : (b.extractLsb' 32 1).toNat < 2 := (b.extractLsb' 32 1).isLt
      have hz : (b.extractLsb' 32 1).toNat ≠ 0 := fun e => ht (by simpa using BitVec.eq_of_toNat_eq (by simpa using e))
      exact BitVec.eq_of_toNat_eq (by simp only [BitVec.toNat_ofNat]; omega)
    split at hd
    · simp at hd
    · rename_i hl
      have h2 : b.extractLsb' 33 1 = 1#1 := by
        have : (b.extractLsb' 33 1).toNat < 2 := (b.extractLsb' 33 1).isLt
        have hz : (b.extractLsb' 33 1).toNat ≠ 0 :=
          fun e => hl (by simpa using BitVec.eq_of_toNat_eq (by simpa using e))
        exact BitVec.eq_of_toNat_eq (by simp only [BitVec.toNat_ofNat]; omega)
      have hb : ∀ d : F32, b.extractLsb' 0 32 = d → beatWord 1#1 1#1 d = b := by
        intro d hd'
        rw [← hd', ← h1]
        apply BitVec.eq_of_toNat_eq
        have hlt := b.isLt
        have e1 := congrArg BitVec.toNat h1
        have e2 := congrArg BitVec.toNat h2
        simp only [BitVec.extractLsb'_toNat, Nat.shiftRight_eq_div_pow] at e1 e2
        simp only [beatWord, BitVec.toNat_append, BitVec.extractLsb'_toNat, Nat.shiftRight_eq_div_pow]
        rw [← Nat.shiftLeft_add_eq_or_of_lt (by omega), ← Nat.shiftLeft_add_eq_or_of_lt (by omega)]
        simp only [Nat.shiftLeft_eq]
        simp at e1 e2 ⊢
        omega
      split at hd
      · rename_i hv
        obtain rfl : _ = i := by simpa using hd
        show whenRunning _ s = _
        rw [whenRunning_of_running h]
        exact congrArg (fun x => Host.Outcome.next (driveBeat x s)) (hb _ (by simpa [vadData] using hv))
      · split at hd
        · rename_i hv
          obtain rfl : _ = i := by simpa using hd
          show whenRunning _ s = _
          rw [whenRunning_of_running h]
          exact congrArg (fun x => Host.Outcome.next (driveBeat x s)) (hb _ (by simpa [vadData] using hv))
        · simp at hd

/-! The input port. -/

/-- The fields of a non-finite word make the word again. -/
theorem nonfiniteWord_of_fields (w : F32) (h : exponentAllOnes w = true) :
    nonfiniteWord (w.extractLsb' 31 1) (w.extractLsb' 0 23) = w := by
  have he : w.extractLsb' 23 8 = 0xFF#8 := by simpa [exponentAllOnes] using h
  have e := congrArg BitVec.toNat he
  have hw := w.isLt
  apply BitVec.eq_of_toNat_eq
  simp only [BitVec.extractLsb'_toNat, Nat.shiftRight_eq_div_pow] at e
  simp only [nonfiniteWord, BitVec.toNat_append, BitVec.extractLsb'_toNat, Nat.shiftRight_eq_div_pow]
  rw [← Nat.shiftLeft_add_eq_or_of_lt (Nat.mod_lt _ (by decide)), ← Nat.shiftLeft_add_eq_or_of_lt (by decide)]
  simp only [Nat.shiftLeft_eq]
  simp at e ⊢
  omega

/-- Executing the operation that an offered word decodes to, on a ready core. -/
theorem exec_word (w : F32) {s : State} (h : inReady s = true) : exec (decodeIn w) s = .next (acceptWord w s) := by
  unfold decodeIn
  split
  · rename_i hw
    show whenAccepted _ s = _
    rw [whenAccepted_of_ready h, nonfiniteWord_of_fields w hw]
  · exact whenAccepted_of_ready h

/-! The step. -/

/-- Everything a step can do: a reset, a held halt, a beat, a word, an idle wait, or the stage that SEQ names. -/
theorem step_cases {s t : State} (h : step s = .next t) :
    (s.rst = true ∧ t = doReset { s with rst := false }) ∨
    (s.rst = false ∧ s.halted = true ∧ t = s) ∨
    (∃ b bs, s.rst = false ∧ s.halted = false ∧ s.port = b :: bs ∧ (∃ i, decode .out b.toNat = .ok i) ∧
      t = driveBeat b { s with port := bs }) ∨
    (∃ w ws, Quiescent s ∧ s.inq = w :: ws ∧ t = acceptWord w { s with inq := ws }) ∨
    (Idle s ∧ t = s) ∨
    (s.rst = false ∧ s.halted = false ∧ s.port = [] ∧ s.seq ≠ seqAccum ∧ t = stageEffect s.seq s) := by
  unfold step at h
  rcases fetch_cases s with ⟨hr, hf⟩ | ⟨hr, hh, hf⟩ | ⟨b, bs, hr, hh, hp, hf⟩ | ⟨w, ws, hq, hi, hf⟩ |
    ⟨hr, hh, hp, hs, hf⟩
  · rw [hf] at h
    exact .inl ⟨hr, (Host.Outcome.next.inj h).symm⟩
  · rw [hf] at h
    refine .inr (.inl ⟨hr, hh, ?_⟩)
    have : execHalt s = .next t := h
    rw [execHalt, whenRunning_of_halted hh] at this
    exact (Host.Outcome.next.inj this).symm
  · rw [hf] at h
    refine .inr (.inr (.inl ⟨b, bs, hr, hh, hp, ?_⟩))
    cases hd : decode .out b.toNat with
    | ok i =>
      simp only [hd] at h
      rw [exec_beat (s := { s with port := bs }) hd hh] at h
      exact ⟨⟨i, rfl⟩, (Host.Outcome.next.inj h).symm⟩
    | error e =>
      simp only [hd] at h
      exact absurd h (by simp)
  · rw [hf] at h
    refine .inr (.inr (.inr (.inl ⟨w, ws, hq, hi, ?_⟩)))
    simp only [decode_inp] at h
    have hr : inReady { s with inq := ws } = true := inReady_of_quiescent hq
    rw [exec_word w hr] at h
    exact (Host.Outcome.next.inj h).symm
  · rw [hf] at h
    simp only [decode_seq] at h
    by_cases hz : s.seq = seqAccum
    · refine .inr (.inr (.inr (.inr (.inl ⟨⟨⟨hr, hh, hz, hp⟩, hs hz⟩, ?_⟩))))
      rw [exec_stage s.seq hh, hz] at h
      exact (Host.Outcome.next.inj h).symm
    · rw [exec_stage s.seq hh] at h
      exact .inr (.inr (.inr (.inr (.inr ⟨hr, hh, hp, hz, (Host.Outcome.next.inj h).symm⟩))))

end Sys2Proof.Machine
end

