-- ==== Sys2Proof/Laws/Transaction.lean ====
section
/-! SUPPORT. What the transaction level can do, said once, and its first facts under both configurations. -/

namespace Sys2Proof.Machine

/-! What a machine state holds between transactions. -/

@[simp] theorem heldOf_acc (s : State) : (heldOf s).acc = s.acc := rfl
@[simp] theorem heldOf_wr (s : State) : (heldOf s).wr = s.wr := rfl
@[simp] theorem heldOf_halted (s : State) : (heldOf s).halted = s.halted := rfl
@[simp] theorem heldOf_cause (s : State) : (heldOf s).cause = s.cause := rfl
@[simp] theorem heldOf_filters (s : State) : (heldOf s).ctx.filters = filterStateOf s := rfl
@[simp] theorem heldOf_gain (s : State) : (heldOf s).ctx.gain = s.gain := rfl
@[simp] theorem heldOf_cal (s : State) : (heldOf s).ctx.cal = calStateOf s := rfl
@[simp] theorem heldOf_voice (s : State) : (heldOf s).ctx.voice = s.voice := rfl
@[simp] theorem heldOf_silCnt (s : State) : (heldOf s).ctx.silCnt = s.silCnt := rfl

/-- The offered words are no part of what is held. -/
@[simp] theorem heldOf_with_inq (s : State) (q : List F32) : heldOf { s with inq := q } = heldOf s := rfl

/-- The state after reset holds what `reset()` of R173 gives. -/
theorem heldOf_reset : heldOf State.reset = Held.reset numDefault := by decide +kernel

/-! The configurations. -/

/-- The exponent test of PUSH is the finiteness test of NUM_DEFAULT. -/
theorem exponentAllOnes_eq_not_finite (w : F32) : exponentAllOnes w = !finite32 w := by
  have h : (w.extractLsb' 23 8).toNat = w.toNat / 2 ^ 23 % 2 ^ 8 := by
    simp only [BitVec.extractLsb'_toNat, Nat.shiftRight_eq_div_pow]
  have hw := w.isLt
  have hf : finite32 w = decide (w.toNat % 2 ^ 31 < 0x7F800000) := rfl
  rw [Bool.eq_iff_iff, exponentAllOnes, beq_iff_eq, ← BitVec.toNat_inj, h, hf]
  simp only [Bool.not_eq_true', decide_eq_false_iff_not, BitVec.toNat_ofNat]
  omega

/-- Under NUM_DEFAULT FLAT always has a value, the quotient. -/
@[simp] theorem flatOf_numDefault (mags : List F64) :
    flatOf numDefault mags = some (numDefault.div (geoMean numDefault mags) (arithMean numDefault mags)) := rfl

/-- Over the reals FLAT has a value unless AM is zero. -/
theorem flatOf_numReal (mags : List ℝ) :
    flatOf numReal mags =
      if arithMean numReal mags = 0 then none else some (geoMean numReal mags / arithMean numReal mags) := by
  by_cases h : arithMean numReal mags = 0
  · rw [if_pos h]
    exact if_neg (by simpa [numReal] using h)
  · rw [if_neg h]
    exact if_pos (by simpa [numReal] using h)

@[simp] theorem tonal_none {S C : Type} (N : Num S C) : tonal N none = false := rfl
@[simp] theorem tonal_some {S C : Type} (N : Num S C) (flat : C) :
    tonal N (some flat) = N.lt flat (N.const .flatMax) := rfl

/-- CHECK never fails over the reals (R189). -/
theorem valuesFinite_numReal (frm scalars : List ℝ) : valuesFinite numReal frm scalars = true := by
  simp [valuesFinite, numReal]

/-! The step. -/

/-- Everything a transaction can do: stay halted, halt on the word, store it, or complete a frame. -/
theorem transact_cases {S C : Type} (N : Num S C) (h : Held S C) (w : S) :
    (h.halted = true ∧ transact N h w = .halt h h.cause) ∨
    (h.halted = false ∧ N.finiteS w = false ∧ transact N h w = haltWith h causeNonfiniteInputCode) ∨
    (h.halted = false ∧ N.finiteS w = true ∧ h.wr + 1 < 160 ∧
      transact N h w = .next { h with acc := bufSet h.acc h.wr w, wr := h.wr + 1 } []) ∨
    (h.halted = false ∧ N.finiteS w = true ∧ 160 ≤ h.wr + 1 ∧
      transact N h w = transactFrame N { h with acc := bufSet h.acc h.wr w }) := by
  unfold transact
  cases hh : h.halted
  · cases hf : N.finiteS w
    · simp
    · by_cases hw : h.wr + 1 < 160
      · simp [hw, Config.frame]
      · simp [hw, Config.frame, Nat.not_lt.1 hw]
  · simp

/-- Everything a completed frame can do: its messages and the new context, or the halt of CHECK. -/
theorem transactFrame_cases {S C : Type} (N : Num S C) (h : Held S C) :
    (frameFinite N (nextCtx N h.ctx h.acc) (frameRms N h.ctx h.acc) (processedFrame N h.ctx h.acc) = true ∧
      transactFrame N h = .next { h with wr := 0, ctx := nextCtx N h.ctx h.acc }
        (frameMessages (processedFrame N h.ctx h.acc)
          (transition (nextCtx N h.ctx h.acc).voice h.ctx.voice) (nextCtx N h.ctx h.acc).voice)) ∨
    (frameFinite N (nextCtx N h.ctx h.acc) (frameRms N h.ctx h.acc) (processedFrame N h.ctx h.acc) = false ∧
      transactFrame N h = haltWith { h with wr := 0, ctx := nextCtx N h.ctx h.acc } causeNonfiniteStateCode) := by
  unfold transactFrame processFrame
  cases hf : frameFinite N (nextCtx N h.ctx h.acc) (frameRms N h.ctx h.acc) (processedFrame N h.ctx h.acc)
  · simp
  · cases ht : transition (nextCtx N h.ctx h.acc).voice h.ctx.voice <;>
      simp [resultMessages, frameMessages]

end Sys2Proof.Machine
end

