-- ==== Sys2Proof/Tests/Slice0.lean ====
section
/-! SUPPORT. Tests of the model: well-formedness, decoding of written-out words, one step of each operation on values of
95_test_vectors.md, and for every obligation with hypotheses a concrete state that meets them. -/

namespace Sys2Proof.Tests

-- One theorem at a time: many kernel evaluations side by side take more threads than check.sh's memory limit allows.
set_option Elab.async false

open Sys2Proof Sys2Proof.Machine

/-! ## Helpers -/

/-- The next state of an outcome, if it is one. -/
def nextOf : Host.Outcome State Fault Refusal → Option State
  | .next t => some t
  | .fault _ => none
  | .refused _ => none

/-- Reset, then the sequencer at a stage. -/
def atStage (c : BitVec 4) : State := { State.reset with seq := c }

/-- Reset with a working frame that holds one word everywhere. -/
def allWords (w : F32) : State := { State.reset with frm := bufFill 160 w }

/-- An impulse frame: 1.0, then zeros. -/
def impulse : Buf F32 160 := bufSet (bufFill 160 0#32) 0 0x3F800000#32

/-- Reset, then halted with cause 1. -/
def haltedState : State := raiseFatal 1#2 State.reset

/-! ## Well-formedness -/

theorem test_push_of_infinity_is_ill_formed : Instr.wf (.push 0x7F800000#32) = false := by decide
theorem test_push_of_nan_is_ill_formed : Instr.wf (.push 0xFFC00001#32) = false := by decide
theorem test_push_of_largest_finite_is_well_formed : Instr.wf (.push 0x7F7FFFFF#32) = true := by decide

/-! ## Decoding: one word of every row, written out from the spec's tables -/

/-- R87: sign 0, exponent 01111110, fraction 0 is 0.5. -/
theorem test_decode_push : decode .inp 0b00111111000000000000000000000000 = .ok (.push 0x3F000000#32) := by decide
/-- R87: sign 1, exponent 11111111, fraction 1 followed by 21 zeros and a 1. -/
theorem test_decode_push_nonfinite :
    decode .inp 0b11111111110000000000000000000001 = .ok (.pushNonfinite 1#1 0x400001#23) := by decide
/-- R88, the table of stage codes. -/
theorem test_decode_accum : decode .seq 0b0000 = .ok .accum := by decide
theorem test_decode_handoff : decode .seq 0b0001 = .ok .handoff := by decide
theorem test_decode_filt : decode .seq 0b0010 = .ok .filt := by decide
theorem test_decode_rmscalc : decode .seq 0b0011 = .ok .rmscalc := by decide
theorem test_decode_gainupd : decode .seq 0b0100 = .ok .gainupd := by decide
theorem test_decode_apply : decode .seq 0b0101 = .ok .apply := by decide
theorem test_decode_cal : decode .seq 0b0110 = .ok .cal := by decide
theorem test_decode_zcrcalc : decode .seq 0b0111 = .ok .zcrcalc := by decide
theorem test_decode_dft : decode .seq 0b1000 = .ok .dft := by decide
theorem test_decode_flatcalc : decode .seq 0b1001 = .ok .flatcalc := by decide
theorem test_decode_classify : decode .seq 0b1010 = .ok .classify := by decide
theorem test_decode_hyst : decode .seq 0b1011 = .ok .hyst := by decide
theorem test_decode_check : decode .seq 0b1100 = .ok .check := by decide
theorem test_decode_emit : decode .seq 0b1101 = .ok .emit := by decide
theorem test_decode_seq_reserved : decode .seq 0b1110 = .ok .seqReserved := by decide
theorem test_decode_halt : decode .seq 0b1111 = .ok .halt := by decide
/-- R85: last 1, type 0, then the binary32 word 0x3F7D70A4. -/
theorem test_decode_pcm_beat :
    decode .out 0b1000111111011111010111000010100100 = .ok (.pcmBeat 1#1 0x3F7D70A4#32) := by decide
/-- R86: `0x300000001`. -/
theorem test_decode_vad_voice : decode .out 0b1100000000000000000000000000000001 = .ok .vadVoice := by decide
/-- R86: `0x300000000`. -/
theorem test_decode_vad_silence : decode .out 0b1100000000000000000000000000000000 = .ok .vadSilence := by decide
/-- R183, the table of cause codes. -/
theorem test_decode_cause_none : decode .cause 0b00 = .ok .causeNone := by decide
theorem test_decode_cause_nonfinite_input : decode .cause 0b01 = .ok .causeNonfiniteInput := by decide
theorem test_decode_cause_nonfinite_state : decode .cause 0b10 = .ok .causeNonfiniteState := by decide
theorem test_decode_cause_reserved : decode .cause 0b11 = .ok .causeReserved := by decide
/-- R81: `rst = 1`. -/
theorem test_decode_reset : decode .pin 1 = .ok .reset := by decide

/-- R89 (b): a VAD beat has `out_last = 1` and `out_data[31:1] = 0`. -/
theorem test_decode_refuses_vad_not_last : decode .out 0x100000001 = .error .vadBeatNotLast := by decide
theorem test_decode_refuses_vad_data : decode .out 0x300000002 = .error .vadBeatData := by decide
theorem test_decode_refuses_low_pin : decode .pin 0 = .error .resetPinLow := by decide
theorem test_decode_refuses_wide_stage : decode .seq 16 = .error (.tooWide .seq) := by decide
theorem test_table_word_beat : decodeTableWord 40 0x300000001 = some .vadVoice := by decide
theorem test_table_word_sample : decodeTableWord 32 0x7F800000 = some (.pushNonfinite 0#1 0#23) := by decide
theorem test_table_word_stage : decodeTableWord 8 0xF = some .halt := by decide

/-- A word put at the fetch place is the one the next step runs. -/
theorem test_fetch_word_runs : step (State.reset.withFetchWord 8 1) = exec .handoff (atStage seqHandoff) := rfl
theorem test_fetch_sample_runs :
    step (State.reset.withFetchWord 32 0x3F000000) = exec (.push 0x3F000000#32) State.reset := by rfl

/-! ## One step of each operation -/

/-- V3. -/
theorem test_push_stores :
    (nextOf (exec (.push 0x3F000000#32) State.reset)).map (fun t => (bufGet 0#32 t.acc 0, t.wr, t.seq)) =
      some (0x3F000000#32, 1, 0#4) := by decide +kernel
/-- V4: the 160th word completes the frame. -/
theorem test_push_completes_frame :
    (nextOf (exec (.push 0x3F000000#32) { State.reset with wr := 159 })).map
      (fun t => (bufGet 0#32 t.acc 159, t.wr, t.seq)) = some (0x3F000000#32, 160, seqHandoff) := by decide +kernel
/-- V5: a signalling NaN. -/
theorem test_push_nonfinite_halts :
    (nextOf (exec (.pushNonfinite 0#1 1#23) State.reset)).map (fun t => (t.halted, t.cause, t.wr, t.seq)) =
      some (true, 1#2, 0, 15#4) := by decide +kernel
/-- R176. -/
theorem test_accum_waits : nextOf (exec .accum State.reset) = some State.reset := by decide +kernel
/-- R102. -/
theorem test_handoff_copies :
    (nextOf (exec .handoff { State.reset with acc := impulse, wr := 160 })).map
      (fun t => (bufGet 0#32 t.frm 0, bufGet 0#32 t.acc 0, t.wr)) =
      some (0x3F800000#32, 0x3F800000#32, 0) := by decide +kernel
/-- V10: two samples of 0.5 from reset. -/
theorem test_filter_first_sample :
    filtSample numDefault { hpXp := 0#64, hpYp := 0#64, lpY := 0#64 } 0x3F000000#32 =
      { hpXp := 0x3FE0000000000000#64, hpYp := 0x3FDE8F558572AD67#64, lpY := 0x3FD2AC2D9AE8B65C#64 } := by
  decide +kernel
/-- V11: the impulse frame. -/
theorem test_filt_impulse :
    (nextOf (exec .filt { State.reset with frm := impulse })).map
      (fun t => (t.frm.val.take 4, t.hpXp, t.seq)) =
      some ([0x3F15616D#32, 0x3E4D895A#32, 0x3D5914C6#32, 0xBB5A8303#32], 0#64, seqRmscalc) := by decide +kernel
/-- V27. -/
theorem test_rmscalc_impulse :
    (nextOf (exec .rmscalc { State.reset with frm := impulse })).map (fun t => t.rms) =
      some 0x3FB43D136248490F#64 := by decide +kernel
/-- V22: an exact zero is replaced by 1e-6. -/
theorem test_rmscalc_silence :
    (nextOf (exec .rmscalc (allWords 0#32))).map (fun t => t.rms) = some 0x3EB0C6F7A0B5ED8D#64 := by decide +kernel
/-- V20: release. -/
theorem test_gainupd_release :
    (nextOf (exec .gainupd { State.reset with rms := 0x3FE0000000000000#64 })).map (fun t => (t.need, t.gain)) =
      some (0x3FE0000000000000#64, 0x3FEFD70A3D70A3D7#64) := by decide +kernel
/-- V21: attack, the need clamped to 12. -/
theorem test_gainupd_attack :
    (nextOf (exec .gainupd { State.reset with rms := 0x3F90000000000000#64 })).map (fun t => (t.need, t.gain)) =
      some (0x4028000000000000#64, 0x4013666666666666#64) := by decide +kernel
/-- V23: 0.9925 is clipped. -/
theorem test_apply_clips :
    (nextOf (exec .apply { allWords 0x3F800000#32 with gain := 0x3FEFC28F5C28F5C3#64 })).map
      (fun t => bufGet 0#32 t.frm 159) = some 0x3F7D70A4#32 := by decide +kernel
/-- V32: five units of the least subnormal. -/
theorem test_apply_subnormal :
    (nextOf (exec .apply { allWords 0x80000001#32 with gain := 0x4013666666666666#64 })).map
      (fun t => bufGet 0#32 t.frm 0) = some 0x80000005#32 := by decide +kernel
/-- V40: the first frame. -/
theorem test_cal_counts :
    (nextOf (exec .cal { State.reset with rms := 0x3F847AE147AE147B#64 })).map
      (fun t => (t.calLeft, t.calCnt, t.calSum, t.nf)) =
      some (6240, 1, 0x3F847AE147AE147B#64, 0x3F60624DD2F1A9FC#64) := by decide +kernel
/-- V15, V43: the fortieth frame of silence (39 additions of 1e-6 before it) writes the floor. -/
theorem test_cal_freezes :
    (nextOf (exec .cal { State.reset with
        rms := 0x3EB0C6F7A0B5ED8D#64, calLeft := 160, calCnt := 39,
        calSum := (List.replicate 39 0x3EB0C6F7A0B5ED8D#64).foldl add64 0#64 })).map
      (fun t => (t.calLeft, t.calCnt, t.calSum, t.nf)) =
      some (0, 40, 0x3F04F8B588E368EE#64, 0x3EB0C6F7A0B5ED8B#64) := by decide +kernel
/-- V51e, V51c: -0 is non-negative, -1 is not, and 159 changes are the most. -/
theorem test_zcrcalc_signed_zeros :
    (nextOf (exec .zcrcalc { State.reset with
        frm := ⟨(List.replicate 40 [0xBF800000#32, 0#32, 0xBF800000#32, 0x80000000#32]).flatten, by simp⟩ })).map
      (fun t => t.zc) = some 159 := by decide +kernel
/-- V52a: ten sign changes give 0.0625. -/
theorem test_zcrcalc_ratio : zcrOf numDefault 10 = 0x3FB0000000000000#64 := by decide +kernel
/-- V46: an impulse has 1/160 in every bin. -/
theorem test_dft_impulse_bin : dftBin numDefault impulse.val 7 = div64 0x3FF0000000000000#64 0x4064000000000000#64 := by
  decide +kernel
/-- V2: entries of the twiddle tables. -/
theorem test_twiddles :
    (cosTable 81, sinTable 81, cosTable 40, sinTable 80, cosTable 159, sinTable 120) =
      (0xBFEFF9AF2BFBC297#64, 0xBFA419DCD176E0F7#64, 0#64, 0x8000000000000000#64 ^^^ 0x8000000000000000#64,
        0x3FEFF9AF2BFBC297#64, 0xBFF0000000000000#64) := by decide +kernel
/-- V47: with every bin zero AM is +0. -/
theorem test_flatcalc_zero_mean : arithMean numDefault (flatBins State.reset.mag) = 0#64 := by decide +kernel
/-- 44_features.md R146, D16: a positive value over +0 is +infinity. -/
theorem test_flatcalc_division : div64 0x3D719799812DEA11#64 0#64 = 0x7FF0000000000000#64 := by decide +kernel
/-- V62 and V53: `NF = 0.0016` gives `THR = 0.0032`, and the four tests hold. -/
theorem test_classify_voice :
    (nextOf (exec .classify { State.reset with
        nf := 0x3F5A36E2EB1C432D#64, rms := 0x3F70CB295E9E1B09#64, flat := 0x3FDF5C28F5C28F5C#64,
        zcr := zcrOf numDefault 4 })).map (fun t => (t.thr, t.isVoice)) =
      some (0x3F6A36E2EB1C432D#64, true) := by decide +kernel
/-- V58: 40 sign changes fail. -/
theorem test_classify_upper_edge :
    (nextOf (exec .classify { State.reset with
        rms := 0x3F70CB295E9E1B09#64, flat := 0x3FB999999999999A#64, zcr := zcrOf numDefault 40 })).map
      (fun t => t.isVoice) = some false := by decide +kernel
/-- V52: the fifth silent frame flips the state. -/
theorem test_hyst_fifth_silent_frame :
    (nextOf (exec .hyst { State.reset with voice := true, silCnt := 4 })).map
      (fun t => (t.silCnt, t.voice, t.trans)) = some (5, false, true) := by decide +kernel
/-- V52: the first silent frame after reset reports voice (R156). -/
theorem test_hyst_start_up :
    (nextOf (exec .hyst State.reset)).map (fun t => (t.silCnt, t.voice, t.trans)) = some (1, true, true) := by
  decide +kernel
/-- R189: an infinite scalar is found. -/
theorem test_check_finds_infinity :
    (nextOf (exec .check { State.reset with lpY := 0xFFF0000000000000#64 })).map
      (fun t => (t.halted, t.cause, t.seq, t.port)) = some (true, 2#2, 15#4, []) := by decide +kernel
/-- R189: the largest finite sample passes. -/
theorem test_check_passes_largest :
    (nextOf (exec .check (allWords 0x7F7FFFFF#32))).map (fun t => (t.halted, t.seq)) = some (false, seqEmit) := by
  decide +kernel
/-- V65: frame 1 of P-A is 161 beats. -/
theorem test_emit_transition :
    (nextOf (exec .emit { State.reset with trans := true, voice := true })).map (fun t => t.port) =
      some (List.replicate 159 0#34 ++ [0x200000000#34, 0x300000001#34]) := by decide +kernel
/-- V65: frame 2 of P-A is 160 beats. -/
theorem test_emit_no_transition :
    (nextOf (exec .emit State.reset)).map (fun t => (t.port.length, t.seq)) = some (160, 0#4) := by decide +kernel
/-- R182. -/
theorem test_halt_holds : nextOf (step haltedState) = some haltedState := by decide +kernel
/-- R89. -/
theorem test_seq_reserved_holds :
    nextOf (exec .seqReserved (atStage seqReservedCode)) = some (atStage seqReservedCode) := by decide +kernel
/-- R85: the second beat of V66. -/
theorem test_pcm_beat_driven :
    (nextOf (exec (.pcmBeat 0#1 0x3D1548F4#32) State.reset)).map (fun t => t.sent) = some [0x03D1548F4#34] := by
  decide +kernel
/-- V65. -/
theorem test_vad_voice_driven :
    (nextOf (exec .vadVoice State.reset)).map (fun t => t.sent) = some [0x300000001#34] := by decide +kernel
theorem test_vad_silence_driven :
    (nextOf (exec .vadSilence State.reset)).map (fun t => t.sent) = some [0x300000000#34] := by decide +kernel
/-- R183. -/
theorem test_cause_none : nextOf (exec .causeNone State.reset) = some State.reset := by decide +kernel
theorem test_cause_nonfinite_input :
    (nextOf (exec .causeNonfiniteInput State.reset)).map (fun t => (t.halted, t.cause)) = some (true, 1#2) := by
  decide +kernel
theorem test_cause_nonfinite_state :
    (nextOf (exec .causeNonfiniteState State.reset)).map (fun t => (t.halted, t.cause)) = some (true, 2#2) := by
  decide +kernel
theorem test_cause_reserved_faults : exec .causeReserved State.reset = .fault .reservedCause := rfl
/-- R182, R200: reset leaves the halt. -/
theorem test_reset_leaves_halt :
    (nextOf (step { haltedState with rst := true, wr := 7 })).map (fun t => (t.halted, t.cause, t.wr, t.seq)) =
      some (false, 0#2, 0, 0#4) := by decide +kernel

/-! ## Witnesses: a concrete state that meets all hypotheses of each obligation -/

theorem witness_MessageStreamReadsBack : [Message.pcm impulse, Message.vad true].length ≤ 2 := by decide

theorem witness_StepRunsFetchedInstruction :
    (decode .pin 1 = .ok .reset ∧ (assertReset State.reset).rst = true) ∧
    (decode .seq 15 = .ok .halt ∧ haltedState.rst = false ∧ haltedState.halted = true) ∧
    (decode .out (0x300000001#34).toNat = .ok .vadVoice ∧
      ({ State.reset with port := [0x300000001#34] } : State).port = 0x300000001#34 :: []) ∧
    (decode .inp (0x3F000000#32).toNat = .ok (.push 0x3F000000#32) ∧ (offer [0x3F000000#32] State.reset).port = [] ∧
      (offer [0x3F000000#32] State.reset).seq = seqAccum ∧
      (offer [0x3F000000#32] State.reset).inq = 0x3F000000#32 :: []) ∧
    (decode .seq State.reset.seq.toNat = .ok .accum ∧ State.reset.inq = []) ∧
    (decode .seq (atStage seqDft).seq.toNat = .ok .dft ∧ (atStage seqDft).port = [] ∧
      (atStage seqDft).seq ≠ seqAccum) := by decide +kernel

theorem witness_StepNeverStops :
    ∀ b ∈ ({ State.reset with port := [0x300000001#34] } : State).port, ∃ i, decode .out b.toNat = .ok i := by
  intro b hb
  refine ⟨.vadVoice, ?_⟩
  rw [List.mem_singleton.1 hb]
  decide

theorem witness_HaltHoldsUntilReset :
    (haltedState.halted = true ∧ haltedState.rst = false) ∧
    ((assertReset haltedState).halted = true ∧ (assertReset haltedState).rst = true) := by decide +kernel

theorem witness_OffersCommuteWithSteps :
    ¬ Idle (atStage seqHyst) ∧ step (atStage seqHyst) = .next (doHyst (atStage seqHyst)) :=
  ⟨fun h => absurd h.1.2.2.1 (by decide), rfl⟩

theorem witness_PartialFrameIsKept :
    Quiescent { State.reset with wr := 157, inq := [0x3F000000#32, 0x3E000000#32] } ∧
    (∀ w ∈ [0x3F000000#32, 0x3E000000#32], w.extractLsb' 23 8 ≠ 0xFF#8) ∧
    157 + [0x3F000000#32, 0x3E000000#32].length < 160 :=
  ⟨⟨rfl, rfl, rfl, rfl⟩, by simp, by decide +kernel⟩

/-- How many messages a transaction emits, if it does not halt. -/
def messageCount {S C : Type} : Transacted S C → Option Nat
  | .next _ out => some out.length
  | .halt _ _ => none

/-- Reset with 159 words accepted and one more offered. -/
def lastWord : State := { State.reset with wr := 159, inq := [0#32] }

/-- Both clauses: the word that completes a frame, and a non-finite word that halts. -/
theorem witness_StepsRefineTransaction :
    (Quiescent lastWord ∧ lastWord.wr < 160 ∧ lastWord.inq = 0#32 :: []) ∧
    messageCount (transact numDefault (heldOf lastWord) 0#32) = some 2 ∧
    messageCount (transact numDefault (heldOf lastWord) 0x7F800000#32) = none :=
  ⟨⟨⟨rfl, rfl, rfl, rfl⟩, by decide +kernel, rfl⟩, by decide +kernel, by decide +kernel⟩

/-- All three kinds of transaction. -/
theorem witness_TransactionMessagesAlternate :
    messageCount (transact numDefault (heldOf State.reset) 0#32) = some 0 ∧
    messageCount (transact numDefault (heldOf { lastWord with voice := true }) 0#32) = some 1 ∧
    messageCount (transact numDefault (heldOf lastWord) 0#32) = some 2 := by decide +kernel

theorem witness_PushStoresWord :
    (inReady State.reset = true ∧ State.reset.wr < 160 ∧ (0x7F7FFFFF#32).extractLsb' 23 8 ≠ 0xFF#8) ∧
    (inReady lastWord = true ∧ lastWord.wr < 160 ∧ lastWord.wr + 1 = 160) := by decide +kernel

theorem witness_NonfiniteWordHalts : inReady State.reset = true := by decide

theorem witness_UnreadyWordHasNoEffect : inReady haltedState = false := by decide

theorem witness_HandoffCopiesFrame : ({ atStage seqHandoff with acc := impulse, wr := 160 } : State).halted = false := rfl
theorem witness_FiltFollowsRecurrences : ({ atStage seqFilt with frm := impulse } : State).halted = false := rfl
theorem witness_RmsOfFilteredFrame : (allWords 0x3F000000#32).halted = false := rfl
theorem witness_GainMovesTowardsNeed : (atStage seqGainupd).halted = false := rfl
theorem witness_ApplyScalesAndClips : (allWords 0x3F800000#32).halted = false := rfl
theorem witness_ZeroCrossingsCounted : (allWords 0xBF800000#32).halted = false := rfl
theorem witness_DftSumsDirectly : ({ atStage seqDft with frm := impulse } : State).halted = false := rfl
theorem witness_FlatnessOfBins : (atStage seqFlatcalc).halted = false := rfl
theorem witness_ClassifyThresholds : (atStage seqClassify).halted = false := rfl
theorem witness_BeatsAreDriven : State.reset.halted = false := rfl
theorem witness_CauseRowsRaiseFatal : (atStage seqCheck).halted = false := rfl

theorem witness_FilteredSilenceIsSilence :
    State.reset.halted = false ∧ State.reset.hpXp = 0#64 ∧ State.reset.hpYp = 0#64 ∧ State.reset.lpY = 0#64 ∧
      State.reset.frm.val = List.replicate 160 0#32 := by decide +kernel

theorem witness_AppliedSamplesAreBounded :
    (allWords 0x3F800000#32).halted = false ∧
      exec .apply (allWords 0x3F800000#32) = .next (doApply (allWords 0x3F800000#32)) := ⟨rfl, rfl⟩

theorem witness_StepKeepsGainBounds :
    GainOk (atStage seqGainupd) ∧ step (atStage seqGainupd) = .next (doGainupd (atStage seqGainupd)) :=
  ⟨⟨by decide, by decide⟩, rfl⟩

theorem witness_RealGainTrajectories : (1 : ℝ) < 12 ∧ (1 : ℝ) ≤ 1 ∧ (1 : ℝ) / 4 ≤ 12 := by norm_num

/-- Every clause at its edges: 161, 160 and 1, 0. -/
theorem witness_CalAveragesThenFreezes :
    (State.reset.halted = false ∧ (160 : Int) < ({ State.reset with calLeft := 161 } : State).calLeft) ∧
    (0 < ({ State.reset with calLeft := 160 } : State).calLeft ∧
      ({ State.reset with calLeft := 160 } : State).calLeft ≤ 160) ∧
    (0 < ({ State.reset with calLeft := 1 } : State).calLeft ∧ ({ State.reset with calLeft := 1 } : State).calLeft ≤ 160) ∧
    ({ State.reset with calLeft := 0 } : State).calLeft ≤ 0 := by decide +kernel

theorem witness_CalibrationStaysFrozen :
    ({ atStage seqCal with calLeft := 0 } : State).rst = false ∧ ({ atStage seqCal with calLeft := 0 } : State).calLeft ≤ 0 ∧
      step { atStage seqCal with calLeft := 0 } = .next (doCal { atStage seqCal with calLeft := 0 }) :=
  ⟨rfl, by decide, rfl⟩

theorem witness_StepKeepsCalibration :
    CalOk (atStage seqCal) ∧ step (atStage seqCal) = .next (doCal (atStage seqCal)) :=
  ⟨⟨by decide, by decide, fun _ => rfl⟩, rfl⟩

theorem witness_ZeroSpectrumIsNotTonal :
    State.reset.halted = false ∧ ∀ k, 1 ≤ k → k < 64 → code64 (bufGet 0#64 State.reset.mag k) = 0 := by
  refine ⟨rfl, ?_⟩
  decide +kernel

/-- The clause over the reals: a zero spectrum, and one that is not. -/
theorem witness_ZeroSpectrumIsNotTonal_real :
    (∀ m ∈ List.replicate 63 (0 : ℝ), m = 0) ∧ flatOf numReal (List.replicate 63 0) = none := by
  have h : ∀ (n : Nat) (acc : ℝ), sumMags numReal acc (List.replicate n 0) = acc := by
    intro n
    induction n with
    | zero => intro acc; rfl
    | succ n ih => intro acc; rw [List.replicate_succ, sumMags, ih]; simp [numReal]
  refine ⟨fun m hm => List.eq_of_mem_replicate hm, ?_⟩
  rw [flatOf_numReal, if_pos]
  rw [arithMean, h]
  norm_num [numReal, Literal.value]

theorem sumMags_ones (n : Nat) (acc : ℝ) : sumMags numReal acc (List.replicate n 1) = acc + n := by
  induction n generalizing acc with
  | zero => simp [sumMags]
  | succ n ih =>
    rw [List.replicate_succ, sumMags, ih]
    simp only [numReal]
    push_cast
    ring

theorem witness_RealFlatnessRange :
    (List.replicate 63 (1 : ℝ)).length = 63 ∧ (∀ m ∈ List.replicate 63 (1 : ℝ), 0 ≤ m) ∧
      0 < arithMean numReal (List.replicate 63 1) := by
  refine ⟨List.length_replicate, ?_, ?_⟩
  · intro m hm
    rw [List.eq_of_mem_replicate hm]
    norm_num
  · rw [arithMean, sumMags_ones]
    norm_num [numReal, Literal.value]

theorem witness_RealFeaturesUnderGain : (0 : ℝ) < 2 := by norm_num

/-- Every clause, at the runs where the second and third meet. -/
theorem witness_HysteresisRule :
    ({ State.reset with isVoice := true } : State).isVoice = true ∧
    (({ State.reset with silCnt := 3 } : State).isVoice = false ∧ ({ State.reset with silCnt := 3 } : State).silCnt ≤ 3) ∧
    (({ State.reset with silCnt := 4 } : State).isVoice = false ∧ 4 ≤ ({ State.reset with silCnt := 4 } : State).silCnt) := by
  decide +kernel

/-- A state just after a voice frame, and the run of five. -/
theorem witness_HangOverIsFiveFrames :
    ({ State.reset with voice := true } : State).voice = true ∧ ({ State.reset with voice := true } : State).silCnt = 0 ∧
      (silentFrames 4 { State.reset with voice := true }).voice = true ∧
      (silentFrames 5 { State.reset with voice := true }).voice = false := by decide +kernel

theorem witness_StepKeepsVadTie :
    VadOk { atStage seqHyst with voice := true, silCnt := 4 } ∧
      step { atStage seqHyst with voice := true, silCnt := 4 } =
        .next (doHyst { atStage seqHyst with voice := true, silCnt := 4 }) :=
  ⟨⟨fun _ => by decide, fun h => absurd h (by decide)⟩, rfl⟩

theorem witness_EmitQueuesMessages :
    ({ State.reset with trans := true } : State).halted = false ∧ State.reset.halted = false ∧
      State.reset.trans = false := by decide +kernel

theorem witness_StepKeepsOutputBounds :
    OutputOk (atStage seqEmit) ∧ step (atStage seqEmit) = .next (doEmit (atStage seqEmit)) := by
  refine ⟨⟨fun _ _ w hw => ?_, fun b hb => ?_, fun b hb => ?_⟩, rfl⟩
  · rw [List.eq_of_mem_replicate hw]
    unfold ClipBounded
    decide
  · exact absurd hb (List.not_mem_nil)
  · exact absurd hb (List.not_mem_nil)

/-- Both clauses: every value finite, and an infinite gain. -/
theorem witness_CheckGuardsEmission :
    (State.reset.halted = false ∧ (∀ w ∈ State.reset.frm.val, w.extractLsb' 23 8 ≠ 0xFF#8) ∧
      ∀ v ∈ [State.reset.hpXp, State.reset.hpYp, State.reset.lpY, State.reset.rms, State.reset.gain,
        State.reset.calSum, State.reset.nf], v.extractLsb' 52 11 ≠ 0x7FF#11) ∧
    (0x7FF0000000000000#64).extractLsb' 52 11 = 0x7FF#11 := by
  refine ⟨⟨rfl, fun w hw => ?_, by simp [State.reset, Literal.word]⟩, by decide⟩
  rw [List.eq_of_mem_replicate hw]
  decide

theorem witness_ResetEdgeAbandonsFrame : (assertReset (atStage seqDft)).rst = true := by decide

theorem witness_StepKeepsSequencer :
    SeqOk (atStage seqCheck) ∧ CauseOk (atStage seqCheck) ∧ WrOk (atStage seqCheck) ∧
      step (atStage seqCheck) = .next (doCheck (atStage seqCheck)) := by
  refine ⟨⟨by decide, by decide, fun h => absurd rfl h⟩, ⟨fun _ => rfl, fun h => absurd h (by decide)⟩, ?_, rfl⟩
  unfold WrOk
  decide

/-- The states that `WrOk` rules in at HANDOFF hold a full frame. -/
theorem witness_WrOk_at_handoff : WrOk { atStage seqHandoff with wr := 160 } := by
  unfold WrOk
  decide

theorem witness_HaltedForbidsOperations :
    haltedState.halted = true ∧ Instr.dft ≠ .reset ∧ Instr.dft ≠ .causeReserved := by decide +kernel

theorem witness_OnlyNamedStagesWrite :
    Instr.hyst.wf = true ∧ exec .hyst State.reset = .next (doHyst State.reset) ∧ Instr.hyst ≠ .reset :=
  ⟨rfl, rfl, by decide⟩

theorem witness_RoundingIsNearestEven : 1 ≤ 52 ∧ 0 < 3 ∧ 1 ≤ 1 := by decide

/-- Operands of every clause: a sum that is not zero and one that is, divisors that are not zero and that are. -/
theorem witness_ArithmeticRoundsExactly :
    finite64 0x3FF0000000000000#64 = true ∧ finite64 0xBFF0000000000000#64 = true ∧
      real64 0x3FF0000000000000#64 + real64 0xBFF0000000000000#64 = 0 ∧ real64 0x3FF0000000000000#64 ≠ 0 ∧
      finite64 0x8000000000000000#64 = true ∧ real64 0x8000000000000000#64 = 0 := by
  have h1 : value64 0x3FF0000000000000#64 = 2 ^ 1074 := by decide +kernel
  have h2 : value64 0xBFF0000000000000#64 = -2 ^ 1074 := by decide +kernel
  have h3 : value64 0x8000000000000000#64 = 0 := by decide +kernel
  refine ⟨by decide, by decide, ?_, ?_, by decide, ?_⟩
  · simp only [real64, h1, h2]
    push_cast
    ring
  · simp [real64, h1]
  · simp [real64, h3]

theorem witness_RootsAndConversionsRoundExactly :
    finite64 0x8000000000000000#64 = true ∧ 0 ≤ real64 0x8000000000000000#64 := by
  have h3 : value64 0x8000000000000000#64 = 0 := by decide +kernel
  exact ⟨by decide, by simp [real64, h3]⟩

/-- A finite word, an infinity of each sign, a NaN and a negative word that is not zero. -/
theorem witness_ComparisonsAndSpecialOperands :
    finite64 0x3FF0000000000000#64 = true ∧ isInf64 0x7FF0000000000000#64 = true ∧
      isInf64 0xFFF0000000000000#64 = true ∧ isNan64 0x7FF0000000000001#64 = true ∧
      (isNan64 0xBFF0000000000000#64 = false ∧ neg64 0xBFF0000000000000#64 = true ∧
        code64 0xBFF0000000000000#64 ≠ 0) := by decide

theorem witness_WideningIsExact : finite32 0x80000001#32 = true ∧ finite32 0x7F7FFFFF#32 = true := by decide

/-- R9: on S too `-0 == +0` and a comparison with a NaN is false. -/
theorem test_storage_comparisons :
    (eq32 0x80000000#32 0#32, lt32 0xBF800000#32 0x80000001#32, le32 0x7FC00000#32 0x7FC00000#32) =
      (true, true, false) := by decide

/-- R143: the sign of the second operand is dropped, all other bits stay. -/
theorem test_magnitude : magnitude64 0xC008000000000000#64 = 0x4008000000000000#64 := by decide

/-- Operands of each clause at its boundary: a zero second operand of either sign; magnitudes that meet (0 and the least
subnormal, the greatest finite word with itself); `ln` of the least subnormal and of 1; `exp` of the two zeros and of the
greatest finite word. -/
theorem witness_ElementaryFunctionLaws :
    (finite64 0xBFF0000000000000#64 = true ∧ code64 0x8000000000000000#64 = 0) ∧
      (finite64 0xFFEFFFFFFFFFFFFF#64 = true ∧ finite64 1#64 = true ∧
        neg64 0x8000000000000000#64 = neg64 0xFFEFFFFFFFFFFFFF#64 ∧
        code64 0x8000000000000000#64 ≤ code64 0xFFEFFFFFFFFFFFFF#64 ∧ code64 0#64 ≤ code64 1#64) ∧
      (finite64 0x3FF0000000000000#64 = true ∧ neg64 1#64 = false ∧ neg64 0x3FF0000000000000#64 = false ∧
        code64 1#64 ≠ 0 ∧ code64 1#64 ≤ code64 0x3FF0000000000000#64) ∧
      (finite64 0x8000000000000000#64 = true ∧ finite64 0x7FEFFFFFFFFFFFFF#64 = true ∧
        le64 0x8000000000000000#64 0#64 = true ∧ le64 0#64 0x7FEFFFFFFFFFFFFF#64 = true) := by decide

/-- D35: a unit of 2^-1074 on each side of `ln 1 = 0`, from the exact value. -/
theorem test_ln_span_of_one : lnSpan (units64 0x3FF0000000000000#64) = (-1, 1) := by decide +kernel

/-- D35: `hypot(3, 4)` is 5 or a neighbour of 5. -/
theorem test_hypot_span : hypotSpan 0x4008000000000000#64 0x4010000000000000#64 =
    (0x4013FFFFFFFFFFFF, 0x4014000000000001) := by decide +kernel

/-- D35: `e` = 2.71828182845904523536... lies between the two words that `exp(1)` may be. -/
theorem test_exp_span_of_one : expSpan (value64 0x3FF0000000000000#64) = (0x4005BF0A8B145769, 0x4005BF0A8B14576A) := by
  decide +kernel

/-- D35: `ln 2` = 0.69314718055994530941... lies between the two words that `ln(2)` may be. -/
theorem test_ln_span_of_two : lnSpan (units64 0x4000000000000000#64) = (0x3FE62E42FEFA39EF, 0x3FE62E42FEFA39F0) := by
  decide +kernel

end Sys2Proof.Tests
end

section
/-! The rounding function: the units of a code rise with the code, and `codeOfRatio` answers the code nearest to the
ratio, ties to even (00_scope.md R9, log 24). -/

namespace Sys2Proof.Machine

/-! ## Units of a code -/

/-- The mantissa `k` over the last place `e`: a code is `e * 2^f + k`, where `k` has its leading bit, or `e` is 0. -/
theorem unitsOfCode_of_mantissa {f e k : Nat} (hk : k ≤ 2 ^ (f + 1)) (he : e = 0 ∨ 2 ^ f ≤ k) :
    unitsOfCode f (e * 2 ^ f + k) = k * 2 ^ e := by
  have hf : 0 < 2 ^ f := by positivity
  rw [pow_succ] at hk
  have hdiv : (e * 2 ^ f + k) / 2 ^ f = e + k / 2 ^ f := by rw [mul_comm, Nat.mul_add_div hf]
  have hmod : (e * 2 ^ f + k) % 2 ^ f = k % 2 ^ f := by rw [Nat.mul_add_mod']
  rw [unitsOfCode, hdiv, hmod]
  rcases lt_trichotomy k (2 ^ f) with hlt | rfl | hgt
  · have he0 : e = 0 := by omega
    simp [he0, Nat.div_eq_of_lt hlt]
  · simp [Nat.div_self hf]
  · rcases hk.lt_or_eq with hlt | rfl
    · have hq : k / 2 ^ f = 1 := by rw [Nat.div_eq_iff hf]; omega
      have hr : 2 ^ f + k % 2 ^ f = k := by have := Nat.div_add_mod k (2 ^ f); rw [hq] at this; omega
      simp [hq, hr]
    · simp [pow_succ]
      ring

/-- Every code is a mantissa over a last place. -/
theorem exists_mantissa (f c : Nat) :
    ∃ k, c = (c / 2 ^ f - 1) * 2 ^ f + k ∧ k + 1 ≤ 2 ^ (f + 1) ∧ (c / 2 ^ f - 1 = 0 ∨ 2 ^ f ≤ k) := by
  have hf : 0 < 2 ^ f := by positivity
  have hsplit := Nat.div_add_mod c (2 ^ f)
  have hmod := Nat.mod_lt c hf
  rw [pow_succ]
  rcases Nat.eq_zero_or_eq_succ_pred (c / 2 ^ f) with h | h
  · exact ⟨c, by simp [h], by rw [h] at hsplit; omega, .inl (by simp [h])⟩
  · refine ⟨2 ^ f + c % 2 ^ f, ?_, by omega, .inr (by omega)⟩
    rw [h] at hsplit ⊢
    simp only [Nat.succ_eq_add_one, Nat.add_sub_cancel]
    linarith

/-- The distance from a code to the next. -/
theorem unitsOfCode_succ (f c : Nat) : unitsOfCode f (c + 1) = unitsOfCode f c + 2 ^ (c / 2 ^ f - 1) := by
  obtain ⟨k, hc, hk, he⟩ := exists_mantissa f c
  generalize c / 2 ^ f - 1 = e at *
  subst hc
  rw [add_assoc, unitsOfCode_of_mantissa hk (by omega), unitsOfCode_of_mantissa (by omega) he]
  ring

theorem unitsOfCode_strictMono (f : Nat) : StrictMono (unitsOfCode f) :=
  strictMono_nat_of_lt_succ fun c => by
    rw [unitsOfCode_succ]
    exact Nat.lt_add_of_pos_right (by positivity)

@[simp] theorem unitsOfCode_zero (f : Nat) : unitsOfCode f 0 = 0 := by simp [unitsOfCode]

theorem unitsOfCode_eq_zero {f c : Nat} : unitsOfCode f c = 0 ↔ c = 0 := by
  simpa using (unitsOfCode_strictMono f).injective.eq_iff (a := c) (b := 0)

/-- Every mantissa of at most `f + 1` bits over every last place is the units of a code. -/
theorem exists_code_of_mantissa {f k : Nat} (hk : k ≤ 2 ^ (f + 1)) (e : Nat) : ∃ c, unitsOfCode f c = k * 2 ^ e := by
  induction e generalizing k with
  | zero => exact ⟨0 * 2 ^ f + k, unitsOfCode_of_mantissa hk (.inl rfl)⟩
  | succ e ih =>
    rcases le_total (2 ^ f) k with h | h
    · exact ⟨_, unitsOfCode_of_mantissa hk (.inr h)⟩
    · obtain ⟨c, hc⟩ := ih (k := 2 * k) (by rw [pow_succ]; omega)
      exact ⟨c, by rw [hc]; ring⟩

/-! ## The code nearest to a real number of units -/

/-- No magnitude code is closer to `x` units than `c`, and where another is as close, `c` is even. -/
def NearestCode (f : Nat) (x : ℝ) (c : Nat) : Prop :=
  ∀ d, |(unitsOfCode f c : ℝ) - x| ≤ |(unitsOfCode f d : ℝ) - x| ∧
    (|(unitsOfCode f c : ℝ) - x| = |(unitsOfCode f d : ℝ) - x| → d ≠ c → c % 2 = 0)

theorem unitsOfCode_cast_lt {f c d : Nat} (h : c < d) : (unitsOfCode f c : ℝ) < unitsOfCode f d :=
  Nat.cast_lt.2 (unitsOfCode_strictMono f h)

theorem unitsOfCode_cast_le {f c d : Nat} (h : c ≤ d) : (unitsOfCode f c : ℝ) ≤ unitsOfCode f d :=
  Nat.cast_le.2 ((unitsOfCode_strictMono f).monotone h)

/-- Between two neighbours and not beyond their midpoint the lower one is nearest. -/
theorem nearestCode_of_le_mid {f c : Nat} {x : ℝ} (hlo : (unitsOfCode f c : ℝ) ≤ x)
    (hmid : 2 * x ≤ unitsOfCode f c + unitsOfCode f (c + 1))
    (heven : 2 * x = unitsOfCode f c + unitsOfCode f (c + 1) → c % 2 = 0) : NearestCode f x c := by
  intro d
  rw [abs_of_nonpos (sub_nonpos.2 hlo)]
  rcases lt_trichotomy d c with h | rfl | h
  · have hd := unitsOfCode_cast_lt (f := f) h
    rw [abs_of_nonpos (by linarith)]
    exact ⟨by linarith, fun he => by linarith⟩
  · exact ⟨by rw [abs_of_nonpos (sub_nonpos.2 hlo)], fun _ hne => absurd rfl hne⟩
  · have hd := unitsOfCode_cast_le (f := f) (Nat.succ_le_of_lt h)
    have habs := le_abs_self ((unitsOfCode f d : ℝ) - x)
    exact ⟨by linarith, fun he _ => heven (by linarith)⟩

/-- Between two neighbours and not below their midpoint the upper one is nearest. -/
theorem nearestCode_of_mid_le {f c : Nat} {x : ℝ} (hhi : x ≤ unitsOfCode f (c + 1))
    (hmid : unitsOfCode f c + unitsOfCode f (c + 1) ≤ 2 * x)
    (heven : 2 * x = unitsOfCode f c + unitsOfCode f (c + 1) → (c + 1) % 2 = 0) : NearestCode f x (c + 1) := by
  intro d
  rw [abs_of_nonneg (sub_nonneg.2 hhi)]
  rcases lt_trichotomy d (c + 1) with h | rfl | h
  · have hd := unitsOfCode_cast_le (f := f) (Nat.le_of_lt_succ h)
    have habs := neg_abs_le ((unitsOfCode f d : ℝ) - x)
    exact ⟨by linarith, fun he _ => heven (by linarith)⟩
  · exact ⟨by rw [abs_of_nonneg (sub_nonneg.2 hhi)], fun _ hne => absurd rfl hne⟩
  · have hd := unitsOfCode_cast_lt (f := f) h
    rw [abs_of_nonneg (by linarith)]
    exact ⟨by linarith, fun he => by linarith⟩

/-- Below the midpoint of `b` and the next code, the nearest code is at most `b`. -/
theorem NearestCode.le_of_lt_mid {f c b : Nat} {x : ℝ} (h : NearestCode f x c)
    (hx : 2 * x < unitsOfCode f b + unitsOfCode f (b + 1)) : c ≤ b := by
  by_contra hb
  have hc := unitsOfCode_cast_le (f := f) (Nat.succ_le_of_lt (not_le.1 hb))
  have hlt := unitsOfCode_cast_lt (f := f) b.lt_succ_self
  have hab := (h b).1
  have hle := le_abs_self ((unitsOfCode f c : ℝ) - x)
  rcases abs_cases ((unitsOfCode f b : ℝ) - x) with ⟨heq, -⟩ | ⟨heq, -⟩ <;> linarith

/-- From the midpoint of an odd `b` and the next code on, the nearest code is above `b`. -/
theorem NearestCode.lt_of_mid_le {f c b : Nat} {x : ℝ} (h : NearestCode f x c) (hb : b % 2 = 1)
    (hx : unitsOfCode f b + unitsOfCode f (b + 1) ≤ 2 * x) : b < c := by
  by_contra hc
  have hlt := unitsOfCode_cast_lt (f := f) b.lt_succ_self
  have hcb := unitsOfCode_cast_le (f := f) (not_lt.1 hc)
  obtain ⟨hle, heven⟩ := h (b + 1)
  have hab := neg_abs_le ((unitsOfCode f c : ℝ) - x)
  have hmid : |(unitsOfCode f (b + 1) : ℝ) - x| ≤ x - unitsOfCode f b := abs_le.2 ⟨by linarith, by linarith⟩
  have hcb' : (unitsOfCode f c : ℝ) = unitsOfCode f b := by linarith
  have hceq : c = b := (unitsOfCode_strictMono f).injective (by exact_mod_cast hcb')
  have := heven (by linarith) (by omega)
  omega

/-- The units of a code have that code as their only nearest one. -/
theorem NearestCode.eq_of_units {f c d : Nat} (h : NearestCode f (unitsOfCode f d) c) : c = d := by
  have h0 : |(unitsOfCode f c : ℝ) - unitsOfCode f d| ≤ 0 := by simpa using (h d).1
  exact (unitsOfCode_strictMono f).injective (by exact_mod_cast sub_eq_zero.1 (abs_nonpos_iff.1 h0))

/-! ## `codeOfRatio` -/

/-- The integer part of a ratio over its last place has at most `f + 1` bits, and exactly so many unless the last place
is the least. -/
theorem lastPlace_mantissa (f p q : Nat) :
    p / (q * 2 ^ lastPlace f p q) + 1 ≤ 2 ^ (f + 1) ∧
      (lastPlace f p q = 0 ∨ 2 ^ f ≤ p / (q * 2 ^ lastPlace f p q)) := by
  rw [← Nat.div_div_eq_div_mul]
  have hl : lastPlace f p q = Nat.log2 (p / q) + 1 - (f + 1) := rfl
  generalize lastPlace f p q = l at *
  constructor
  · rw [Nat.succ_le_iff, Nat.div_lt_iff_lt_mul (by positivity), ← pow_add]
    exact Nat.lt_log2_self.trans_le (Nat.pow_le_pow_right (by decide) (by omega))
  · rcases Nat.eq_zero_or_pos l with h0 | hpos
    · exact .inl h0
    · have hne : p / q ≠ 0 := by
        intro h0
        have : Nat.log2 0 = 0 := by decide
        rw [h0] at hl
        omega
      right
      rw [Nat.le_div_iff_mul_le (by positivity), ← pow_add]
      exact (Nat.pow_le_pow_right (by decide) (by omega)).trans (Nat.log2_self_le hne)

/-- The units of the code below a ratio and of the next. -/
theorem units_around_ratio (f p q : Nat) :
    (unitsOfCode f (lastPlace f p q * 2 ^ f + p / (q * 2 ^ lastPlace f p q)) : ℝ) =
        (p / (q * 2 ^ lastPlace f p q) : Nat) * 2 ^ lastPlace f p q ∧
      (unitsOfCode f (lastPlace f p q * 2 ^ f + p / (q * 2 ^ lastPlace f p q) + 1) : ℝ) =
        ((p / (q * 2 ^ lastPlace f p q) : Nat) + 1) * 2 ^ lastPlace f p q := by
  obtain ⟨hk, he⟩ := lastPlace_mantissa f p q
  rw [add_assoc, unitsOfCode_of_mantissa (by omega) he, unitsOfCode_of_mantissa hk (by omega)]
  constructor <;> push_cast <;> rfl

/-- `codeOfRatio` is nearest to every real number that lies as the ratio does to the halves of its last place. -/
theorem nearestCode_of_halves {f p q : Nat} (hf : 1 ≤ f) (hq : 0 < q) {x : ℝ}
    (hcmp : ∀ k : Nat, (k * 2 ^ lastPlace f p q < 2 * x ↔ k * (q * 2 ^ lastPlace f p q) < 2 * p) ∧
      (2 * x < k * 2 ^ lastPlace f p q ↔ 2 * p < k * (q * 2 ^ lastPlace f p q))) :
    NearestCode f x (codeOfRatio f p q) := by
  obtain ⟨hlo, hhi⟩ := units_around_ratio f p q
  rw [codeOfRatio, divNearestEven]
  generalize lastPlace f p q = l at *
  have hQ : 0 < q * 2 ^ l := by positivity
  generalize q * 2 ^ l = Q at *
  have hdiv := Nat.div_add_mod p Q
  have hmod := Nat.mod_lt p hQ
  have heven : 2 ∣ l * 2 ^ f := Dvd.dvd.mul_left (dvd_pow_self 2 (by omega)) l
  generalize p / Q = k at *
  generalize p % Q = r at *
  obtain ⟨-, hlow⟩ := hcmp (2 * k)
  obtain ⟨hmid1, hmid2⟩ := hcmp (2 * k + 1)
  obtain ⟨hhigh, -⟩ := hcmp (2 * k + 2)
  push_cast at hlow hmid1 hmid2 hhigh
  split
  · rename_i hup
    rw [← add_assoc]
    refine nearestCode_of_mid_le ?_ ?_ fun htie => ?_
    · have : ¬ (2 * k + 2) * 2 ^ l < 2 * x := hhigh.not.2 (by nlinarith)
      rw [hhi]; linarith
    · have : ¬ 2 * x < (2 * k + 1) * 2 ^ l := hmid2.not.2 (by rcases hup with h | h <;> nlinarith)
      rw [hlo, hhi]; linarith
    · have : ¬ (2 * k + 1) * Q < 2 * p := hmid1.not.1 (by rw [htie, hlo, hhi]; linarith)
      have : ¬ Q < 2 * r := by intro h; nlinarith
      omega
  · rename_i hdown
    have hr : 2 * r ≤ Q := by omega
    refine nearestCode_of_le_mid ?_ ?_ fun htie => ?_
    · have : ¬ 2 * x < 2 * k * 2 ^ l := hlow.not.2 (by nlinarith)
      rw [hlo]; linarith
    · have : ¬ (2 * k + 1) * 2 ^ l < 2 * x := hmid1.not.2 (by nlinarith)
      rw [hlo, hhi]; linarith
    · have : ¬ 2 * p < (2 * k + 1) * Q := hmid2.not.1 (by rw [htie, hlo, hhi]; linarith)
      have : ¬ 2 * r < Q := by intro h; nlinarith
      omega

/-- `codeOfRatio` is nearest to the ratio. -/
theorem nearestCode_codeOfRatio {f p q : Nat} (hf : 1 ≤ f) (hq : 0 < q) :
    NearestCode f ((p : ℝ) / q) (codeOfRatio f p q) := by
  have hq' : (0 : ℝ) < q := Nat.cast_pos.2 hq
  refine nearestCode_of_halves hf hq fun k => ⟨?_, ?_⟩
  · rw [← mul_div_assoc, lt_div_iff₀ hq', ← Nat.cast_lt (α := ℝ)]
    push_cast
    ring_nf
  · rw [← mul_div_assoc, div_lt_iff₀ hq', ← Nat.cast_lt (α := ℝ)]
    push_cast
    ring_nf

/-- A ratio that is the units of a code rounds to that code. -/
theorem codeOfRatio_of_exact {f p q c : Nat} (hf : 1 ≤ f) (hq : 0 < q) (h : p = unitsOfCode f c * q) :
    codeOfRatio f p q = c := by
  have hn := nearestCode_codeOfRatio (p := p) hf hq
  have hx : (p : ℝ) / q = unitsOfCode f c := by
    rw [h, Nat.cast_mul, mul_div_cancel_right₀ _ (by positivity)]
  rw [hx] at hn
  exact hn.eq_of_units

/-- The distance of a code from a ratio, as a natural number over the divisor. -/
theorem abs_units_sub_ratio {q : Nat} (hq : 0 < q) (u p : Nat) :
    |(u : ℝ) - p / q| = (((u * q : Int) - p).natAbs : ℝ) / q := by
  have hq' : (0 : ℝ) < q := Nat.cast_pos.2 hq
  rw [Nat.cast_natAbs, Int.cast_abs, eq_div_iff hq'.ne', ← abs_of_pos hq', ← abs_mul, abs_of_pos hq', sub_mul,
    div_mul_cancel₀ _ hq'.ne']
  push_cast
  rfl

/-- Settles O52: the distances of `NearestCode`, cleared of the divisor. -/
theorem roundingIsNearestEven : Obligations.RoundingIsNearestEven := by
  intro f p q c hf hq
  obtain ⟨hle, heven⟩ := nearestCode_codeOfRatio (p := p) hf hq c
  have hq' : (0 : ℝ) < q := Nat.cast_pos.2 hq
  rw [abs_units_sub_ratio hq, abs_units_sub_ratio hq, div_le_div_iff_of_pos_right hq', Nat.cast_le] at hle
  rw [abs_units_sub_ratio hq, abs_units_sub_ratio hq, div_left_inj' hq'.ne', Nat.cast_inj] at heven
  exact ⟨hle, heven⟩

end Sys2Proof.Machine
end

section
/-! The integer root, the widening of binary32 words, and the words of the literals (00_scope.md R5, R6, R9). -/

namespace Sys2Proof.Machine

/-! ## The integer square root -/

/-- The digit-by-digit root is the floor: `2r` and `2r + 1` are the candidates when `r` is the root of `m / 4`. -/
theorem isqrtGo_floor {n m : Nat} (h : m < 4 ^ n) :
    isqrtGo n m * isqrtGo n m ≤ m ∧ m < (isqrtGo n m + 1) * (isqrtGo n m + 1) := by
  induction n generalizing m with
  | zero => simp [isqrtGo]; omega
  | succ n ih =>
    obtain ⟨hlo, hhi⟩ := ih (m := m / 4) (by rw [pow_succ] at h; omega)
    rw [isqrtGo]
    generalize isqrtGo n (m / 4) = r at *
    have hlo4 : 4 * (r * r) ≤ m := by omega
    have hhi4 : m < 4 * ((r + 1) * (r + 1)) := by omega
    split
    · exact ⟨‹_›, by nlinarith⟩
    · exact ⟨by nlinarith, by omega⟩

theorem isqrt_floor (m : Nat) : isqrt m * isqrt m ≤ m ∧ m < (isqrt m + 1) * (isqrt m + 1) := by
  refine isqrtGo_floor (Nat.lt_log2_self.trans_le ?_)
  rw [show 4 = 2 ^ 2 by rfl, ← pow_mul]
  exact Nat.pow_le_pow_right (by decide) (by omega)

/-- Settles O54: `isqrt` has enough digits for its operand. -/
theorem integerRootIsFloor : Obligations.IntegerRootIsFloor := isqrt_floor

/-! ## Literals -/

/-- Settles O55: each of the 19 words, by the model's rounding. -/
theorem literalsAreNearest : Obligations.LiteralsAreNearest := by
  unfold Obligations.LiteralsAreNearest
  decide +kernel

/-! ## Finite words -/

theorem isNan64_of_finite {w : F64} (h : finite64 w = true) : isNan64 w = false := by
  simp [isNan64, ((finite64_iff w).1 h).le]

theorem isInf64_of_finite {w : F64} (h : finite64 w = true) : isInf64 w = false := by
  simp [isInf64, ((finite64_iff w).1 h).ne]

theorem isNan32_of_finite {w : F32} (h : finite32 w = true) : isNan32 w = false := by
  simp [isNan32, ((finite32_iff w).1 h).le]

/-- A binary32 word that is no NaN is the pack of its sign and code. -/
theorem pack32_self (w : F32) (h : isNan32 w = false) : pack32 (neg32 w) (code32 w) = w := by
  have hc : code32 w ≤ infCode32 := by simpa [isNan32] using h
  have hw := w.isLt
  have hm : (if neg32 w then 2 ^ 31 else 0) + code32 w = w.toNat := by
    unfold neg32 code32
    rw [BitVec.msb_eq_decide]
    by_cases hs : 2 ^ (32 - 1) ≤ w.toNat <;> simp only [hs, decide_true, decide_false] <;> simp <;> omega
  apply BitVec.eq_of_toNat_eq
  rw [pack32, BitVec.toNat_ofNat, Nat.min_eq_left hc, hm, Nat.mod_eq_of_lt hw]

/-! ## The widening -/

/-- The codes whose mantissa is the leading bit alone have powers of two as their units. -/
theorem unitsOfCode_binade (f e : Nat) : unitsOfCode f ((e + 1) * 2 ^ f) = 2 ^ (f + e) := by
  rw [Nat.succ_mul, unitsOfCode_of_mantissa (Nat.pow_le_pow_right two_pos f.le_succ) (.inr le_rfl), pow_add]

theorem unitsOfCode_infCode64 : unitsOfCode 52 infCode64 = 2 ^ 2098 := by
  rw [show infCode64 = (2046 + 1) * 2 ^ 52 from rfl, unitsOfCode_binade]

theorem unitsOfCode_infCode32 : unitsOfCode 23 infCode32 = 2 ^ 277 := by
  rw [show infCode32 = (254 + 1) * 2 ^ 23 from rfl, unitsOfCode_binade]

/-- A code is below infinity's exactly when its units are below the first that overflow. -/
theorem lt_infCode64_iff {c : Nat} : c < infCode64 ↔ unitsOfCode 52 c < 2 ^ 2098 := by
  rw [← unitsOfCode_infCode64, (unitsOfCode_strictMono 52).lt_iff_lt]

/-- The units of a finite binary32 code are the units of a finite binary64 code. -/
theorem exists_widened_code {c : Nat} (h : c < infCode32) :
    ∃ d, d < infCode64 ∧ unitsOfCode 52 d = unitsOfCode 23 c * 2 ^ 925 := by
  obtain ⟨k, hc, hk, he⟩ := exists_mantissa 23 c
  have hu : unitsOfCode 23 c = k * 2 ^ (c / 2 ^ 23 - 1) := by
    conv_lhs => rw [hc]
    exact unitsOfCode_of_mantissa (by omega) he
  obtain ⟨d, hd⟩ := exists_code_of_mantissa (f := 52) (k := k) (hk := by omega) (c / 2 ^ 23 - 1 + 925)
  have hdu : unitsOfCode 52 d = unitsOfCode 23 c * 2 ^ 925 := by rw [hd, hu, pow_add, mul_assoc]
  have hlt : unitsOfCode 23 c < 2 ^ 277 := unitsOfCode_infCode32 ▸ unitsOfCode_strictMono 23 h
  refine ⟨d, lt_infCode64_iff.2 ?_, hdu⟩
  calc unitsOfCode 52 d = unitsOfCode 23 c * 2 ^ 925 := hdu
    _ < 2 ^ 277 * 2 ^ 925 := Nat.mul_lt_mul_of_pos_right hlt (by positivity)
    _ = 2 ^ (277 + 925) := (pow_add 2 277 925).symm
    _ ≤ 2 ^ 2098 := by gcongr <;> decide

/-- The code of a widened code: infinity's for infinity's, else that of the same units. -/
def widenCode (c : Nat) : Nat := if c = infCode32 then infCode64 else codeOfRatio 52 (unitsOfCode 23 c * 2 ^ 925) 1

theorem widenCode_infCode32 : widenCode infCode32 = infCode64 := by simp [widenCode]

/-- Widening a finite code keeps its value. -/
theorem widenCode_of_finite {c : Nat} (h : c < infCode32) :
    widenCode c < infCode64 ∧ unitsOfCode 52 (widenCode c) = unitsOfCode 23 c * 2 ^ 925 := by
  obtain ⟨d, hd, hu⟩ := exists_widened_code h
  have : widenCode c = d := by
    rw [widenCode, if_neg h.ne]
    exact codeOfRatio_of_exact (by decide) (by decide) (by rw [hu, mul_one])
  exact this ▸ ⟨hd, hu⟩

/-- `ld64` of a word that is no NaN. -/
theorem ld64_of_not_nan {w : F32} (h : isNan32 w = false) : ld64 w = pack64 (neg32 w) (widenCode (code32 w)) := by
  rw [ld64, h, widenCode]
  by_cases hi : code32 w = infCode32
  · simp [isInf32, hi]
  · simp only [isInf32, hi, beq_iff_eq, if_false, Bool.false_eq_true, round64, units32]

theorem neg64_ld64 {w : F32} (h : isNan32 w = false) : neg64 (ld64 w) = neg32 w := by
  rw [ld64_of_not_nan h, neg64_pack64]

theorem code64_ld64 {w : F32} (h : isNan32 w = false) : code64 (ld64 w) = widenCode (code32 w) := by
  have hc : code32 w ≤ infCode32 := by simpa [isNan32] using h
  rw [ld64_of_not_nan h, code64_pack64, Nat.min_eq_left]
  rcases hc.lt_or_eq with hlt | heq
  · exact (widenCode_of_finite hlt).1.le
  · rw [heq, widenCode_infCode32]

theorem finite64_ld64 {w : F32} (h : finite32 w = true) : finite64 (ld64 w) = true := by
  rw [finite64_iff, code64_ld64 (isNan32_of_finite h)]
  exact (widenCode_of_finite ((finite32_iff w).1 h)).1

theorem units64_ld64 {w : F32} (h : finite32 w = true) : units64 (ld64 w) = units32 w * 2 ^ 925 := by
  rw [units64, code64_ld64 (isNan32_of_finite h)]
  exact (widenCode_of_finite ((finite32_iff w).1 h)).2

/-- `st32` of a finite word. -/
theorem st32_of_finite {w : F64} (h : finite64 w = true) :
    st32 w = pack32 (neg64 w) (codeOfRatio 23 (units64 w) (2 ^ 925)) := by
  simp only [st32, isNan64_of_finite h, isInf64_of_finite h, Bool.false_eq_true, if_false]

theorem st32_ld64 {w : F32} (h : finite32 w = true) : st32 (ld64 w) = w := by
  have hn := isNan32_of_finite h
  rw [st32_of_finite (finite64_ld64 h), neg64_ld64 hn, units64_ld64 h, units32,
    codeOfRatio_of_exact (c := code32 w) (by decide) (by positivity) rfl, pack32_self w hn]

/-- Settles O53: the units of a binary32 code are those of a binary64 code, and both roundings find the exact code. -/
theorem wideningIsExact : Obligations.WideningIsExact := fun _ h =>
  ⟨finite64_ld64 h, neg64_ld64 (isNan32_of_finite h), units64_ld64 h, st32_ld64 h⟩

end Sys2Proof.Machine
end

section
/-! Sums, differences, products, quotients, roots and conversions of finite words answer the exact real value rounded
once (00_scope.md R9, R13; log 24). -/

namespace Sys2Proof.Machine

/-! ## A sign and a magnitude -/

/-- The integer of a sign and a magnitude. -/
def signed (neg : Bool) (n : Nat) : Int := if neg then -(n : Int) else n

theorem value64_eq_signed (w : F64) : value64 w = signed (neg64 w) (units64 w) := rfl

theorem key64_eq_signed (w : F64) : key64 w = signed (neg64 w) (code64 w) := rfl

@[simp] theorem signed_zero (neg : Bool) : signed neg 0 = 0 := by cases neg <;> rfl

@[simp] theorem natAbs_signed (neg : Bool) (n : Nat) : (signed neg n).natAbs = n := by cases neg <;> simp [signed]

theorem signed_not (neg : Bool) (n : Nat) : signed (!neg) n = -signed neg n := by cases neg <;> simp [signed]

theorem signed_eq_zero {neg : Bool} {n : Nat} : signed neg n = 0 ↔ n = 0 := by cases neg <;> simp [signed]

theorem real64_eq_signed (w : F64) : real64 w = (signed (neg64 w) (units64 w) : ℝ) / 2 ^ 1074 := rfl

theorem real32_eq_signed (w : F32) : real32 w = (signed (neg32 w) (units32 w) : ℝ) / 2 ^ 149 := by
  rw [real32, signed]
  cases neg32 w <;> simp

/-- The sign agrees with that of `x`; a zero may have either. -/
def SignAgrees (neg : Bool) (x : ℝ) : Prop := (x < 0 → neg = true) ∧ (0 < x → neg = false)

theorem signAgrees_zero (neg : Bool) : SignAgrees neg 0 :=
  ⟨fun h => absurd h (lt_irrefl _), fun h => absurd h (lt_irrefl _)⟩

theorem signAgrees_false {x : ℝ} : SignAgrees false x ↔ 0 ≤ x :=
  ⟨fun h => not_lt.1 fun hx => Bool.noConfusion (h.1 hx), fun h => ⟨fun hx => absurd h hx.not_ge, fun _ => rfl⟩⟩

theorem signAgrees_true {x : ℝ} : SignAgrees true x ↔ x ≤ 0 :=
  ⟨fun h => not_lt.1 fun hx => Bool.noConfusion (h.2 hx), fun h => ⟨fun _ => rfl, fun hx => absurd h hx.not_ge⟩⟩

theorem SignAgrees.mul {s t : Bool} {x y : ℝ} (hx : SignAgrees s x) (hy : SignAgrees t y) :
    SignAgrees (s != t) (x * y) := by
  cases s <;> cases t <;> simp only [signAgrees_false, signAgrees_true] at hx hy
  · exact signAgrees_false.2 (mul_nonneg hx hy)
  · exact signAgrees_true.2 (mul_nonpos_of_nonneg_of_nonpos hx hy)
  · exact signAgrees_true.2 (mul_nonpos_of_nonpos_of_nonneg hx hy)
  · exact signAgrees_false.2 (mul_nonneg_of_nonpos_of_nonpos hx hy)

theorem SignAgrees.inv {s : Bool} {x : ℝ} (hx : SignAgrees s x) : SignAgrees s x⁻¹ :=
  ⟨fun h => hx.1 (inv_lt_zero.1 h), fun h => hx.2 (inv_pos.1 h)⟩

theorem signAgrees_decide (v : Int) {x : ℝ} (h : (v < 0 ↔ x < 0)) : SignAgrees (decide (v < 0)) x :=
  ⟨fun hx => decide_eq_true (h.2 hx), fun hx => decide_eq_false fun hv => (h.1 hv).not_gt hx⟩

theorem signAgrees_signed_div (neg : Bool) (n : Nat) {s : ℝ} (hs : 0 < s) : SignAgrees neg ((signed neg n : ℝ) / s) := by
  have hn : (0 : ℝ) ≤ n / s := by positivity
  cases neg
  · exact signAgrees_false.2 (by simpa [signed] using hn)
  · exact signAgrees_true.2 (by simpa [signed, neg_div] using hn)

theorem abs_signed_sub {neg : Bool} {x : ℝ} (h : SignAgrees neg x) (u : Nat) :
    |(signed neg u : ℝ) - x| = |(u : ℝ) - (|x|)| := by
  cases neg
  · rw [abs_of_nonneg (signAgrees_false.1 h)]
    simp [signed]
  · rw [abs_of_nonpos (signAgrees_true.1 h), ← abs_neg]
    simp [signed, add_comm]

theorem abs_signed_not_sub {neg : Bool} {x : ℝ} (h : SignAgrees neg x) (u : Nat) :
    |(signed (!neg) u : ℝ) - x| = u + |x| := by
  have hu : (0 : ℝ) ≤ u := u.cast_nonneg
  cases neg
  · have hx := signAgrees_false.1 h
    rw [abs_of_nonneg hx, abs_of_nonpos] <;> simp [signed] <;> linarith
  · have hx := signAgrees_true.1 h
    rw [abs_of_nonpos hx, abs_of_nonneg] <;> simp [signed] <;> linarith

/-! ## The nearest word of either sign -/

/-- A magnitude code nearest to `|x|`, with the sign of `x`, is nearest among the codes of both signs: one of the other
sign is no closer than zero is. -/
theorem nearestCode_signed {f c : Nat} {neg : Bool} {x : ℝ} (h : NearestCode f |x| c) (hs : SignAgrees neg x)
    (neg' : Bool) (d : Nat) :
    |(signed neg (unitsOfCode f c) : ℝ) - x| ≤ |(signed neg' (unitsOfCode f d) : ℝ) - x| ∧
      (|(signed neg (unitsOfCode f c) : ℝ) - x| = |(signed neg' (unitsOfCode f d) : ℝ) - x| →
        (signed neg' (unitsOfCode f d) : ℝ) ≠ signed neg (unitsOfCode f c) → c % 2 = 0) := by
  rw [abs_signed_sub hs]
  rcases Bool.eq_or_eq_not neg' neg with rfl | rfl
  · rw [abs_signed_sub hs]
    exact ⟨(h d).1, fun he hne => (h d).2 he fun hd => hne (by rw [hd])⟩
  · rw [abs_signed_not_sub hs]
    obtain ⟨hle, heven⟩ := h 0
    have h0 : |(unitsOfCode f 0 : ℝ) - (|x|)| = |x| := by simp
    have hd : (0 : ℝ) ≤ unitsOfCode f d := Nat.cast_nonneg _
    rw [h0] at hle heven
    refine ⟨by linarith, fun he hne => heven (by linarith) fun hc => hne ?_⟩
    have hud : (unitsOfCode f d : ℝ) = 0 := by linarith
    rw [Nat.cast_eq_zero] at hud
    simp [hud, ← hc]

/-- The same for values, a unit being `1 / s`. -/
theorem nearestCode_signed_div {f c : Nat} {neg : Bool} {x s : ℝ} (hs : 0 < s) (h : NearestCode f (|x| * s) c)
    (hx : SignAgrees neg x) (neg' : Bool) (d : Nat) :
    |(signed neg (unitsOfCode f c) : ℝ) / s - x| ≤ |(signed neg' (unitsOfCode f d) : ℝ) / s - x| ∧
      (|(signed neg (unitsOfCode f c) : ℝ) / s - x| = |(signed neg' (unitsOfCode f d) : ℝ) / s - x| →
        (signed neg' (unitsOfCode f d) : ℝ) / s ≠ (signed neg (unitsOfCode f c) : ℝ) / s →
          c % 2 = 0) := by
  have hscale (v : ℝ) : |v / s - x| = |v - x * s| / s := by
    rw [← abs_of_pos hs, ← abs_div, abs_of_pos hs, sub_div, mul_div_cancel_right₀ _ hs.ne']
  have hx' : SignAgrees neg (x * s) :=
    ⟨fun hlt => hx.1 (neg_of_mul_neg_left hlt hs.le), fun hlt => hx.2 (pos_of_mul_pos_left hlt hs.le)⟩
  have h' : NearestCode f |x * s| c := by rwa [abs_mul, abs_of_pos hs]
  obtain ⟨hle, heven⟩ := nearestCode_signed h' hx' neg' d
  rw [hscale, hscale, div_le_div_iff_of_pos_right hs, div_left_inj' hs.ne', Ne, div_left_inj' hs.ne']
  exact ⟨hle, heven⟩

/-- The nearest code is beyond an odd code exactly from the midpoint above it on. -/
theorem NearestCode.lt_iff {f c b : Nat} {x : ℝ} (h : NearestCode f x c) (hb : b % 2 = 1) :
    b < c ↔ unitsOfCode f b + unitsOfCode f (b + 1) ≤ 2 * x :=
  ⟨fun hc => not_lt.1 fun hx => hc.not_ge (h.le_of_lt_mid hx), h.lt_of_mid_le hb⟩

/-! ## Rounding to a word -/

/-- The midpoint between a code and the next, from the units of the next one and half their distance. -/
theorem units_midpoint {f c e : Nat} {x s : ℝ} (he : c / 2 ^ f - 1 = 1 + e) (hx : (unitsOfCode f (c + 1) : ℝ) = x)
    (hs : 2 ^ e = s) : (unitsOfCode f c + unitsOfCode f (c + 1) : ℝ) = 2 * (x - s) := by
  have hstep : (unitsOfCode f (c + 1) : ℝ) = unitsOfCode f c + 2 * 2 ^ e := by
    rw [unitsOfCode_succ, he, pow_add, pow_one, Nat.cast_add, Nat.cast_mul, Nat.cast_pow, Nat.cast_ofNat]
  linarith

/-- The midpoint above the greatest finite binary64 value. -/
theorem overflow64_midpoint :
    (unitsOfCode 52 (infCode64 - 1) + unitsOfCode 52 infCode64 : ℝ) = 2 * ((2 ^ 1024 - 2 ^ 970) * 2 ^ 1074) := by
  rw [sub_mul, ← pow_add, ← pow_add]
  refine units_midpoint (c := infCode64 - 1) (by decide) ?_ rfl
  rw [show infCode64 - 1 + 1 = infCode64 from rfl, unitsOfCode_infCode64, Nat.cast_pow, Nat.cast_ofNat]

/-- The midpoint above the greatest finite binary32 value. -/
theorem overflow32_midpoint :
    (unitsOfCode 23 (infCode32 - 1) + unitsOfCode 23 infCode32 : ℝ) = 2 * ((2 ^ 128 - 2 ^ 103) * 2 ^ 149) := by
  rw [sub_mul, ← pow_add, ← pow_add]
  refine units_midpoint (c := infCode32 - 1) (by decide) ?_ rfl
  rw [show infCode32 - 1 + 1 = infCode32 from rfl, unitsOfCode_infCode32, Nat.cast_pow, Nat.cast_ofNat]

/-- The word of the code nearest to `|x|` and a sign that agrees with `x` is `x` rounded. -/
theorem roundedTo64_pack64 {x : ℝ} {neg : Bool} {c : Nat} (h : NearestCode 52 (|x| * 2 ^ 1074) c)
    (hx : SignAgrees neg x) : RoundedTo64 x (pack64 neg c) := by
  have hpow : (0 : ℝ) < 2 ^ 1074 := by positivity
  have hover : infCode64 ≤ c ↔ 2 ^ 1024 - 2 ^ 970 ≤ |x| := by
    have := h.lt_iff (b := infCode64 - 1) (by decide)
    rwa [show infCode64 - 1 + 1 = infCode64 from rfl, overflow64_midpoint, mul_le_mul_iff_right₀ two_pos,
      mul_le_mul_iff_left₀ hpow] at this
  refine ⟨fun hn => by simpa using hx.1 hn, fun hp => by simpa using hx.2 hp, fun ho => ?_, fun hf => ?_⟩
  · simpa [isInf64] using hover.2 ho
  · have hc : c < infCode64 := not_le.1 fun hc => hf.not_ge (hover.1 hc)
    have hcode : code64 (pack64 neg c) = c := by simpa using hc.le
    refine ⟨(finite64_iff _).2 (hcode.trans_lt hc), fun w _ => ?_⟩
    rw [real64_eq_signed, real64_eq_signed, units64, hcode, neg64_pack64]
    exact nearestCode_signed_div hpow h hx (neg64 w) (code64 w)

/-- The same for binary32. -/
theorem roundedTo32_pack32 {x : ℝ} {neg : Bool} {c : Nat} (h : NearestCode 23 (|x| * 2 ^ 149) c)
    (hx : SignAgrees neg x) : RoundedTo32 x (pack32 neg c) := by
  have hpow : (0 : ℝ) < 2 ^ 149 := by positivity
  have hover : infCode32 ≤ c ↔ 2 ^ 128 - 2 ^ 103 ≤ |x| := by
    have := h.lt_iff (b := infCode32 - 1) (by decide)
    rwa [show infCode32 - 1 + 1 = infCode32 from rfl, overflow32_midpoint, mul_le_mul_iff_right₀ two_pos,
      mul_le_mul_iff_left₀ hpow] at this
  refine ⟨fun hn => by simpa using hx.1 hn, fun hp => by simpa using hx.2 hp, fun ho => ?_, fun hf => ?_⟩
  · simpa [isInf32] using hover.2 ho
  · have hc : c < infCode32 := not_le.1 fun hc => hf.not_ge (hover.1 hc)
    have hcode : code32 (pack32 neg c) = c := by simpa using hc.le
    refine ⟨(finite32_iff _).2 (hcode.trans_lt hc), fun w _ => ?_⟩
    rw [real32_eq_signed, real32_eq_signed, units32, hcode, neg32_pack32]
    exact nearestCode_signed_div hpow h hx (neg32 w) (code32 w)

/-- `round64` of a ratio of units answers the ratio rounded. -/
theorem roundedTo64_round64 {x : ℝ} {neg : Bool} {p q : Nat} (hq : 0 < q) (hx : |x| * 2 ^ 1074 = p / q)
    (hs : SignAgrees neg x) : RoundedTo64 x (round64 neg p q) :=
  roundedTo64_pack64 (hx ▸ nearestCode_codeOfRatio (by decide) hq) hs

theorem roundedTo64_zero (neg : Bool) : RoundedTo64 0 (pack64 neg 0) :=
  roundedTo64_pack64 (fun _ => ⟨by simp, fun _ _ => rfl⟩) (signAgrees_zero neg)

@[simp] theorem neg64_round64 (neg : Bool) (p q : Nat) : neg64 (round64 neg p q) = neg := neg64_pack64 _ _

/-! ## The values of finite words -/

theorem abs_real64 (w : F64) : |real64 w| * 2 ^ 1074 = units64 w := by
  have hpow : (0 : ℝ) < 2 ^ 1074 := by positivity
  rw [real64_eq_signed, abs_div, abs_of_pos hpow, div_mul_cancel₀ _ hpow.ne', ← Int.cast_abs, Int.abs_eq_natAbs,
    natAbs_signed, Int.cast_natCast]

theorem units64_eq_zero {w : F64} : units64 w = 0 ↔ code64 w = 0 := unitsOfCode_eq_zero

theorem real64_eq_zero {w : F64} : real64 w = 0 ↔ code64 w = 0 := by
  rw [real64_eq_signed, div_eq_zero_iff, Int.cast_eq_zero, signed_eq_zero, units64_eq_zero, or_iff_left (by positivity)]

theorem signAgrees_real64 (w : F64) : SignAgrees (neg64 w) (real64 w) :=
  signAgrees_signed_div _ _ (by positivity)

@[simp] theorem neg64_negate64 (w : F64) : neg64 (negate64 w) = !neg64 w := by
  rw [neg64, negate64, BitVec.msb_xor, show (0x8000000000000000#64).msb = true by decide, Bool.xor_true, neg64]

theorem real64_negate64 (w : F64) : real64 (negate64 w) = -real64 w := by
  rw [real64_eq_signed, real64_eq_signed, neg64_negate64, units64, code64_negate64, signed_not, Int.cast_neg, neg_div]
  rfl

theorem finite64_negate64 (w : F64) : finite64 (negate64 w) = finite64 w := by simp [finite64]

theorem isNan64_negate64 (w : F64) : isNan64 (negate64 w) = isNan64 w := by simp [isNan64]

theorem isInf64_negate64 (w : F64) : isInf64 (negate64 w) = isInf64 w := by simp [isInf64]

/-! ## Sums -/

theorem real64_add (a b : F64) : real64 a + real64 b = ((value64 a + value64 b : Int) : ℝ) / 2 ^ 1074 := by
  rw [real64, real64, ← add_div, Int.cast_add]

/-- `add64` of finite words: the signed zero of an exact zero sum, else the sum rounded. -/
theorem add64_of_finite {a b : F64} (ha : finite64 a = true) (hb : finite64 b = true) :
    add64 a b = if value64 a + value64 b = 0 then pack64 (neg64 a && neg64 b) 0
      else round64 (decide (value64 a + value64 b < 0)) (value64 a + value64 b).natAbs 1 := by
  simp [add64, isNan64_of_finite ha, isNan64_of_finite hb, isInf64_of_finite ha, isInf64_of_finite hb]

theorem add64_rounds {a b : F64} (ha : finite64 a = true) (hb : finite64 b = true) :
    RoundedTo64 (real64 a + real64 b) (add64 a b) ∧
      (real64 a + real64 b = 0 → neg64 (add64 a b) = (neg64 a && neg64 b)) := by
  have hpow : (0 : ℝ) < 2 ^ 1074 := by positivity
  rw [real64_add, add64_of_finite ha hb]
  generalize value64 a + value64 b = v
  by_cases hv : v = 0
  · rw [if_pos hv, hv, Int.cast_zero, zero_div]
    exact ⟨roundedTo64_zero _, fun _ => neg64_pack64 _ _⟩
  · rw [if_neg hv]
    refine ⟨roundedTo64_round64 one_pos ?_ (signAgrees_decide v ?_), fun h0 => absurd h0 ?_⟩
    · rw [abs_div, abs_of_pos hpow, div_mul_cancel₀ _ hpow.ne', Nat.cast_one, div_one, Nat.cast_natAbs, Int.cast_abs]
    · rw [div_lt_iff₀ hpow, zero_mul, Int.cast_lt_zero]
    · exact div_ne_zero (Int.cast_ne_zero.2 hv) hpow.ne'

theorem sub64_rounds {a b : F64} (ha : finite64 a = true) (hb : finite64 b = true) :
    RoundedTo64 (real64 a - real64 b) (sub64 a b) ∧
      (real64 a - real64 b = 0 → neg64 (sub64 a b) = (neg64 a && !neg64 b)) := by
  have h := add64_rounds ha (b := negate64 b) (by rwa [finite64_negate64])
  rwa [real64_negate64, ← sub_eq_add_neg, neg64_negate64] at h

/-! ## Products and quotients -/

theorem mul64_of_finite {a b : F64} (ha : finite64 a = true) (hb : finite64 b = true) :
    mul64 a b = round64 (neg64 a != neg64 b) (units64 a * units64 b) (2 ^ 1074) := by
  simp only [mul64, isNan64_of_finite ha, isNan64_of_finite hb, isInf64_of_finite ha, isInf64_of_finite hb,
    Bool.or_self, Bool.false_eq_true, if_false]

theorem mul64_rounds {a b : F64} (ha : finite64 a = true) (hb : finite64 b = true) :
    RoundedTo64 (real64 a * real64 b) (mul64 a b) ∧ neg64 (mul64 a b) = (neg64 a != neg64 b) := by
  rw [mul64_of_finite ha hb]
  refine ⟨roundedTo64_round64 (by positivity) ?_ ((signAgrees_real64 a).mul (signAgrees_real64 b)), neg64_round64 _ _ _⟩
  rw [Nat.cast_mul, ← abs_real64, ← abs_real64, abs_mul, Nat.cast_pow, Nat.cast_ofNat, eq_div_iff (by positivity),
    mul_mul_mul_comm, mul_assoc]

/-- `div64` of finite words: a NaN or an infinity over zero, else the quotient rounded. -/
theorem div64_of_finite {a b : F64} (ha : finite64 a = true) (hb : finite64 b = true) :
    div64 a b = if code64 b = 0 then (if code64 a = 0 then nan64 a b else pack64 (neg64 a != neg64 b) infCode64)
      else round64 (neg64 a != neg64 b) (units64 a * 2 ^ 1074) (units64 b) := by
  simp only [div64, isNan64_of_finite ha, isNan64_of_finite hb, isInf64_of_finite ha, isInf64_of_finite hb,
    Bool.or_self, Bool.false_eq_true, if_false, beq_iff_eq]

theorem div64_rounds {a b : F64} (ha : finite64 a = true) (hb : finite64 b = true) (h : real64 b ≠ 0) :
    RoundedTo64 (real64 a / real64 b) (div64 a b) ∧ neg64 (div64 a b) = (neg64 a != neg64 b) := by
  have hc : code64 b ≠ 0 := fun hc => h (real64_eq_zero.2 hc)
  have hu : units64 b ≠ 0 := fun hu => hc (units64_eq_zero.1 hu)
  rw [div64_of_finite ha hb, if_neg hc]
  refine ⟨roundedTo64_round64 (Nat.pos_of_ne_zero hu) ?_ ?_, neg64_round64 _ _ _⟩
  · have hb' := abs_pos.2 h
    rw [Nat.cast_mul, ← abs_real64, ← abs_real64, abs_div, Nat.cast_pow, Nat.cast_ofNat]
    field_simp
  · rw [div_eq_mul_inv]
    exact (signAgrees_real64 a).mul (signAgrees_real64 b).inv

/-- Every NaN that an operation answers is one. -/
theorem isNan64_nan64 (a b : F64) : isNan64 (nan64 a b) = true := by
  have h : code64 (nan64 a b) = ((nan64 a b).setWidth 63).toNat := by simp [code64]
  have hle : 0x7FF8000000000000 ≤ code64 (nan64 a b) := by
    rw [h, nan64, BitVec.setWidth_or, BitVec.toNat_or]
    exact Nat.right_le_or
  have hi : infCode64 = 0x7FF0000000000000 := rfl
  simp only [isNan64, decide_eq_true_eq]
  omega

theorem div64_by_zero {a b : F64} (ha : finite64 a = true) (hb : finite64 b = true) (h : real64 b = 0) :
    (real64 a ≠ 0 → isInf64 (div64 a b) = true ∧ neg64 (div64 a b) = (neg64 a != neg64 b)) ∧
      (real64 a = 0 → isNan64 (div64 a b) = true) := by
  rw [div64_of_finite ha hb, if_pos (real64_eq_zero.1 h), Ne, real64_eq_zero]
  exact ⟨fun h0 => by simp [h0, isInf64], fun h0 => by rw [if_pos h0]; exact isNan64_nan64 a b⟩

/-- Settles O58: each operation rounds the exact result in units once. -/
theorem arithmeticRoundsExactly : Obligations.ArithmeticRoundsExactly := fun _ _ ha hb =>
  have ⟨hadd, haddz⟩ := add64_rounds ha hb
  have ⟨hsub, hsubz⟩ := sub64_rounds ha hb
  have ⟨hmul, hmuls⟩ := mul64_rounds ha hb
  ⟨hadd, haddz, hsub, hsubz, hmul, hmuls, div64_rounds ha hb, fun h => (div64_by_zero ha hb h).1,
    fun h => (div64_by_zero ha hb h).2⟩

end Sys2Proof.Machine
end

section
/-! Roots, conversions and literals round once; comparisons, infinities and NaNs are IEEE 754's (00_scope.md R9, R13;
log 24). -/

namespace Sys2Proof.Machine

/-! ## The square root -/

/-- The doubled root and its sticky unit, which is 0 exactly when the root is exact. -/
theorem sqrtRatio_eq (u : Nat) :
    ∃ t, t ≤ 1 ∧ sqrtRatio u = 2 * isqrt (u * 2 ^ 1074) + t ∧
      (t = 0 ↔ isqrt (u * 2 ^ 1074) * isqrt (u * 2 ^ 1074) = u * 2 ^ 1074) := by
  rw [sqrtRatio]
  generalize u * 2 ^ 1074 = m
  by_cases h : isqrt m * isqrt m = m
  · exact ⟨0, by decide, by rw [if_pos h], by simp [h]⟩
  · exact ⟨1, le_rfl, by rw [if_neg h], by simp [h]⟩

/-- The doubled root with its sticky unit lies to the even numbers as the root does to the integers. -/
theorem sqrtRatio_cmp (u j : Nat) :
    ((j : ℝ) < √((u * 2 ^ 1074 : Nat) : ℝ) ↔ 2 * j < sqrtRatio u) ∧
      (√((u * 2 ^ 1074 : Nat) : ℝ) < j ↔ sqrtRatio u < 2 * j) := by
  obtain ⟨t, ht, hs, hexact⟩ := sqrtRatio_eq u
  rw [hs]
  generalize u * 2 ^ 1074 = m at *
  obtain ⟨hlo, hhi⟩ := isqrt_floor m
  generalize isqrt m = r at *
  have hlt : (j : ℝ) < √(m : ℝ) ↔ j * j < m := by
    rw [Real.lt_sqrt j.cast_nonneg, sq]
    exact_mod_cast Iff.rfl
  have hgt : √(m : ℝ) < j ↔ m < j * j := by
    rcases Nat.eq_zero_or_pos j with rfl | hj
    · simp [(Real.sqrt_nonneg (m : ℝ)).not_gt]
    · rw [Real.sqrt_lt' (Nat.cast_pos.2 hj), sq]
      exact_mod_cast Iff.rfl
  rw [hlt, hgt]
  rcases lt_trichotomy j r with h | rfl | h
  · have hjr : j * j < r * r := Nat.mul_self_lt_mul_self h
    omega
  · omega
  · have hjr : (r + 1) * (r + 1) ≤ j * j := Nat.mul_self_le_mul_self h
    omega

/-- The root of a non-zero number of units is large: its last place is not the least, so the sticky unit is below every
half of it. -/
theorem one_le_lastPlace_sqrtRatio {u : Nat} (hu : u ≠ 0) : 1 ≤ lastPlace 52 (sqrtRatio u) 2 := by
  have hm : 2 ^ 106 ≤ u * 2 ^ 1074 :=
    calc 2 ^ 106 ≤ 2 ^ 1074 := by gcongr <;> decide
      _ ≤ u * 2 ^ 1074 := Nat.le_mul_of_pos_left _ (Nat.pos_of_ne_zero hu)
  have hroot : 2 ^ 53 ≤ isqrt (u * 2 ^ 1074) := by
    by_contra hlt
    have hhi := (isqrt_floor (u * 2 ^ 1074)).2
    have hsq : (isqrt (u * 2 ^ 1074) + 1) * (isqrt (u * 2 ^ 1074) + 1) ≤ 2 ^ 53 * 2 ^ 53 :=
      Nat.mul_self_le_mul_self (Nat.succ_le_of_lt (not_le.1 hlt))
    exact absurd (hm.trans_lt (hhi.trans_le hsq)) (by decide)
  have hdiv : sqrtRatio u / 2 = isqrt (u * 2 ^ 1074) := by
    obtain ⟨t, ht, hs, -⟩ := sqrtRatio_eq u
    omega
  have hlog : 53 ≤ Nat.log2 (isqrt (u * 2 ^ 1074)) := by
    have h0 : isqrt (u * 2 ^ 1074) ≠ 0 := by omega
    exact (Nat.le_log2 h0).2 hroot
  rw [lastPlace, hdiv]
  omega

theorem nearestCode_sqrtRatio {u : Nat} (hu : u ≠ 0) :
    NearestCode 52 √((u * 2 ^ 1074 : Nat) : ℝ) (codeOfRatio 52 (sqrtRatio u) 2) := by
  refine nearestCode_of_halves (by decide) two_pos fun k => ?_
  obtain ⟨l, hl⟩ := Nat.exists_eq_add_of_le' (one_le_lastPlace_sqrtRatio hu)
  obtain ⟨hlt, hgt⟩ := sqrtRatio_cmp u (k * 2 ^ l)
  rw [Nat.cast_mul k, Nat.cast_pow, Nat.cast_ofNat] at hlt hgt
  have hhalf : (k : ℝ) * 2 ^ (l + 1) = 2 * (k * 2 ^ l) := by ring
  have hquarter : k * (2 * 2 ^ (l + 1)) = 2 * (2 * (k * 2 ^ l)) := by ring
  rw [hl, hhalf, hquarter]
  constructor
  · rw [mul_lt_mul_iff_right₀ two_pos, hlt, Nat.mul_lt_mul_left two_pos]
  · rw [mul_lt_mul_iff_right₀ two_pos, hgt, Nat.mul_lt_mul_left two_pos]

theorem sqrt64_of_zero {a : F64} (h : code64 a = 0) : sqrt64 a = a := by
  simp [sqrt64, isNan64, h]

theorem sqrt64_of_pos {a : F64} (hf : finite64 a = true) (hn : neg64 a = false) (hc : code64 a ≠ 0) :
    sqrt64 a = round64 false (sqrtRatio (units64 a)) 2 := by
  simp [sqrt64, isNan64_of_finite hf, isInf64_of_finite hf, hn, hc]

theorem sqrt64_rounds {a : F64} (hf : finite64 a = true) (h0 : 0 ≤ real64 a) :
    RoundedTo64 √(real64 a) (sqrt64 a) ∧ (real64 a = 0 → sqrt64 a = a) := by
  by_cases hc : code64 a = 0
  · rw [sqrt64_of_zero hc, real64_eq_zero.2 hc, Real.sqrt_zero]
    have hz := roundedTo64_zero (neg64 a)
    rw [← hc, pack64_self a (isNan64_of_finite hf)] at hz
    exact ⟨hz, fun _ => rfl⟩
  · have hpos : 0 < real64 a := h0.lt_of_ne' fun h => hc (real64_eq_zero.1 h)
    have hu : units64 a ≠ 0 := fun hu => hc (units64_eq_zero.1 hu)
    rw [sqrt64_of_pos hf ((signAgrees_real64 a).2 hpos) hc]
    refine ⟨roundedTo64_pack64 ?_ (signAgrees_false.2 (Real.sqrt_nonneg _)), fun h => absurd h hpos.ne'⟩
    have hscale : |√(real64 a)| * 2 ^ 1074 = √((units64 a * 2 ^ 1074 : Nat) : ℝ) := by
      have hpow : (0 : ℝ) ≤ 2 ^ 1074 := by positivity
      rw [abs_of_nonneg (Real.sqrt_nonneg _), Nat.cast_mul, ← abs_real64, abs_of_pos hpos, Nat.cast_pow, Nat.cast_ofNat,
        mul_assoc, Real.sqrt_mul h0, Real.sqrt_mul_self hpow]
    rw [hscale]
    exact nearestCode_sqrtRatio hu

/-! ## Conversions and literals -/

theorem ofNat64_rounds (n : Nat) : RoundedTo64 (n : ℝ) (ofNat64 n) := by
  refine roundedTo64_round64 one_pos ?_ (signAgrees_false.2 n.cast_nonneg)
  rw [abs_of_nonneg n.cast_nonneg, Nat.cast_mul, Nat.cast_pow, Nat.cast_ofNat, Nat.cast_one, div_one]

theorem st32_rounds {w : F64} (h : finite64 w = true) :
    RoundedTo32 (real64 w) (st32 w) ∧ neg32 (st32 w) = neg64 w := by
  rw [st32_of_finite h]
  refine ⟨roundedTo32_pack32 ?_ (signAgrees_real64 w), neg32_pack32 _ _⟩
  have hscale : |real64 w| * 2 ^ 149 = (units64 w : ℝ) / (2 ^ 925 : Nat) := by
    rw [← abs_real64, Nat.cast_pow, Nat.cast_ofNat, eq_div_iff (by positivity), mul_assoc, ← pow_add]
  rw [hscale]
  exact nearestCode_codeOfRatio (by decide) (by positivity)

theorem mem_literals (l : Literal) : l ∈ Literal.all := by cases l <;> decide

theorem literal_rounds (l : Literal) : RoundedTo64 ((l.value.1 : ℝ) / (l.value.2 : ℝ)) l.word := by
  have hq : 0 < l.value.2 := by cases l <;> decide
  have hq' : (0 : ℝ) < l.value.2 := Nat.cast_pos.2 hq
  rw [literalsAreNearest l (mem_literals l)]
  refine roundedTo64_round64 hq ?_ (signAgrees_decide _ ?_)
  · rw [abs_div, abs_of_pos hq', Nat.cast_mul, Nat.cast_natAbs, Int.cast_abs, Nat.cast_pow, Nat.cast_ofNat,
      div_mul_eq_mul_div]
  · rw [div_lt_iff₀ hq', zero_mul, Int.cast_lt_zero]

/-- Settles O59: every rounding is of a number of units that lies to the halves of its last place as the exact value
does. -/
theorem rootsAndConversionsRoundExactly : Obligations.RootsAndConversionsRoundExactly :=
  ⟨fun _ => sqrt64_rounds, ofNat64_rounds, fun _ => st32_rounds, literal_rounds⟩

/-! ## Comparisons -/

/-- A map of magnitudes that keeps the order and zero keeps the order of the signed magnitudes. -/
theorem signed_lt_iff {φ : Nat → Nat} {S : Set Nat} (hφ : StrictMonoOn φ S) (h0 : 0 ∈ S) (hz : φ 0 = 0) {m n : Nat}
    (hm : m ∈ S) (hn : n ∈ S) (s t : Bool) : signed s (φ m) < signed t (φ n) ↔ signed s m < signed t n := by
  have hmn := hφ.lt_iff_lt hm hn
  have hnm := hφ.lt_iff_lt hn hm
  have hm0 := hφ.lt_iff_lt h0 hm
  have hn0 := hφ.lt_iff_lt h0 hn
  cases s <;> cases t <;> simp only [signed, if_true, if_false, Bool.false_eq_true] <;> omega

/-- The order of the finite words is the order of their values. -/
theorem value64_lt_iff (a b : F64) : value64 a < value64 b ↔ key64 a < key64 b :=
  signed_lt_iff ((unitsOfCode_strictMono 52).strictMonoOn Set.univ) trivial (unitsOfCode_zero 52) trivial trivial _ _

theorem real64_lt_iff (a b : F64) : real64 a < real64 b ↔ key64 a < key64 b := by
  rw [real64, real64, div_lt_div_iff_of_pos_right (by positivity), Int.cast_lt, value64_lt_iff]

theorem real64_le_iff (a b : F64) : real64 a ≤ real64 b ↔ key64 a ≤ key64 b := by
  rw [← not_lt, real64_lt_iff, not_lt]

theorem real64_eq_iff (a b : F64) : real64 a = real64 b ↔ key64 a = key64 b := by
  rw [le_antisymm_iff, real64_le_iff, real64_le_iff, ← le_antisymm_iff]

/-- The three comparisons of words that are no NaN. -/
theorem compare64_of_not_nan {a b : F64} (ha : isNan64 a = false) (hb : isNan64 b = false) :
    lt64 a b = decide (key64 a < key64 b) ∧ le64 a b = decide (key64 a ≤ key64 b) ∧
      eq64 a b = decide (key64 a = key64 b) := by
  simp [lt64, le64, eq64, ha, hb]

theorem compare64_finite {a b : F64} (ha : finite64 a = true) (hb : finite64 b = true) :
    (lt64 a b = true ↔ real64 a < real64 b) ∧ (le64 a b = true ↔ real64 a ≤ real64 b) ∧
      (eq64 a b = true ↔ real64 a = real64 b) := by
  obtain ⟨hlt, hle, heq⟩ := compare64_of_not_nan (isNan64_of_finite ha) (isNan64_of_finite hb)
  rw [hlt, hle, heq, real64_lt_iff, real64_le_iff, real64_eq_iff]
  simp

theorem isNan64_of_inf {a : F64} (h : isInf64 a = true) : isNan64 a = false := by
  have hc : code64 a = infCode64 := by simpa [isInf64] using h
  simp [isNan64, hc]

theorem code64_of_inf {a : F64} (h : isInf64 a = true) : code64 a = infCode64 := by simpa [isInf64] using h

/-- An infinity is beyond every finite word. -/
theorem compare64_inf {a b : F64} (ha : finite64 a = true) (hb : isInf64 b = true) :
    lt64 a b = !neg64 b ∧ lt64 b a = neg64 b ∧ le64 a b = !neg64 b ∧ le64 b a = neg64 b ∧ eq64 a b = false := by
  have hna := isNan64_of_finite ha
  have hnb := isNan64_of_inf hb
  obtain ⟨hlt, hle, heq⟩ := compare64_of_not_nan hna hnb
  obtain ⟨hlt', hle', -⟩ := compare64_of_not_nan hnb hna
  have hca := (finite64_iff a).1 ha
  have hka : -(infCode64 : Int) < key64 a ∧ key64 a < infCode64 := by
    rw [key64]
    split <;> omega
  have hkb : key64 b = if neg64 b then -(infCode64 : Int) else infCode64 := by rw [key64, code64_of_inf hb]
  rw [hlt, hle, heq, hlt', hle', hkb]
  cases neg64 b <;> simp <;> omega

/-- Every comparison with a NaN is false. -/
theorem compare64_nan {a b : F64} (h : isNan64 a = true ∨ isNan64 b = true) :
    lt64 a b = false ∧ le64 a b = false ∧ eq64 a b = false := by
  rcases h with h | h <;> simp [lt64, le64, eq64, h]

/-! ## Comparisons of binary32 words -/

/-- Widening keeps the order of the codes up to infinity's. -/
theorem widenCode_strictMonoOn : StrictMonoOn widenCode (Set.Iic infCode32) := by
  intro c _ d hd hcd
  have hc : c < infCode32 := lt_of_lt_of_le hcd hd
  obtain ⟨hcf, hcu⟩ := widenCode_of_finite hc
  rcases (show d ≤ infCode32 from hd).lt_or_eq with hdf | rfl
  · rw [← (unitsOfCode_strictMono 52).lt_iff_lt, hcu, (widenCode_of_finite hdf).2]
    exact Nat.mul_lt_mul_of_pos_right (unitsOfCode_strictMono 23 hcd) (by positivity)
  · rwa [widenCode_infCode32]

theorem widenCode_zero : widenCode 0 = 0 :=
  unitsOfCode_eq_zero.1 ((widenCode_of_finite (by decide)).2.trans (by rw [unitsOfCode_zero, Nat.zero_mul]))

theorem isNan64_ld64 (w : F32) : isNan64 (ld64 w) = isNan32 w := by
  cases h : isNan32 w
  · rw [ld64_of_not_nan h, isNan64_pack64]
  · rw [ld64, h, if_pos rfl, isNan64_nan64]

theorem key64_ld64_lt_iff {a b : F32} (ha : isNan32 a = false) (hb : isNan32 b = false) :
    key64 (ld64 a) < key64 (ld64 b) ↔ key32 a < key32 b := by
  rw [key64_eq_signed, key64_eq_signed, neg64_ld64 ha, neg64_ld64 hb, code64_ld64 ha, code64_ld64 hb]
  refine signed_lt_iff widenCode_strictMonoOn (Nat.zero_le _) widenCode_zero ?_ ?_ _ _
  · simpa [isNan32] using ha
  · simpa [isNan32] using hb

/-- The comparisons on S are those on C after `ld`. -/
theorem compare32_eq_compare64 (a b : F32) :
    lt32 a b = lt64 (ld64 a) (ld64 b) ∧ le32 a b = le64 (ld64 a) (ld64 b) ∧ eq32 a b = eq64 (ld64 a) (ld64 b) := by
  simp only [lt32, le32, eq32, lt64, le64, eq64, isNan64_ld64]
  cases ha : isNan32 a
  · cases hb : isNan32 b
    · have hlt := key64_ld64_lt_iff ha hb
      have hgt := key64_ld64_lt_iff hb ha
      refine ⟨congrArg _ (decide_eq_decide.2 hlt.symm), congrArg _ (decide_eq_decide.2 ?_),
        congrArg _ (decide_eq_decide.2 ?_)⟩ <;> omega
    · simp
  · simp

/-! ## NaNs and infinities -/

theorem operations_nan {a b : F64} (h : isNan64 a = true ∨ isNan64 b = true) :
    isNan64 (add64 a b) = true ∧ isNan64 (sub64 a b) = true ∧ isNan64 (mul64 a b) = true ∧
      isNan64 (div64 a b) = true := by
  have h' : (isNan64 a || isNan64 b) = true := by simpa using h
  have hs : (isNan64 a || isNan64 (negate64 b)) = true := by rwa [isNan64_negate64]
  rw [add64, if_pos h', sub64, add64, if_pos hs, mul64, if_pos h', div64, if_pos h']
  simp only [isNan64_nan64, and_self]

/-- `add64` with an infinity first: a NaN for the opposite infinity, else that infinity. -/
theorem add64_of_inf {a b : F64} (ha : isInf64 a = true) (hb : isNan64 b = false) :
    add64 a b = if isInf64 b && (neg64 a != neg64 b) then nan64 a b else a := by
  simp [add64, isNan64_of_inf ha, hb, ha]

theorem add64_of_finite_inf {a b : F64} (ha : isInf64 a = true) (hb : finite64 b = true) : add64 b a = a := by
  simp [add64, isNan64_of_inf ha, ha, isNan64_of_finite hb, isInf64_of_finite hb]

theorem sub64_of_inf {a b : F64} (ha : isInf64 a = true) (hb : isNan64 b = false) :
    sub64 a b = if isInf64 b && (neg64 a == neg64 b) then nan64 a (negate64 b) else a := by
  rw [sub64, add64_of_inf ha (by rwa [isNan64_negate64]), isInf64_negate64, neg64_negate64]
  cases neg64 a <;> cases neg64 b <;> rfl

theorem sub64_of_finite_inf {a b : F64} (ha : isInf64 a = true) (hb : finite64 b = true) :
    sub64 b a = negate64 a :=
  add64_of_finite_inf (by rwa [isInf64_negate64]) hb

theorem div64_of_inf {a b : F64} (ha : isInf64 a = true) (hb : isNan64 b = false) :
    div64 a b = if isInf64 b then nan64 a b else pack64 (neg64 a != neg64 b) infCode64 := by
  simp [div64, isNan64_of_inf ha, hb, ha]

theorem div64_of_finite_inf {a b : F64} (ha : isInf64 a = true) (hb : finite64 b = true) :
    div64 b a = pack64 (neg64 b != neg64 a) 0 := by
  simp [div64, isNan64_of_inf ha, ha, isNan64_of_finite hb, isInf64_of_finite hb]

/-- `mul64` with an infinity on either side: a NaN for a zero, else the infinity of the signs. -/
theorem mul64_of_inf {a b : F64} (ha : isInf64 a = true) (hb : isNan64 b = false) :
    mul64 a b = (if code64 b = 0 then nan64 a b else pack64 (neg64 a != neg64 b) infCode64) ∧
      mul64 b a = (if code64 b = 0 then nan64 b a else pack64 (neg64 b != neg64 a) infCode64) := by
  have hc : code64 a ≠ 0 := by rw [code64_of_inf ha]; decide
  simp [mul64, isNan64_of_inf ha, hb, ha, hc]

theorem operations_inf {a b : F64} (ha : isInf64 a = true) (hb : isNan64 b = false) :
    (isInf64 b = true → neg64 a ≠ neg64 b → isNan64 (add64 a b) = true ∧ sub64 a b = a) ∧
    (isInf64 b = true → neg64 a = neg64 b → add64 a b = a ∧ isNan64 (sub64 a b) = true) ∧
    (isInf64 b = true → isNan64 (div64 a b) = true) ∧
    (finite64 b = true → add64 a b = a ∧ add64 b a = a ∧ sub64 a b = a ∧ sub64 b a = negate64 a ∧
      div64 a b = pack64 (neg64 a != neg64 b) infCode64 ∧ div64 b a = pack64 (neg64 b != neg64 a) 0) ∧
    (code64 b = 0 → isNan64 (mul64 a b) = true ∧ isNan64 (mul64 b a) = true) ∧
    (code64 b ≠ 0 → mul64 a b = pack64 (neg64 a != neg64 b) infCode64 ∧
      mul64 b a = pack64 (neg64 b != neg64 a) infCode64) := by
  rw [add64_of_inf ha hb, sub64_of_inf ha hb, div64_of_inf ha hb, (mul64_of_inf ha hb).1, (mul64_of_inf ha hb).2]
  refine ⟨fun hi hs => ?_, fun hi hs => ?_, fun hi => ?_, fun hf => ?_, fun hz => ?_, fun hz => ?_⟩
  · simp [hi, hs, isNan64_nan64]
  · simp [hi, hs, isNan64_nan64]
  · simp [hi, isNan64_nan64]
  · simp [isInf64_of_finite hf, add64_of_finite_inf ha hf, sub64_of_finite_inf ha hf, div64_of_finite_inf ha hf]
  · simp [hz, isNan64_nan64]
  · simp [hz]

/-- The narrowing of a NaN is a NaN. -/
theorem isNan32_st32 {a : F64} (h : isNan64 a = true) : isNan32 (st32 a) = true := by
  rw [st32, if_pos h]
  generalize Config.nanBits32 a = w
  have hc : code32 (w ||| 0x7FC00000#32) = ((w ||| 0x7FC00000#32).setWidth 31).toNat :=
    (BitVec.toNat_setWidth _ _).symm
  have hle : 0x7FC00000 ≤ code32 (w ||| 0x7FC00000#32) := by
    rw [hc, BitVec.setWidth_or, BitVec.toNat_or]
    exact Nat.right_le_or
  have hi : infCode32 = 0x7F800000 := rfl
  simp only [isNan32, decide_eq_true_eq]
  omega

theorem st32_of_inf {a : F64} (h : isInf64 a = true) : st32 a = pack32 (neg64 a) infCode32 := by
  simp [st32, isNan64_of_inf h, h]

theorem sqrt64_of_inf {a : F64} (h : isInf64 a = true) (hn : neg64 a = false) : sqrt64 a = a := by
  simp [sqrt64, isNan64_of_inf h, h, hn]

theorem isNan64_sqrt64_of_nan {a : F64} (h : isNan64 a = true) : isNan64 (sqrt64 a) = true := by
  rw [sqrt64, if_pos h, isNan64_nan64]

/-- The root of a negative word is a NaN. -/
theorem isNan64_sqrt64_of_neg {a : F64} (hn : neg64 a = true) (hc : code64 a ≠ 0) : isNan64 (sqrt64 a) = true := by
  simp [sqrt64, hn, hc, isNan64_nan64]

/-- Settles O60: comparisons go by the order of the words, and each operation has its clause for NaNs and infinities. -/
theorem comparisonsAndSpecialOperands : Obligations.ComparisonsAndSpecialOperands := by
  refine ⟨fun _ _ => compare64_finite, fun _ _ => compare64_inf, fun a b h => ?_, compare32_eq_compare64,
    fun _ _ => operations_inf, fun a => ⟨fun h => ⟨isNan64_sqrt64_of_nan h, isNan32_st32 h⟩,
      fun h => ⟨st32_of_inf h, sqrt64_of_inf h⟩, fun _ => isNan64_sqrt64_of_neg⟩⟩
  obtain ⟨hlt, hle, heq⟩ := compare64_nan h
  exact ⟨hlt, hle, heq, operations_nan h⟩

end Sys2Proof.Machine
end

section
/-! APPLY bounds every sample (42_agc.md R125), and the runs over the reals (47_frame_sequencer.md R173). -/

namespace Sys2Proof.Machine

/-! ## The clip -/

theorem lt64_iff {a b : F64} :
    lt64 a b = true ↔ isNan64 a = false ∧ isNan64 b = false ∧ key64 a < key64 b := by
  simp [lt64, and_assoc]

/-- `max(v, lo)` is no NaN and not below `lo`, even where `v` is a NaN. -/
theorem key64_nmax {lo : F64} (v : F64) (hlo : isNan64 lo = false) :
    isNan64 (nmax numDefault v lo) = false ∧ key64 lo ≤ key64 (nmax numDefault v lo) := by
  rw [nmax, numDefault_lt]
  split
  · rename_i h
    obtain ⟨-, hv, hk⟩ := lt64_iff.1 h
    exact ⟨hv, hk.le⟩
  · exact ⟨hlo, le_refl _⟩

/-- `clamp(v, lo, hi)` is a word between `lo` and `hi`, even where `v` is a NaN. -/
theorem key64_clamp {lo hi : F64} (v : F64) (hlo : isNan64 lo = false) (hhi : isNan64 hi = false)
    (h : key64 lo ≤ key64 hi) :
    isNan64 (clamp numDefault v lo hi) = false ∧ key64 lo ≤ key64 (clamp numDefault v lo hi) ∧
      key64 (clamp numDefault v lo hi) ≤ key64 hi := by
  obtain ⟨hm, hk⟩ := key64_nmax v hlo
  rw [clamp, nmin, numDefault_lt]
  split
  · rename_i hlt
    exact ⟨hm, hk, (lt64_iff.1 hlt).2.2.le⟩
  · exact ⟨hhi, h, le_refl _⟩

theorem natAbs_key64 (w : F64) : (key64 w).natAbs = code64 w := natAbs_signed _ _

/-- CLIP lies below the midpoint of the binary32 code 0x3F7D70A4 and the next: a mantissa over the last place 1021
against one over 125, a unit of 2^-149 being 2^925 units of 2^-1074. -/
theorem clip_lt_midpoint :
    2 * units64 Literal.clip.word <
      (unitsOfCode 23 0x3F7D70A4 + unitsOfCode 23 (0x3F7D70A4 + 1)) * 2 ^ 925 := by
  have hclip : units64 Literal.clip.word = 0x1FAE147AE147AE * 2 ^ 1021 := by
    rw [units64, show code64 Literal.clip.word = 1021 * 2 ^ 52 + 0x1FAE147AE147AE by decide]
    exact unitsOfCode_of_mantissa (by decide) (.inr (by decide))
  have hcode : unitsOfCode 23 0x3F7D70A4 = 0xFD70A4 * 2 ^ 125 :=
    unitsOfCode_of_mantissa (f := 23) (e := 125) (k := 0xFD70A4) (by decide) (by decide)
  have hnext : unitsOfCode 23 (0x3F7D70A4 + 1) = 0xFD70A5 * 2 ^ 125 :=
    unitsOfCode_of_mantissa (f := 23) (e := 125) (k := 0xFD70A5) (by decide) (by decide)
  rw [hclip, hcode, hnext, ← Nat.add_mul, mul_assoc, ← pow_add, ← mul_assoc,
    show 125 + 925 = 29 + 1021 from rfl, pow_add, ← mul_assoc]
  exact Nat.mul_lt_mul_of_pos_right (by decide) (by positivity)

/-- A magnitude of at most that of CLIP is stored with a code of at most 0x3F7D70A4. -/
theorem clipBounded_st32 {v : F64} (h : code64 v ≤ code64 Literal.clip.word) : ClipBounded (st32 v) := by
  have hclip : code64 Literal.clip.word < infCode64 := by decide
  rw [st32_of_finite ((finite64_iff v).2 (h.trans_lt hclip)), ClipBounded, code32_pack32]
  refine (Nat.min_le_left _ _).trans ((nearestCode_codeOfRatio (by decide) (by positivity)).le_of_lt_mid ?_)
  have hu : units64 v ≤ units64 Literal.clip.word := (unitsOfCode_strictMono 52).monotone h
  rw [← mul_div_assoc, div_lt_iff₀ (by positivity)]
  exact_mod_cast (Nat.mul_le_mul_left 2 hu).trans_lt clip_lt_midpoint

theorem clipBounded_applySample (gain : F64) (w : F32) : ClipBounded (applySample numDefault gain w) := by
  have hkey : key64 Literal.clipNeg.word = -(code64 Literal.clip.word : Int) ∧
      key64 Literal.clip.word = code64 Literal.clip.word := by decide
  obtain ⟨-, hlo, hhi⟩ := key64_clamp (lo := Literal.clipNeg.word) (hi := Literal.clip.word) (mul64 (ld64 w) gain)
    (by decide) (by decide) (by decide)
  refine clipBounded_st32 ?_
  rw [hkey.1] at hlo
  rw [hkey.2] at hhi
  rw [← natAbs_key64, numDefault_const, numDefault_ld, numDefault_mul]
  omega

theorem finite32_of_clipBounded {w : F32} (h : ClipBounded w) : finite32 w = true :=
  (finite32_iff w).2 (lt_of_le_of_lt h (by decide))

/-- Over the reals the clamp is the mathematical one. -/
theorem clamp_numReal_between {lo hi : ℝ} (v : ℝ) (h : lo ≤ hi) :
    lo ≤ clamp numReal v lo hi ∧ clamp numReal v lo hi ≤ hi := by
  have hmax : lo ≤ nmax numReal v lo := by
    simp only [nmax, numReal, decide_eq_true_eq]
    split <;> linarith
  simp only [clamp, nmin, numReal, decide_eq_true_eq]
  split
  · exact ⟨hmax, le_of_lt ‹_›⟩
  · exact ⟨h, le_refl _⟩

theorem abs_applySample_numReal (g x : ℝ) : |applySample numReal g x| ≤ 99 / 100 := by
  have hlo : numReal.const .clipNeg = -(99 / 100) := by norm_num [numReal, Literal.value]
  have hhi : numReal.const .clip = 99 / 100 := by norm_num [numReal, Literal.value]
  have hclamp : applySample numReal g x = clamp numReal (x * g) (-(99 / 100)) (99 / 100) := by
    rw [applySample, hlo, hhi]
    rfl
  exact hclamp ▸ abs_le.2 (clamp_numReal_between _ (by norm_num))

/-- Settles O23: the clamp answers a word between the two clip words for every product, a NaN included, and CLIP is
stored as 0x3F7D70A4. -/
theorem appliedSamplesAreBounded : Obligations.AppliedSamplesAreBounded := by
  refine ⟨fun s t hs h w hw => ?_, abs_applySample_numReal⟩
  have ht : t = doApply s := by
    rw [exec_apply hs] at h
    exact (Host.Outcome.next.inj h).symm
  rw [ht, doApply_frm] at hw
  obtain ⟨x, -, rfl⟩ := List.mem_map.1 hw
  have hclip := clipBounded_applySample s.gain x
  exact ⟨hclip, finite32_of_clipBounded hclip⟩

/-! ## Runs over the reals -/

theorem countP_frameMessages {S : Type} (pcm : Buf S 160) (trans voice : Bool) :
    (frameMessages pcm trans voice).countP Message.isPcm = 1 := by
  cases trans <;> rfl

/-- One word over the reals: no halt, `WR` counts it, and the 160th brings one PCM message. -/
theorem transact_numReal {h : Held ℝ ℝ} (hh : h.halted = false) (hw : h.wr < 160) (w : ℝ) :
    ∃ h' out, transact numReal h w = .next h' out ∧ h'.halted = false ∧ h'.wr = (h.wr + 1) % 160 ∧
      out.countP Message.isPcm = (h.wr + 1) / 160 := by
  rcases transact_cases numReal h w with ⟨hc, -⟩ | ⟨-, hc, -⟩ | ⟨-, -, hlt, ht⟩ | ⟨-, -, hge, ht⟩
  · exact absurd (hh.symm.trans hc) Bool.false_ne_true
  · exact absurd hc.symm Bool.false_ne_true
  · exact ⟨_, _, ht, hh, (Nat.mod_eq_of_lt hlt).symm, (Nat.div_eq_of_lt hlt).symm⟩
  · have h160 : h.wr + 1 = 160 := by omega
    rcases transactFrame_cases numReal { h with acc := bufSet h.acc h.wr w } with ⟨-, hf⟩ | ⟨hf, -⟩
    · exact ⟨_, _, ht.trans hf, hh, by rw [h160], by rw [h160, countP_frameMessages]⟩
    · rw [frameFinite, valuesFinite_numReal] at hf
      exact absurd hf.symm Bool.false_ne_true

theorem runWords_numReal {h : Held ℝ ℝ} (hh : h.halted = false) (hw : h.wr < 160) (ws : List ℝ) :
    (runWords numReal h ws).1.halted = false ∧
      (runWords numReal h ws).1.wr = (h.wr + ws.length) % 160 ∧
      (runWords numReal h ws).2.countP Message.isPcm = (h.wr + ws.length) / 160 := by
  induction ws generalizing h with
  | nil => simp [runWords, hh, Nat.mod_eq_of_lt hw, Nat.div_eq_of_lt hw]
  | cons w ws ih =>
    obtain ⟨h', out, ht, hh', hw', hout⟩ := transact_numReal hh hw w
    obtain ⟨hhalt, hwr, hcount⟩ := ih hh' (by omega)
    rw [runWords, ht]
    refine ⟨hhalt, ?_, ?_⟩
    · rw [hwr, hw', List.length_cons]
      omega
    · rw [List.countP_append, hout, hcount, hw', List.length_cons]
      omega

/-- Settles O57, by induction on the words. -/
theorem realRunsEmitEveryFrame : Obligations.RealRunsEmitEveryFrame := fun ws => by
  have h := runWords_numReal (h := Held.reset numReal) rfl (by decide) ws
  rwa [show (Held.reset numReal).wr = 0 from rfl, Nat.zero_add] at h

end Sys2Proof.Machine
end

section
/-! `hypot` rises with the magnitudes of its operands and is within one unit in the last place (00_scope.md R9;
92_eei_decisions.md D35; log 9). -/

namespace Sys2Proof.Machine

/-! ## The floor of a number of units in the codes -/

/-- The floor code and its next code enclose the integer part of a ratio. -/
theorem floorCode_bounds (p q : Nat) :
    unitsOfCode 52 (floorCode p q) ≤ p / q ∧ p / q < unitsOfCode 52 (floorCode p q + 1) := by
  obtain ⟨hk, he⟩ := lastPlace_mantissa 52 p q
  have hpow : 0 < 2 ^ lastPlace 52 p q := by positivity
  rw [← Nat.div_div_eq_div_mul] at hk he
  rw [floorCode, ← Nat.div_div_eq_div_mul, add_assoc, unitsOfCode_of_mantissa hk (by omega),
    unitsOfCode_of_mantissa (by omega) he]
  exact ⟨Nat.div_mul_le_self _ _, Nat.lt_mul_of_div_lt (Nat.lt_succ_self _) hpow⟩

/-- The floor code is the greatest whose units are not above the ratio. -/
theorem le_floorCode_iff {c p q : Nat} : c ≤ floorCode p q ↔ unitsOfCode 52 c ≤ p / q := by
  obtain ⟨hlo, hhi⟩ := floorCode_bounds p q
  have hmono := unitsOfCode_strictMono 52
  exact ⟨fun h => (hmono.monotone h).trans hlo, fun h => Nat.le_of_lt_succ (hmono.lt_iff_lt.1 (h.trans_lt hhi))⟩

theorem floorCode_unitsOfCode (c : Nat) : floorCode (unitsOfCode 52 c) 1 = c := by
  refine le_antisymm ((unitsOfCode_strictMono 52).le_iff_le.1 ?_) (le_floorCode_iff.2 (Nat.div_one _).ge)
  simpa using (floorCode_bounds (unitsOfCode 52 c) 1).1

/-- The distance from a code to the next: one unit in the last place of every value between them. -/
def codeUlp (c : Nat) : Nat := 2 ^ (c / 2 ^ 52 - 1)

theorem unitsOfCode_succ_eq_add_codeUlp (c : Nat) : unitsOfCode 52 (c + 1) = unitsOfCode 52 c + codeUlp c :=
  unitsOfCode_succ 52 c

/-- The last place of a ratio is that of its floor code. -/
theorem codeUlp_floorCode (p q : Nat) : codeUlp (floorCode p q) = 2 ^ lastPlace 52 p q := by
  obtain ⟨hk, he⟩ := lastPlace_mantissa 52 p q
  have hnext := unitsOfCode_succ_eq_add_codeUlp (floorCode p q)
  rw [floorCode] at hnext ⊢
  rw [add_assoc, unitsOfCode_of_mantissa hk (by omega), unitsOfCode_of_mantissa (by omega) he, Nat.succ_mul] at hnext
  omega

theorem ulpUnits_eq_codeUlp (m : Nat) : ulpUnits m = codeUlp (floorCode m 1) := by
  rw [codeUlp_floorCode, ulpUnits, lastPlace, Nat.div_one]

theorem codeUlp_mono {c d : Nat} (h : c ≤ d) : codeUlp c ≤ codeUlp d :=
  Nat.pow_le_pow_right two_pos (Nat.sub_le_sub_right (Nat.div_le_div_right h) 1)

/-- The word below a code is at most the code's own unit in the last place away. -/
theorem unitsOfCode_le_pred_add_codeUlp (c : Nat) : unitsOfCode 52 c ≤ unitsOfCode 52 (c - 1) + codeUlp c := by
  cases c with
  | zero => simp
  | succ c =>
    rw [unitsOfCode_succ_eq_add_codeUlp, Nat.add_sub_cancel]
    exact Nat.add_le_add_left (codeUlp_mono c.le_succ) _

/-- Below the start of a binade the words lie half as far apart. -/
theorem exists_half_of_binadeStart {c : Nat} (h : binadeStart c = true) :
    ∃ half, codeUlp c = 2 * half ∧ unitsOfCode 52 c = unitsOfCode 52 (c - 1) + half ∧
      unitsOfCode 52 c = unitsOfCode 52 (c - 2) + 2 * half := by
  obtain ⟨hmod, hle⟩ : c % 2 ^ 52 = 0 ∧ 2 * 2 ^ 52 ≤ c := by simpa [binadeStart] using h
  obtain ⟨e, he⟩ : ∃ e, c / 2 ^ 52 = e + 2 := ⟨c / 2 ^ 52 - 2, by omega⟩
  have h1 := unitsOfCode_succ 52 (c - 1)
  have h2 := unitsOfCode_succ 52 (c - 2)
  rw [show c - 1 + 1 = c by omega, show (c - 1) / 2 ^ 52 - 1 = e by omega] at h1
  rw [show c - 2 + 1 = c - 1 by omega, show (c - 2) / 2 ^ 52 - 1 = e by omega] at h2
  refine ⟨2 ^ e, ?_, h1, by omega⟩
  rw [codeUlp, he, show e + 2 - 1 = e + 1 by omega, pow_succ, mul_comm]

/-- A floor lowered by one where the value is low rises with the value. -/
theorem lowered_mono {c c' : Nat} {low low' : Prop} [Decidable low] [Decidable low'] (hc : c ≤ c')
    (h : c = c' → low' → low) : (if low then c - 1 else c) ≤ (if low' then c' - 1 else c') := by
  by_cases hl' : low'
  · rcases hc.lt_or_eq with hlt | heq
    · split_ifs <;> omega
    · rw [if_pos hl', if_pos (h heq hl'), heq]
  · rw [if_neg hl']
    split_ifs <;> omega

/-! ## The span of a root -/

theorem le_isqrt {n s : Nat} (h : n * n ≤ s) : n ≤ isqrt s :=
  Nat.le_of_lt_succ (Nat.mul_self_lt_mul_self_iff.1 (h.trans_lt (isqrt_floor s).2))

theorem isqrt_mono {s t : Nat} (h : s ≤ t) : isqrt s ≤ isqrt t := le_isqrt ((isqrt_floor s).1.trans h)

theorem isqrt_mul_self (n : Nat) : isqrt (n * n) = n :=
  le_antisymm (Nat.mul_self_le_mul_self_iff.1 (isqrt_floor (n * n)).1) (le_isqrt le_rfl)

/-- The code of the greatest word not above the root of `s`. -/
def rootCode (s : Nat) : Nat := floorCode (isqrt s) 1

/-- The word below the floor is within one unit in the last place of the root of `s`: the root is a word, or the floor
starts a binade and the root is less than half a unit above it. -/
def rootIsLow (s : Nat) : Bool :=
  decide (unitsOfCode 52 (rootCode s) * unitsOfCode 52 (rootCode s) = s) ||
    (binadeStart (rootCode s) &&
      decide (4 * s ≤ (2 * unitsOfCode 52 (rootCode s) + codeUlp (rootCode s)) *
        (2 * unitsOfCode 52 (rootCode s) + codeUlp (rootCode s))))

theorem rootIsLow_iff (s : Nat) :
    rootIsLow s = true ↔ unitsOfCode 52 (rootCode s) * unitsOfCode 52 (rootCode s) = s ∨
      (binadeStart (rootCode s) = true ∧
        4 * s ≤ (2 * unitsOfCode 52 (rootCode s) + codeUlp (rootCode s)) *
          (2 * unitsOfCode 52 (rootCode s) + codeUlp (rootCode s))) := by
  simp [rootIsLow]

theorem rootSpan_eq (s : Nat) :
    rootSpan s = (if rootIsLow s then rootCode s - 1 else rootCode s, rootCode s + 1) := by
  simp only [rootSpan, rootIsLow, ulpUnits_eq_codeUlp]
  rw [← rootCode]
  by_cases hexact : unitsOfCode 52 (rootCode s) * unitsOfCode 52 (rootCode s) = s
  · simp [hexact]
  · simp only [hexact, decide_false, Bool.false_or, if_false]
    split <;> rfl

theorem rootCode_mono {s t : Nat} (h : s ≤ t) : rootCode s ≤ rootCode t := floorCode_mono (isqrt_mono h)

theorem le_rootCode {c s : Nat} (h : unitsOfCode 52 c * unitsOfCode 52 c ≤ s) : c ≤ rootCode s :=
  le_floorCode_iff.2 (by rw [Nat.div_one]; exact le_isqrt h)

theorem rootCode_mul_self (c : Nat) : rootCode (unitsOfCode 52 c * unitsOfCode 52 c) = c := by
  rw [rootCode, isqrt_mul_self, floorCode_unitsOfCode]

/-- The floor and its next word enclose the root. -/
theorem rootCode_bounds (s : Nat) :
    unitsOfCode 52 (rootCode s) * unitsOfCode 52 (rootCode s) ≤ s ∧
      s < unitsOfCode 52 (rootCode s + 1) * unitsOfCode 52 (rootCode s + 1) := by
  obtain ⟨hlo, hhi⟩ := floorCode_bounds (isqrt s) 1
  rw [Nat.div_one] at hlo hhi
  obtain ⟨hsq, hsq'⟩ := isqrt_floor s
  exact ⟨(Nat.mul_self_le_mul_self hlo).trans hsq, hsq'.trans_le (Nat.mul_self_le_mul_self hhi)⟩

/-- Both ends of the span rise. -/
theorem rootSpan_mono {s t : Nat} (h : s ≤ t) :
    (rootSpan s).1 ≤ (rootSpan t).1 ∧ (rootSpan s).2 ≤ (rootSpan t).2 := by
  have hc := rootCode_mono h
  simp only [rootSpan_eq]
  refine ⟨lowered_mono hc fun heq hlow => ?_, Nat.succ_le_succ hc⟩
  have hsq := (rootCode_bounds s).1
  rw [rootIsLow_iff, ← heq] at hlow
  refine (rootIsLow_iff s).2 ?_
  rcases hlow with hexact | ⟨hstart, hhalf⟩
  · exact .inl (le_antisymm hsq (h.trans hexact.ge))
  · exact .inr ⟨hstart, (Nat.mul_le_mul_left 4 h).trans hhalf⟩

/-- The ends of the span: the lower one is the floor or the word below, and within a unit of the root. -/
theorem rootSpan_bounds (s : Nat) :
    rootCode s - 1 ≤ (rootSpan s).1 ∧ (rootSpan s).1 ≤ rootCode s ∧ (rootSpan s).2 = rootCode s + 1 ∧
      s ≤ (unitsOfCode 52 (rootSpan s).1 + codeUlp (rootCode s)) ^ 2 := by
  have hpred := unitsOfCode_le_pred_add_codeUlp (rootCode s)
  rw [rootSpan_eq, sq]
  by_cases hlow : rootIsLow s = true
  · simp only [if_pos hlow]
    refine ⟨le_rfl, Nat.sub_le _ _, trivial, ?_⟩
    rcases (rootIsLow_iff s).1 hlow with hexact | ⟨hstart, hhalf⟩
    · exact hexact.ge.trans (Nat.mul_self_le_mul_self hpred)
    · obtain ⟨half, hulp, hu, -⟩ := exists_half_of_binadeStart hstart
      rw [hu, hulp] at hhalf
      rw [hulp]
      nlinarith
  · simp only [if_neg hlow]
    refine ⟨Nat.sub_le _ _, le_rfl, trivial, ?_⟩
    rw [← unitsOfCode_succ_eq_add_codeUlp]
    exact (rootCode_bounds s).2.le

/-! ## The span of `hypot` -/

/-- The sum of the squares of the operands, in units. -/
def sumSq (a b : F64) : Nat := units64 a * units64 a + units64 b * units64 b

theorem units64_mono {a b : F64} (h : code64 a ≤ code64 b) : units64 a ≤ units64 b :=
  (unitsOfCode_strictMono 52).monotone h

theorem sumSq_mono {a a' b b' : F64} (ha : code64 a ≤ code64 a') (hb : code64 b ≤ code64 b') :
    sumSq a b ≤ sumSq a' b' :=
  Nat.add_le_add (Nat.mul_self_le_mul_self (units64_mono ha)) (Nat.mul_self_le_mul_self (units64_mono hb))

theorem le_rootCode_sumSq (a b : F64) : code64 a ≤ rootCode (sumSq a b) ∧ code64 b ≤ rootCode (sumSq a b) :=
  ⟨le_rootCode (Nat.le_add_right _ _), le_rootCode (Nat.le_add_left _ _)⟩

theorem rootCode_sumSq_of_zero {a b : F64} (h : code64 a = 0) : rootCode (sumSq a b) = code64 b := by
  rw [sumSq, units64_eq_zero.2 h, Nat.mul_zero, Nat.zero_add]
  exact rootCode_mul_self (code64 b)

/-- The place where the second word below the root is admitted: `hypot(0, b)` at the start of a binade. -/
def HypotAtStart (a b : F64) : Prop := code64 a = 0 ∧ binadeStart (code64 b) = true

theorem hypotSpan_of_start {a b : F64} (h : HypotAtStart a b) : hypotSpan a b = (code64 b - 2, code64 b + 1) := by
  obtain ⟨ha, hb⟩ := h
  simp [hypotSpan, ha, hb]

theorem hypotSpan_of_not_start {a b : F64} (h : ¬ HypotAtStart a b) :
    hypotSpan a b = (max (code64 a) (rootSpan (sumSq a b)).1, rootCode (sumSq a b) + 1) := by
  have hn : ¬ ((code64 a == 0 && binadeStart (code64 b)) = true) := by simpa [HypotAtStart] using h
  rw [hypotSpan, if_neg hn, ← (rootSpan_bounds _).2.2.1]
  rfl

/-- The upper end is the word above the floor of the root. -/
theorem hypotSpan_snd (a b : F64) : (hypotSpan a b).2 = rootCode (sumSq a b) + 1 := by
  by_cases h : HypotAtStart a b
  · rw [hypotSpan_of_start h, rootCode_sumSq_of_zero h.1]
  · rw [hypotSpan_of_not_start h]

/-- Of a zero and a word that is not zero, the lower end is below that word. -/
theorem hypotSpan_fst_lt {a b : F64} (ha : code64 a = 0) (hb : code64 b ≠ 0) : (hypotSpan a b).1 < code64 b := by
  by_cases h : HypotAtStart a b
  · rw [hypotSpan_of_start h]
    omega
  · have hexact : rootIsLow (sumSq a b) = true := (rootIsLow_iff _).2 (.inl (by
      rw [rootCode_sumSq_of_zero ha, sumSq, units64_eq_zero.2 ha, Nat.mul_zero, Nat.zero_add]
      rfl))
    rw [hypotSpan_of_not_start h, rootSpan_eq, if_pos hexact, rootCode_sumSq_of_zero ha]
    omega

theorem le_hypotSpan_fst {a b : F64} : code64 a ≤ (hypotSpan a b).1 := by
  by_cases h : HypotAtStart a b
  · rw [h.1]
    exact Nat.zero_le _
  · rw [hypotSpan_of_not_start h]
    exact le_max_left _ _

/-- Both ends of the span rise with the magnitudes of the operands. -/
theorem hypotSpan_mono {a a' b b' : F64} (ha : code64 a ≤ code64 a') (hb : code64 b ≤ code64 b') (h0 : code64 b ≠ 0) :
    (hypotSpan a b).1 ≤ (hypotSpan a' b').1 ∧ (hypotSpan a b).2 ≤ (hypotSpan a' b').2 := by
  have hs := sumSq_mono ha hb
  refine ⟨?_, by rw [hypotSpan_snd, hypotSpan_snd]; exact Nat.succ_le_succ (rootCode_mono hs)⟩
  by_cases h' : HypotAtStart a' b'
  · have ha0 : code64 a = 0 := Nat.le_zero.1 (h'.1 ▸ ha)
    rcases hb.lt_or_eq with hlt | heq
    · have := hypotSpan_fst_lt ha0 h0
      rw [hypotSpan_of_start h']
      omega
    · rw [hypotSpan_of_start h', hypotSpan_of_start ⟨ha0, heq ▸ h'.2⟩, heq]
  · rw [hypotSpan_of_not_start h']
    by_cases h : HypotAtStart a b
    · have hroot := (rootSpan_bounds (sumSq a' b')).1
      have hle := (le_rootCode_sumSq a' b').2
      rw [hypotSpan_of_start h]
      exact le_max_of_le_right (by omega)
    · rw [hypotSpan_of_not_start h]
      exact max_le_max ha (rootSpan_mono hs).1

/-- The lower end is within one unit in the last place of the root. -/
theorem sumSq_le_hypotSpan_fst (a b : F64) :
    sumSq a b ≤ (unitsOfCode 52 (hypotSpan a b).1 + codeUlp (rootCode (sumSq a b))) ^ 2 := by
  by_cases h : HypotAtStart a b
  · obtain ⟨half, hulp, -, hu⟩ := exists_half_of_binadeStart h.2
    have hroot : unitsOfCode 52 (code64 b - 2) + codeUlp (code64 b) = units64 b := by rw [hulp, ← hu]; rfl
    rw [hypotSpan_of_start h, rootCode_sumSq_of_zero h.1, hroot, sumSq, units64_eq_zero.2 h.1, sq, Nat.mul_zero,
      Nat.zero_add]
  · obtain ⟨-, -, -, hroot⟩ := rootSpan_bounds (sumSq a b)
    rw [hypotSpan_of_not_start h]
    refine hroot.trans (Nat.pow_le_pow_left (Nat.add_le_add_right ?_ _) 2)
    exact (unitsOfCode_strictMono 52).monotone (le_max_right _ _)

theorem hypotSpan_fst_le_snd (a b : F64) : (hypotSpan a b).1 ≤ (hypotSpan a b).2 := by
  rw [hypotSpan_snd]
  by_cases h : HypotAtStart a b
  · rw [hypotSpan_of_start h, rootCode_sumSq_of_zero h.1]
    omega
  · obtain ⟨-, hle, -, -⟩ := rootSpan_bounds (sumSq a b)
    have ha := (le_rootCode_sumSq a b).1
    rw [hypotSpan_of_not_start h]
    exact (max_le ha hle).trans (Nat.le_succ _)

/-! ## `hypot` -/

theorem finite64_of_code_le {a b : F64} (hb : finite64 b = true) (h : code64 a ≤ code64 b) : finite64 a = true :=
  (finite64_iff a).2 (h.trans_lt ((finite64_iff b).1 hb))

theorem finite64_of_code_zero {a : F64} (h : code64 a = 0) : finite64 a = true := (finite64_iff a).2 (by rw [h]; decide)

theorem hypot64_of_zero {a b : F64} (ha : finite64 a = true) (hb : code64 b = 0) :
    hypot64 a b = pack64 false (code64 a) := by
  simp [hypot64, ha, finite64_of_code_zero hb, hb]

theorem hypot64_zero_exact {a b : F64} (ha : finite64 a = true) (hb : code64 b = 0) :
    neg64 (hypot64 a b) = false ∧ code64 (hypot64 a b) = code64 a := by
  rw [hypot64_of_zero ha hb, code64_pack64]
  exact ⟨neg64_pack64 _ _, Nat.min_eq_left ((finite64_iff a).1 ha).le⟩

theorem units64_negate64 (w : F64) : units64 (negate64 w) = units64 w := by rw [units64, code64_negate64, units64]

theorem hypot64_negate64 (a b : F64) : hypot64 a (negate64 b) = hypot64 a b := by
  have hspan : hypotSpan a (negate64 b) = hypotSpan a b := by
    simp only [hypotSpan, units64_negate64, code64_negate64]
  simp only [hypot64, hspan, finite64_negate64, magnitude64_negate64, code64_negate64]

theorem neg64_hypot64 {a b : F64} (ha : finite64 a = true) (hb : finite64 b = true) : neg64 (hypot64 a b) = false := by
  by_cases h0 : code64 b = 0
  · exact (hypot64_zero_exact ha h0).1
  · rw [hypot64_of_finite ha hb h0, neg64_pack64]

/-- The code that `hypot64` answers lies in the span, as far as infinity. -/
theorem code64_hypot64_between {a b : F64} (ha : finite64 a = true) (hb : finite64 b = true) (h0 : code64 b ≠ 0) :
    min (hypotSpan a b).1 infCode64 ≤ code64 (hypot64 a b) ∧ code64 (hypot64 a b) ≤ (hypotSpan a b).2 := by
  obtain ⟨hlo, hhi⟩ := within_between (Config.hypotLib (neg64 a) (code64 a, code64 b)).1 (hypotSpan_fst_le_snd a b)
  rw [hypot64_of_finite ha hb h0, code64_pack64]
  exact ⟨min_le_min_right _ hlo, (min_le_left _ _).trans hhi⟩

theorem code64_hypot64_mono {a a' b b' : F64} (ha' : finite64 a' = true) (hb' : finite64 b' = true)
    (hs : neg64 a = neg64 a') (ha : code64 a ≤ code64 a') (hb : code64 b ≤ code64 b') :
    code64 (hypot64 a b) ≤ code64 (hypot64 a' b') := by
  have haf := finite64_of_code_le ha' ha
  have hbf := finite64_of_code_le hb' hb
  have hinf := ((finite64_iff a).1 haf).le
  by_cases h0' : code64 b' = 0
  · rw [(hypot64_zero_exact haf (Nat.le_zero.1 (h0' ▸ hb))).2, (hypot64_zero_exact ha' h0').2]
    exact ha
  by_cases h0 : code64 b = 0
  · rw [(hypot64_zero_exact haf h0).2]
    exact (le_min (ha.trans le_hypotSpan_fst) hinf).trans (code64_hypot64_between ha' hb' h0').1
  · have hlib : (code64 a, code64 b) ≤ (code64 a', code64 b') := ⟨ha, hb⟩
    obtain ⟨hlo, hhi⟩ := hypotSpan_mono ha hb h0
    rw [hypot64_of_finite haf hbf h0, hypot64_of_finite ha' hb' h0', code64_pack64, code64_pack64, hs]
    exact min_le_min_right _ (within_mono hlo hhi ((Config.hypotLib (neg64 a')).monotone hlib).1)

/-- `hypot64` is within one unit in the last place of the root of the sum of squares. -/
theorem hypot64_within_ulp {a b : F64} (ha : finite64 a = true) (hb : finite64 b = true) :
    (units64 (hypot64 a b) - ulpUnits (isqrt (units64 a ^ 2 + units64 b ^ 2))) ^ 2 ≤ units64 a ^ 2 + units64 b ^ 2 ∧
    (finite64 (hypot64 a b) = true → units64 a ^ 2 + units64 b ^ 2 ≤
      (units64 (hypot64 a b) + ulpUnits (isqrt (units64 a ^ 2 + units64 b ^ 2))) ^ 2) := by
  have hsum : units64 a ^ 2 + units64 b ^ 2 = sumSq a b := by rw [sumSq, sq, sq]
  have hulp : ulpUnits (isqrt (sumSq a b)) = codeUlp (rootCode (sumSq a b)) := ulpUnits_eq_codeUlp _
  rw [hsum, hulp]
  by_cases h0 : code64 b = 0
  · have hu : units64 (hypot64 a b) = units64 a := by rw [units64, (hypot64_zero_exact ha h0).2, units64]
    have hs : sumSq a b = units64 a ^ 2 := by rw [sumSq, units64_eq_zero.2 h0, sq, Nat.mul_zero, Nat.add_zero]
    rw [hu, hs]
    exact ⟨Nat.pow_le_pow_left (Nat.sub_le _ _) 2, fun _ => Nat.pow_le_pow_left (Nat.le_add_right _ _) 2⟩
  · obtain ⟨hlo, hhi⟩ := code64_hypot64_between ha hb h0
    have hmono := (unitsOfCode_strictMono 52).monotone
    constructor
    · have hupper := hmono hhi
      rw [hypotSpan_snd, unitsOfCode_succ_eq_add_codeUlp] at hupper
      refine (Nat.pow_le_pow_left (Nat.sub_le_iff_le_add.2 hupper) 2).trans ?_
      rw [sq]
      exact (rootCode_bounds _).1
    · intro hf
      have hcode : (hypotSpan a b).1 ≤ code64 (hypot64 a b) :=
        (min_le_iff.1 hlo).resolve_right (not_le.2 ((finite64_iff _).1 hf))
      exact (sumSq_le_hypotSpan_fst a b).trans (Nat.pow_le_pow_left (Nat.add_le_add_right (hmono hcode) _) 2)

end Sys2Proof.Machine
end

section
/-! `ln` and `exp` are monotone whatever free map computes them: both ends of their spans rise with the operand
(92_eei_decisions.md D35; log 9, log 10). -/

namespace Sys2Proof.Machine

/-! ## Codes within one unit in the last place -/

/-- Quotients keep the order of the ratios. -/
theorem div_le_div_of_mul_le {p q p' q' : Nat} (hq : 0 < q) (hq' : 0 < q') (h : p * q' ≤ p' * q) : p / q ≤ p' / q' := by
  rw [Nat.le_div_iff_mul_le hq']
  refine Nat.le_of_mul_le_mul_right ?_ hq
  calc p / q * q' * q = p / q * q * q' := Nat.mul_right_comm _ _ _
    _ ≤ p * q' := Nat.mul_le_mul_right _ (Nat.div_mul_le_self _ _)
    _ ≤ p' * q := h

theorem floorCode_mono_ratio {p q p' q' : Nat} (hq : 0 < q) (hq' : 0 < q') (h : p * q' ≤ p' * q) :
    floorCode p q ≤ floorCode p' q' := by
  rw [floorCode_div p q, floorCode_div p' q']
  exact floorCode_mono (div_le_div_of_mul_le hq hq' h)

/-- The least code, by the floor code: one lower where the floor starts a binade and the ratio is less than half a unit
above it. -/
theorem leastCode_eq (p q : Nat) :
    leastCode p q = if binadeStart (floorCode p q) = true ∧
        2 * p < (2 * unitsOfCode 52 (floorCode p q) + codeUlp (floorCode p q)) * q then floorCode p q - 1
      else floorCode p q := by
  obtain ⟨hk, he⟩ := lastPlace_mantissa 52 p q
  have hunits : unitsOfCode 52 (floorCode p q) = p / (q * 2 ^ lastPlace 52 p q) * 2 ^ lastPlace 52 p q :=
    unitsOfCode_of_mantissa (by omega) he
  have hsplit : p % (q * 2 ^ lastPlace 52 p q) + unitsOfCode 52 (floorCode p q) * q = p := by
    rw [hunits, mul_assoc, mul_comm (2 ^ _) q, mul_comm (p / _)]
    exact Nat.mod_add_div _ _
  have hcond : 2 * (p % (q * 2 ^ lastPlace 52 p q)) < q * 2 ^ lastPlace 52 p q ↔
      2 * p < (2 * unitsOfCode 52 (floorCode p q) + codeUlp (floorCode p q)) * q := by
    have hbound : (2 * unitsOfCode 52 (floorCode p q) + codeUlp (floorCode p q)) * q =
        2 * (unitsOfCode 52 (floorCode p q) * q) + q * 2 ^ lastPlace 52 p q := by
      rw [codeUlp_floorCode]
      ring
    omega
  simp only [leastCode, Bool.and_eq_true, decide_eq_true_eq, hcond]

theorem leastCode_mono {p q p' q' : Nat} (hq : 0 < q) (hq' : 0 < q') (h : p * q' ≤ p' * q) :
    leastCode p q ≤ leastCode p' q' := by
  rw [leastCode_eq, leastCode_eq]
  refine lowered_mono (floorCode_mono_ratio hq hq' h) fun heq hlow => ?_
  rw [← heq] at hlow
  obtain ⟨hstart, hhalf⟩ := hlow
  generalize 2 * unitsOfCode 52 (floorCode p q) + codeUlp (floorCode p q) = bound at *
  refine ⟨hstart, Nat.lt_of_mul_lt_mul_right (a := q') ?_⟩
  calc 2 * p * q' = 2 * (p * q') := mul_assoc _ _ _
    _ ≤ 2 * (p' * q) := Nat.mul_le_mul_left 2 h
    _ = 2 * p' * q := (mul_assoc _ _ _).symm
    _ < bound * q' * q := Nat.mul_lt_mul_of_pos_right hhalf hq
    _ = bound * q * q' := Nat.mul_right_comm _ _ _

theorem greatestCode_mono {p q p' q' : Nat} (hq : 0 < q) (hq' : 0 < q') (h : p * q' ≤ p' * q) :
    greatestCode p q ≤ greatestCode p' q' :=
  Nat.succ_le_succ (floorCode_mono_ratio hq hq' h)

theorem leastCode_bounds (p q : Nat) : floorCode p q - 1 ≤ leastCode p q ∧ leastCode p q ≤ floorCode p q := by
  rw [leastCode]
  split <;> omega

theorem leastKey_mono {p p' : Int} (h : p ≤ p') : leastKey p ≤ leastKey p' := by
  rw [leastKey, leastKey]
  split
  · rw [if_pos (by omega)]
    exact_mod_cast leastCode_mono one_pos one_pos (by omega)
  · split
    · omega
    · have := greatestCode_mono (p := p'.natAbs) (p' := p.natAbs) one_pos one_pos (by omega)
      omega

theorem greatestKey_mono {p p' : Int} (h : p ≤ p') : greatestKey p ≤ greatestKey p' := by
  rw [greatestKey, greatestKey]
  split
  · split
    · have := leastCode_mono (p := p'.natAbs) (p' := p.natAbs) one_pos one_pos (by omega)
      omega
    · omega
  · rw [if_neg (by omega)]
    exact_mod_cast greatestCode_mono one_pos one_pos (by omega)

/-! ## The logarithm -/

theorem atanhGo_mono {z2 z2' pow pow' acc acc' : Nat} (n k : Nat) (hz : z2 ≤ z2') (hp : pow ≤ pow') (ha : acc ≤ acc') :
    atanhGo z2 n k pow acc ≤ atanhGo z2' n k pow' acc' := by
  induction n generalizing k pow pow' acc acc' with
  | zero => exact ha
  | succ n ih =>
    exact ih _ (Nat.div_le_div_right (Nat.mul_le_mul hp hz)) (Nat.add_le_add ha (Nat.div_le_div_right hp))

/-- `(m - one) / (m + one)` rises with `m`. -/
theorem atanhArg_mono {one m n : Nat} (h1 : 0 < one) (hm : one ≤ m) (h : m ≤ n) :
    (m - one) * one / (m + one) ≤ (n - one) * one / (n + one) := by
  obtain ⟨x, rfl⟩ := Nat.exists_eq_add_of_le hm
  obtain ⟨y, rfl⟩ := Nat.exists_eq_add_of_le (hm.trans h)
  have hxy : x ≤ y := by omega
  rw [Nat.add_sub_cancel_left, Nat.add_sub_cancel_left]
  refine div_le_div_of_mul_le (by omega) (by omega) ?_
  nlinarith [Nat.mul_le_mul_right (one * one) hxy]

/-- The mantissa's logarithm rises with the mantissa, from 1 on. -/
theorem lnFix_mono {m n : Nat} (hm : 2 ^ lnBits ≤ m) (h : m ≤ n) : lnFix m ≤ lnFix n := by
  have hz := atanhArg_mono (Nat.two_pow_pos lnBits) hm h
  exact Nat.mul_le_mul_left 2 (atanhGo_mono _ _ (Nat.div_le_div_right (Nat.mul_le_mul hz hz)) hz le_rfl)

/-- The mantissa of a number of units, fixed-point. -/
def lnMantissa (u : Nat) : Nat := u * 2 ^ lnBits / 2 ^ Nat.log2 u

theorem lnMantissa_bounds {u : Nat} (h : u ≠ 0) : 2 ^ lnBits ≤ lnMantissa u ∧ lnMantissa u ≤ 2 * 2 ^ lnBits := by
  have hpow : 0 < 2 ^ Nat.log2 u := by positivity
  have hlt : u ≤ 2 ^ Nat.log2 u * 2 := by
    rw [← pow_succ]
    exact Nat.lt_log2_self.le
  constructor
  · rw [lnMantissa, Nat.le_div_iff_mul_le hpow, mul_comm]
    exact Nat.mul_le_mul_right _ (Nat.log2_self_le h)
  · refine Nat.div_le_of_le_mul ?_
    rw [← mul_assoc]
    exact Nat.mul_le_mul_right _ hlt

theorem lnOfUnits_mono {u v : Nat} (hu : u ≠ 0) (h : u ≤ v) : lnOfUnits u ≤ lnOfUnits v := by
  obtain ⟨hu1, hu2⟩ := lnMantissa_bounds hu
  obtain ⟨hv1, -⟩ := lnMantissa_bounds (u := v) (by omega)
  have hlog : Nat.log2 u ≤ Nat.log2 v := by
    simpa only [Nat.log2_eq_log_two] using Nat.log_mono_right h
  change (lnFix (lnMantissa u) : Int) + ((Nat.log2 u : Int) - 1074) * ln2Fix ≤
    (lnFix (lnMantissa v) : Int) + ((Nat.log2 v : Int) - 1074) * ln2Fix
  rcases hlog.lt_or_eq with hlt | heq
  · have hfix : lnFix (lnMantissa u) ≤ ln2Fix := lnFix_mono hu1 hu2
    nlinarith
  · have hfix : lnFix (lnMantissa u) ≤ lnFix (lnMantissa v) := by
      refine lnFix_mono hu1 ?_
      rw [lnMantissa, lnMantissa, heq]
      exact Nat.div_le_div_right (Nat.mul_le_mul_right _ h)
    rw [heq]
    omega

/-- The code of 1. -/
def oneCode : Nat := 0x3FF0000000000000

/-- The series at 1 and at its neighbours, evaluated. -/
theorem lnOfUnits_near_one :
    lnOfUnits (unitsOfCode 52 (oneCode - 1)) < -lnError ∧ lnOfUnits (unitsOfCode 52 oneCode) = 0 ∧
      lnError < lnOfUnits (unitsOfCode 52 (oneCode + 1)) := by decide +kernel

theorem lnOfUnits_mono_code {c d : Nat} (hc : c ≠ 0) (h : c ≤ d) :
    lnOfUnits (unitsOfCode 52 c) ≤ lnOfUnits (unitsOfCode 52 d) :=
  lnOfUnits_mono (fun h0 => hc (unitsOfCode_eq_zero.1 h0)) ((unitsOfCode_strictMono 52).monotone h)

/-- The series is 0 at 1 and beyond its allowed error at every other word. -/
theorem lnOfUnits_of_code {c : Nat} (h : c ≠ 0) :
    lnOfUnits (unitsOfCode 52 c) < -lnError ∨ lnOfUnits (unitsOfCode 52 c) = 0 ∨
      lnError < lnOfUnits (unitsOfCode 52 c) := by
  obtain ⟨hbelow, hone, habove⟩ := lnOfUnits_near_one
  rcases lt_trichotomy c oneCode with hlt | rfl | hgt
  · exact .inl ((lnOfUnits_mono_code h (Nat.le_sub_one_of_lt hlt)).trans_lt hbelow)
  · exact .inr (.inl hone)
  · exact .inr (.inr (habove.trans_le (lnOfUnits_mono_code (Nat.succ_ne_zero _) hgt)))

theorem neg_one_le_leastKey {p : Int} (h : 0 < p) : -1 ≤ leastKey p := by
  rw [leastKey, if_pos h]
  omega

theorem one_le_greatestKey {p : Int} (h : 0 < p) : 1 ≤ greatestKey p := by
  rw [greatestKey, if_neg h.not_gt, greatestCode]
  omega

theorem leastKey_le_neg_one {p : Int} (h : p < 0) : leastKey p ≤ -1 := by
  rw [leastKey, if_neg h.not_gt, greatestCode]
  omega

theorem greatestKey_le_one {p : Int} (h : p < 0) : greatestKey p ≤ 1 := by
  rw [greatestKey, if_pos h]
  omega

/-- `lnSpan`, from the value of the series. -/
def seriesSpan (x : Int) : Int × Int :=
  if x = 0 then (-1, 1) else (leastKey ((x - lnError) * 2 ^ 754), greatestKey ((x + lnError) * 2 ^ 754))

theorem lnSpan_eq (u : Nat) : lnSpan u = seriesSpan (lnOfUnits u) := rfl

/-- Both ends of the span rise between values of the series that are 0 or beyond its allowed error. -/
theorem seriesSpan_mono {x y : Int} (h : x ≤ y) (hx : x < -lnError ∨ x = 0 ∨ lnError < x)
    (hy : y < -lnError ∨ y = 0 ∨ lnError < y) :
    (seriesSpan x).1 ≤ (seriesSpan y).1 ∧ (seriesSpan x).2 ≤ (seriesSpan y).2 := by
  have hscale : (0 : Int) < 2 ^ 754 := by positivity
  have herror : (0 : Int) < lnError := by decide
  rw [seriesSpan, seriesSpan]
  by_cases hx0 : x = 0
  · by_cases hy0 : y = 0
    · rw [if_pos hx0, if_pos hy0]
      exact ⟨le_rfl, le_rfl⟩
    · rw [if_pos hx0, if_neg hy0]
      exact ⟨neg_one_le_leastKey (mul_pos (by omega) hscale), one_le_greatestKey (mul_pos (by omega) hscale)⟩
  · by_cases hy0 : y = 0
    · rw [if_neg hx0, if_pos hy0]
      exact ⟨leastKey_le_neg_one (mul_neg_of_neg_of_pos (by omega) hscale),
        greatestKey_le_one (mul_neg_of_neg_of_pos (by omega) hscale)⟩
    · rw [if_neg hx0, if_neg hy0]
      exact ⟨leastKey_mono (Int.mul_le_mul_of_nonneg_right (by omega) hscale.le),
        greatestKey_mono (Int.mul_le_mul_of_nonneg_right (by omega) hscale.le)⟩

theorem key64_of_nonneg {w : F64} (h : neg64 w = false) : key64 w = code64 w := by
  rw [key64, h]
  rfl

theorem isNan64_freeWithin (lib : ℕ →o ℕ) (span : Int × Int) (a : F64) : isNan64 (freeWithin lib span a) = false :=
  isNan64_wordOfKey _ _

theorem ln64_mono {x y : F64} (hy : finite64 y = true) (hnx : neg64 x = false) (hny : neg64 y = false)
    (h0 : code64 x ≠ 0) (h : code64 x ≤ code64 y) : le64 (ln64 x) (ln64 y) = true := by
  have h0' : code64 y ≠ 0 := by omega
  obtain ⟨hlo, hhi⟩ := seriesSpan_mono (lnOfUnits_mono_code h0 h) (lnOfUnits_of_code h0) (lnOfUnits_of_code h0')
  rw [ln64_of_pos (finite64_of_code_le hy h) hnx h0, ln64_of_pos hy hny h0',
    le64_iff (isNan64_freeWithin _ _ _) (isNan64_freeWithin _ _ _)]
  refine key64_freeWithin_mono _ hlo hhi ?_
  rw [key64_of_nonneg hnx, key64_of_nonneg hny]
  exact_mod_cast h

/-- The magnitude of a word next to zero is at most one unit. -/
theorem natAbs_value64_le_one {w : F64} (h : code64 w ≤ 1) : (value64 w).natAbs ≤ 1 := by
  rw [value64_eq_signed, natAbs_signed]
  exact ((unitsOfCode_strictMono 52).monotone h).trans (by decide)

theorem ln64_one : (value64 (ln64 0x3FF0000000000000#64)).natAbs ≤ 1 := by
  have hcode : code64 0x3FF0000000000000#64 = oneCode := by decide
  have hspan : lnSpan (units64 0x3FF0000000000000#64) = (-1, 1) := by
    rw [lnSpan_eq, units64, hcode, lnOfUnits_near_one.2.1, seriesSpan, if_pos rfl]
  refine natAbs_value64_le_one ?_
  rw [← natAbs_key64, ln64_of_pos (by decide) (by decide) (by decide), hspan]
  obtain ⟨hlo, hhi⟩ := key64_freeWithin_between Config.lnLib (span := (-1, 1)) 0x3FF0000000000000#64 (by decide)
  have hi : infCode64 = 0x7FF0000000000000 := rfl
  omega

/-! ## The exponential -/

theorem expGo_mono {r r' term term' acc acc' : Nat} (n k : Nat) (hr : r ≤ r') (ht : term ≤ term') (ha : acc ≤ acc') :
    expGo r n k term acc ≤ expGo r' n k term' acc' := by
  induction n generalizing k term term' acc acc' with
  | zero => exact ha
  | succ n ih =>
    exact ih _ (Nat.div_le_div_right (Nat.div_le_div_right (Nat.mul_le_mul ht hr))) (Nat.add_le_add ha ht)

theorem le_expGo (r n k term acc : Nat) : acc ≤ expGo r n k term acc := by
  induction n generalizing k term acc with
  | zero => exact le_rfl
  | succ n ih => exact (Nat.le_add_right acc term).trans (ih _ _ _)

theorem expFix_mono {r r' : Nat} (h : r ≤ r') : expFix r ≤ expFix r' := expGo_mono _ _ h le_rfl le_rfl

/-- The series is at least its first term, 1. -/
theorem one_le_expFix (r : Nat) : 2 ^ expBits ≤ expFix r := by
  rw [expFix, expGo, Nat.zero_add]
  exact le_expGo _ _ _ _ _

theorem squaresDown_mono {t t' : Nat} (n : Nat) (h : t ≤ t') : squaresDown n t ≤ squaresDown n t' := by
  induction n generalizing t t' with
  | zero => exact h
  | succ n ih => exact ih (Nat.div_le_div_right (Nat.mul_le_mul h h))

theorem squaresUp_mono {t t' : Nat} (n : Nat) (h : t ≤ t') : squaresUp n t ≤ squaresUp n t' := by
  induction n generalizing t t' with
  | zero => exact h
  | succ n ih => exact ih (Nat.succ_le_succ (Nat.div_le_div_right (Nat.mul_le_mul h h)))

/-- The square of a number of at least 1 is at least 1. -/
theorem one_le_square {t : Nat} (h : 2 ^ expBits ≤ t) : 2 ^ expBits ≤ t * t / 2 ^ expBits := by
  rw [Nat.le_div_iff_mul_le (Nat.two_pow_pos _)]
  exact Nat.mul_le_mul h h

theorem one_le_squaresDown {t : Nat} (n : Nat) (h : 2 ^ expBits ≤ t) : 2 ^ expBits ≤ squaresDown n t := by
  induction n generalizing t with
  | zero => exact h
  | succ n ih => exact ih (one_le_square h)

theorem one_lt_squaresUp {t : Nat} (n : Nat) (h : 2 ^ expBits < t) : 2 ^ expBits < squaresUp n t := by
  induction n generalizing t with
  | zero => exact h
  | succ n ih => exact ih (Nat.lt_succ_of_le (one_le_square h.le))

theorem expLower_mono {u v : Nat} (h : u ≤ v) : expLower u ≤ expLower v :=
  squaresDown_mono _ (expFix_mono (Nat.mul_le_mul_right _ h))

theorem expUpper_mono {u v : Nat} (h : u ≤ v) : expUpper u ≤ expUpper v :=
  squaresUp_mono _ (Nat.add_le_add_right (expFix_mono (Nat.mul_le_mul_right _ h)) _)

theorem one_le_expLower (u : Nat) : 2 ^ expBits ≤ expLower u := one_le_squaresDown _ (one_le_expFix _)

theorem one_lt_expUpper (u : Nat) : 2 ^ expBits < expUpper u :=
  one_lt_squaresUp _ ((one_le_expFix _).trans_lt (Nat.lt_add_of_pos_right (Nat.two_pow_pos 32)))

/-- The span of `exp` between the bounds beyond which it is one of the extremes. -/
def expMiddleSpan (x : Int) : Int × Int :=
  if x = 0 then ((floorCode (2 ^ 1074) 1 : Int) - 1, (floorCode (2 ^ 1074) 1 : Int) + 1)
  else if 0 < x then
    (leastCode (expLower x.natAbs * 2 ^ 1074) (2 ^ expBits), greatestCode (expUpper x.natAbs * 2 ^ 1074) (2 ^ expBits))
  else
    (leastCode (2 ^ expBits * 2 ^ 1074) (expUpper x.natAbs), greatestCode (2 ^ expBits * 2 ^ 1074) (expLower x.natAbs))

theorem expSpan_eq (x : Int) :
    expSpan x = if 800 * 2 ^ 1074 ≤ x then ((infCode64 : Int), (infCode64 : Int))
      else if x ≤ -(800 * 2 ^ 1074) then ((0 : Int), (1 : Int)) else expMiddleSpan x := rfl

theorem expMiddleSpan_of_pos {x : Int} (h : 0 < x) :
    expMiddleSpan x = ((leastCode (expLower x.natAbs * 2 ^ 1074) (2 ^ expBits) : Int),
      (greatestCode (expUpper x.natAbs * 2 ^ 1074) (2 ^ expBits) : Int)) := by
  rw [expMiddleSpan, if_neg h.ne', if_pos h]

theorem expMiddleSpan_of_neg {x : Int} (h : x < 0) :
    expMiddleSpan x = ((leastCode (2 ^ expBits * 2 ^ 1074) (expUpper x.natAbs) : Int),
      (greatestCode (2 ^ expBits * 2 ^ 1074) (expLower x.natAbs) : Int)) := by
  rw [expMiddleSpan, if_neg h.ne, if_neg h.not_gt]

theorem unitsOfCode_oneCode : unitsOfCode 52 oneCode = 2 ^ 1074 := by
  rw [show oneCode = (1022 + 1) * 2 ^ 52 from rfl, unitsOfCode_binade]

theorem floorCode_one : floorCode (2 ^ 1074) 1 = oneCode := by
  rw [← unitsOfCode_oneCode, floorCode_unitsOfCode]

theorem expMiddleSpan_zero : expMiddleSpan 0 = ((oneCode : Int) - 1, (oneCode : Int) + 1) := by
  rw [expMiddleSpan, if_pos rfl, floorCode_one]

theorem oneCode_le_floorCode {p q : Nat} (hq : 0 < q) (h : 2 ^ 1074 * q ≤ p) : oneCode ≤ floorCode p q := by
  rw [le_floorCode_iff, unitsOfCode_oneCode, Nat.le_div_iff_mul_le hq]
  exact h

theorem floorCode_lt_oneCode {p q : Nat} (hq : 0 < q) (h : p < 2 ^ 1074 * q) : floorCode p q < oneCode := by
  rw [← not_le, le_floorCode_iff, unitsOfCode_oneCode, Nat.le_div_iff_mul_le hq]
  exact h.not_ge

theorem floorCode_le_oneCode {p q : Nat} (hq : 0 < q) (h : p ≤ 2 ^ 1074 * q) : floorCode p q ≤ oneCode := by
  rw [← floorCode_one]
  exact floorCode_mono_ratio hq one_pos (by rwa [Nat.mul_one])

/-- Above 0 the span lies above that of 0. -/
theorem expMiddleSpan_zero_le {x : Int} (h : 0 < x) :
    (expMiddleSpan 0).1 ≤ (expMiddleSpan x).1 ∧ (expMiddleSpan 0).2 ≤ (expMiddleSpan x).2 := by
  have hone : 0 < 2 ^ expBits := Nat.two_pow_pos _
  have hlo : oneCode ≤ floorCode (expLower x.natAbs * 2 ^ 1074) (2 ^ expBits) :=
    oneCode_le_floorCode hone (by rw [mul_comm]; exact Nat.mul_le_mul_right _ (one_le_expLower _))
  have hhi : oneCode ≤ floorCode (expUpper x.natAbs * 2 ^ 1074) (2 ^ expBits) :=
    oneCode_le_floorCode hone (by rw [mul_comm]; exact Nat.mul_le_mul_right _ (one_lt_expUpper _).le)
  have hleast := (leastCode_bounds (expLower x.natAbs * 2 ^ 1074) (2 ^ expBits)).1
  rw [expMiddleSpan_zero, expMiddleSpan_of_pos h, greatestCode]
  constructor <;> dsimp only <;> omega

/-- Below 0 the span lies below that of 0. -/
theorem expMiddleSpan_le_zero {x : Int} (h : x < 0) :
    (expMiddleSpan x).1 ≤ (expMiddleSpan 0).1 ∧ (expMiddleSpan x).2 ≤ (expMiddleSpan 0).2 := by
  have hlower := one_le_expLower x.natAbs
  have hupper := one_lt_expUpper x.natAbs
  have hlo : floorCode (2 ^ expBits * 2 ^ 1074) (expUpper x.natAbs) < oneCode :=
    floorCode_lt_oneCode (Nat.zero_lt_of_lt hupper)
      ((mul_comm _ _).trans_lt (Nat.mul_lt_mul_of_pos_left hupper (by positivity)))
  have hhi : floorCode (2 ^ expBits * 2 ^ 1074) (expLower x.natAbs) ≤ oneCode :=
    floorCode_le_oneCode ((Nat.two_pow_pos _).trans_le hlower) (by rw [mul_comm]; gcongr)
  have hleast := (leastCode_bounds (2 ^ expBits * 2 ^ 1074) (expUpper x.natAbs)).2
  rw [expMiddleSpan_zero, expMiddleSpan_of_neg h, greatestCode]
  constructor <;> dsimp only <;> omega

theorem expMiddleSpan_mono_of_pos {x y : Int} (hx : 0 < x) (h : x ≤ y) :
    (expMiddleSpan x).1 ≤ (expMiddleSpan y).1 ∧ (expMiddleSpan x).2 ≤ (expMiddleSpan y).2 := by
  have hone : 0 < 2 ^ expBits := Nat.two_pow_pos _
  have habs : x.natAbs ≤ y.natAbs := by omega
  rw [expMiddleSpan_of_pos hx, expMiddleSpan_of_pos (hx.trans_le h)]
  exact ⟨Nat.cast_le.2 (leastCode_mono hone hone
      (Nat.mul_le_mul_right _ (Nat.mul_le_mul_right _ (expLower_mono habs)))),
    Nat.cast_le.2 (greatestCode_mono hone hone
      (Nat.mul_le_mul_right _ (Nat.mul_le_mul_right _ (expUpper_mono habs))))⟩

theorem expMiddleSpan_mono_of_neg {x y : Int} (hy : y < 0) (h : x ≤ y) :
    (expMiddleSpan x).1 ≤ (expMiddleSpan y).1 ∧ (expMiddleSpan x).2 ≤ (expMiddleSpan y).2 := by
  have habs : y.natAbs ≤ x.natAbs := by omega
  have hlower (z : Int) : 0 < expLower z.natAbs := (Nat.two_pow_pos _).trans_le (one_le_expLower _)
  have hupper (z : Int) : 0 < expUpper z.natAbs := Nat.zero_lt_of_lt (one_lt_expUpper _)
  rw [expMiddleSpan_of_neg hy, expMiddleSpan_of_neg (lt_of_le_of_lt h hy)]
  exact ⟨Nat.cast_le.2 (leastCode_mono (hupper x) (hupper y) (Nat.mul_le_mul_left _ (expUpper_mono habs))),
    Nat.cast_le.2 (greatestCode_mono (hlower x) (hlower y) (Nat.mul_le_mul_left _ (expLower_mono habs)))⟩

theorem expMiddleSpan_mono {x y : Int} (h : x ≤ y) :
    (expMiddleSpan x).1 ≤ (expMiddleSpan y).1 ∧ (expMiddleSpan x).2 ≤ (expMiddleSpan y).2 := by
  rcases lt_trichotomy x 0 with hx | rfl | hx
  · rcases lt_trichotomy y 0 with hy | rfl | hy
    · exact expMiddleSpan_mono_of_neg hy h
    · exact expMiddleSpan_le_zero hx
    · obtain ⟨hlo, hhi⟩ := expMiddleSpan_le_zero hx
      obtain ⟨hlo', hhi'⟩ := expMiddleSpan_zero_le hy
      exact ⟨hlo.trans hlo', hhi.trans hhi'⟩
  · rcases h.lt_or_eq with hy | rfl
    · exact expMiddleSpan_zero_le hy
    · exact ⟨le_rfl, le_rfl⟩
  · exact expMiddleSpan_mono_of_pos hx h

theorem expMiddleSpan_bounds (x : Int) : 0 ≤ (expMiddleSpan x).1 ∧ 1 ≤ (expMiddleSpan x).2 := by
  rcases lt_trichotomy x 0 with hx | rfl | hx
  · rw [expMiddleSpan_of_neg hx, greatestCode]
    constructor <;> dsimp only <;> omega
  · rw [expMiddleSpan_zero]
    decide
  · rw [expMiddleSpan_of_pos hx, greatestCode]
    constructor <;> dsimp only <;> omega

/-- Both ends of the span of `exp` rise with the operand, as far as infinity: between overflow and the bound 800 the
middle span runs on beyond infinity. -/
theorem expSpan_mono {x y : Int} (h : x ≤ y) :
    min (infCode64 : Int) (expSpan x).1 ≤ min (infCode64 : Int) (expSpan y).1 ∧
      min (infCode64 : Int) (expSpan x).2 ≤ min (infCode64 : Int) (expSpan y).2 := by
  rw [expSpan_eq, expSpan_eq]
  generalize (800 * 2 ^ 1074 : Int) = bound
  by_cases hy : bound ≤ y
  · rw [if_pos hy]
    exact ⟨le_min (min_le_left _ _) (min_le_left _ _), le_min (min_le_left _ _) (min_le_left _ _)⟩
  · rw [if_neg hy, if_neg (fun hx => hy (hx.trans h))]
    by_cases hy' : y ≤ -bound
    · rw [if_pos hy', if_pos (h.trans hy')]
      exact ⟨le_rfl, le_rfl⟩
    · rw [if_neg hy']
      by_cases hx' : x ≤ -bound
      · rw [if_pos hx']
        exact ⟨min_le_min_left _ (expMiddleSpan_bounds y).1, min_le_min_left _ (expMiddleSpan_bounds y).2⟩
      · rw [if_neg hx']
        exact ⟨min_le_min_left _ (expMiddleSpan_mono h).1, min_le_min_left _ (expMiddleSpan_mono h).2⟩

theorem expSpan_zero : expSpan 0 = ((oneCode : Int) - 1, (oneCode : Int) + 1) := by
  have hbound : (0 : Int) < 800 * 2 ^ 1074 := by positivity
  rw [expSpan_eq, if_neg hbound.not_ge, if_neg (neg_lt_zero.2 hbound).not_ge, expMiddleSpan_zero]

theorem expSpan_fst_nonneg (x : Int) : 0 ≤ (expSpan x).1 := by
  rw [expSpan_eq]
  split
  · exact Nat.cast_nonneg _
  · split
    · exact le_rfl
    · exact (expMiddleSpan_bounds x).1

/-- The answer of a free map rises where the ends of the span do as far as infinity. -/
theorem key64_freeWithin_mono_of_min (lib : ℕ →o ℕ) {span span' : Int × Int} {a b : F64}
    (hl : min (infCode64 : Int) span.1 ≤ min (infCode64 : Int) span'.1)
    (hh : min (infCode64 : Int) span.2 ≤ min (infCode64 : Int) span'.2) (hk : key64 a ≤ key64 b) :
    key64 (freeWithin lib span a) ≤ key64 (freeWithin lib span' b) := by
  have hlib : lib (rank64 a) ≤ lib (rank64 b) := lib.monotone (by unfold rank64; omega)
  simp only [freeWithin, key64_wordOfKey, within]
  omega

/-- The answer of a free map is not below the lower end of the span, as far as infinity. -/
theorem le_key64_freeWithin (lib : ℕ →o ℕ) {span : Int × Int} (a : F64) :
    min (infCode64 : Int) span.1 ≤ key64 (freeWithin lib span a) := by
  simp only [freeWithin, key64_wordOfKey, within]
  omega

theorem exp64_mono {x y : F64} (hx : finite64 x = true) (hy : finite64 y = true) (h : le64 x y = true) :
    le64 (exp64 x) (exp64 y) = true := by
  have hk : key64 x ≤ key64 y := (le64_iff (isNan64_of_finite hx) (isNan64_of_finite hy)).1 h
  have hv : value64 x ≤ value64 y := not_lt.1 fun hlt => hk.not_gt ((value64_lt_iff y x).1 hlt)
  obtain ⟨hlo, hhi⟩ := expSpan_mono hv
  rw [exp64_of_finite hx, exp64_of_finite hy, le64_iff (isNan64_freeWithin _ _ _) (isNan64_freeWithin _ _ _)]
  exact key64_freeWithin_mono_of_min _ hlo hhi hk

theorem exp64_nonneg {x : F64} (hx : finite64 x = true) : le64 0#64 (exp64 x) = true := by
  rw [exp64_of_finite hx, le64_iff (by decide) (isNan64_freeWithin _ _ _), show key64 0#64 = 0 by decide]
  exact (le_min (Nat.cast_nonneg _) (expSpan_fst_nonneg _)).trans (le_key64_freeWithin _ _)

/-- `exp` of a zero is 1 or a neighbour of it. -/
theorem exp64_zero {z : F64} (h : code64 z = 0) :
    le64 0x3FEFFFFFFFFFFFFF#64 (exp64 z) = true ∧ le64 (exp64 z) 0x3FF0000000000001#64 = true := by
  have hv : value64 z = 0 := by rw [value64_eq_signed, signed_eq_zero, units64_eq_zero, h]
  have hspan : expSpan (value64 z) = ((oneCode : Int) - 1, (oneCode : Int) + 1) := by
    rw [hv, expSpan_zero]
  obtain ⟨hlo, hhi⟩ := key64_freeWithin_between Config.expLib (span := expSpan (value64 z)) z (by rw [hspan]; decide)
  have hbelow : key64 0x3FEFFFFFFFFFFFFF#64 = (oneCode : Int) - 1 := by decide
  have habove : key64 0x3FF0000000000001#64 = (oneCode : Int) + 1 := by decide
  rw [exp64_of_finite (finite64_of_code_zero h), le64_iff (by decide) (isNan64_freeWithin _ _ _),
    le64_iff (isNan64_freeWithin _ _ _) (by decide), hbelow, habove]
  have hi : infCode64 = 0x7FF0000000000000 := rfl
  have ho : oneCode = 0x3FF0000000000000 := rfl
  rw [hspan] at hlo hhi ⊢
  dsimp only at hlo hhi
  omega

/-- Settles O56: the ends of every span rise with the operands, and a monotone map held inside such spans is monotone. -/
theorem elementaryFunctionLaws : Obligations.ElementaryFunctionLaws :=
  ⟨fun _ _ => hypot64_zero_exact, hypot64_negate64,
    fun _ _ _ _ ha' hb' hs ha hb =>
      ⟨neg64_hypot64 (finite64_of_code_le ha' ha) (finite64_of_code_le hb' hb), code64_hypot64_mono ha' hb' hs ha hb⟩,
    fun _ _ => hypot64_within_ulp, fun _ _ => ln64_mono, ln64_one,
    fun _ _ hx hy h => ⟨exp64_mono hx hy h, exp64_nonneg hx⟩, fun _ => exp64_zero⟩

end Sys2Proof.Machine
end

section
/-! What an operation does where it is performed, and the registers it leaves alone (10_state.md R50;
47_frame_sequencer.md R171); the values after reset (10_state.md R48, R49). -/

namespace Sys2Proof.Machine

/-! ## Operations -/

/-- What an operation does where it is performed. -/
def effect : Instr → State → State
  | .push sample => storeSample sample
  | .pushNonfinite _ _ => raiseFatal causeNonfiniteInputCode
  | .accum | .halt | .seqReserved | .causeNone | .causeReserved => id
  | .handoff => doHandoff
  | .filt => doFilt
  | .rmscalc => doRmscalc
  | .gainupd => doGainupd
  | .apply => doApply
  | .cal => doCal
  | .zcrcalc => doZcrcalc
  | .dft => doDft
  | .flatcalc => doFlatcalc
  | .classify => doClassify
  | .hyst => doHyst
  | .check => doCheck
  | .emit => doEmit
  | .pcmBeat last data => driveBeat (beatWord last 0#1 data)
  | .vadVoice => driveBeat (beatWord 1#1 1#1 (vadData true))
  | .vadSilence => driveBeat (beatWord 1#1 1#1 (vadData false))
  | .causeNonfiniteInput => raiseFatal causeNonfiniteInputCode
  | .causeNonfiniteState => raiseFatal causeNonfiniteStateCode
  | .reset => doReset

/-- Whether an operation other than RESET is performed: a word needs a ready port, all else a core that runs. -/
def performed (i : Instr) (s : State) : Bool :=
  match i with
  | .push _ | .pushNonfinite _ _ => inReady s
  | _ => !s.halted

theorem exponentAllOnes_nonfiniteWord (sign : BitVec 1) (fraction : BitVec 23) :
    exponentAllOnes (nonfiniteWord sign fraction) = true := by
  have hw : (nonfiniteWord sign fraction).extractLsb' 23 8 = 0xFF#8 := by
    rw [nonfiniteWord, BitVec.extractLsb'_append_eq_of_le (by decide), BitVec.extractLsb'_append_eq_right]
  simp [exponentAllOnes, hw]

theorem acceptWord_of_wf {w : F32} (h : (Instr.push w).wf = true) (s : State) : acceptWord w s = storeSample w s := by
  have hw : exponentAllOnes w = false := by simpa [Instr.wf, exponentAllOnes] using h
  simp [acceptWord, hw]

theorem acceptWord_nonfiniteWord (sign : BitVec 1) (fraction : BitVec 23) (s : State) :
    acceptWord (nonfiniteWord sign fraction) s = raiseFatal causeNonfiniteInputCode s := by
  simp [acceptWord, exponentAllOnes_nonfiniteWord]

theorem whenRunning_eq_ite {f : State → State} {s t : State} (h : whenRunning f s = .next t) :
    t = if !s.halted then f s else s := by
  rcases whenRunning_next h with ⟨hh, rfl⟩ | ⟨hh, rfl⟩ <;> simp [hh]

theorem whenAccepted_eq_ite {f : State → State} {s t : State} (h : whenAccepted f s = .next t) :
    t = if inReady s then f s else s := by
  rcases whenAccepted_next h with ⟨hr, rfl⟩ | ⟨hr, rfl⟩ <;> simp [hr]

/-- Every operation but RESET has its effect where it is performed, and leaves the state elsewhere. -/
theorem exec_eq_ite {i : Instr} {s t : State} (hwf : i.wf = true) (h : exec i s = .next t) (hr : i ≠ .reset) :
    t = if performed i s then effect i s else s := by
  cases i with
  | push w =>
    refine (whenAccepted_eq_ite h).trans ?_
    rw [acceptWord_of_wf hwf]
    rfl
  | pushNonfinite a b =>
    refine (whenAccepted_eq_ite h).trans ?_
    rw [acceptWord_nonfiniteWord]
    rfl
  | causeReserved => simp [exec, execCauseReserved] at h
  | reset => exact absurd rfl hr
  | _ => exact whenRunning_eq_ite h

theorem exec_cases {i : Instr} {s t : State} (hwf : i.wf = true) (h : exec i s = .next t) (hr : i ≠ .reset) :
    (performed i s = false ∧ t = s) ∨ (performed i s = true ∧ t = effect i s) := by
  rw [exec_eq_ite hwf h hr]
  cases performed i s
  · exact .inl ⟨rfl, rfl⟩
  · exact .inr ⟨rfl, rfl⟩

theorem not_performed_of_halted {i : Instr} {s : State} (h : s.halted = true) : performed i s = false := by
  cases i <;> simp [performed, inReady, h]

/-! ## What each effect leaves alone -/

section
variable {i : Instr} (s : State) (hr : i ≠ .reset)
include hr

theorem effect_acc (h : ∀ w, i ≠ .push w) : (effect i s).acc = s.acc := by
  cases i with
  | push w => exact absurd rfl (h w)
  | check => exact doCheck_acc s
  | reset => exact absurd rfl hr
  | _ => rfl

theorem effect_wr (h : ∀ w, i ≠ .push w) (h' : i ≠ .handoff) : (effect i s).wr = s.wr := by
  cases i with
  | push w => exact absurd rfl (h w)
  | handoff => exact absurd rfl h'
  | check => exact doCheck_wr s
  | reset => exact absurd rfl hr
  | _ => rfl

theorem effect_frm (h : i ≠ .handoff) (h' : i ≠ .filt) (h'' : i ≠ .apply) : (effect i s).frm = s.frm := by
  cases i with
  | handoff => exact absurd rfl h
  | filt => exact absurd rfl h'
  | apply => exact absurd rfl h''
  | check => exact doCheck_frm s
  | reset => exact absurd rfl hr
  | _ => rfl

theorem effect_filters (h : i ≠ .filt) :
    (effect i s).hpXp = s.hpXp ∧ (effect i s).hpYp = s.hpYp ∧ (effect i s).lpY = s.lpY := by
  cases i with
  | filt => exact absurd rfl h
  | check => exact ⟨doCheck_hpXp s, doCheck_hpYp s, doCheck_lpY s⟩
  | reset => exact absurd rfl hr
  | _ => exact ⟨rfl, rfl, rfl⟩

theorem effect_rms (h : i ≠ .rmscalc) : (effect i s).rms = s.rms := by
  cases i with
  | rmscalc => exact absurd rfl h
  | check => exact doCheck_rms s
  | reset => exact absurd rfl hr
  | _ => rfl

theorem effect_gain (h : i ≠ .gainupd) : (effect i s).need = s.need ∧ (effect i s).gain = s.gain := by
  cases i with
  | gainupd => exact absurd rfl h
  | check => exact ⟨doCheck_need s, doCheck_gain s⟩
  | reset => exact absurd rfl hr
  | _ => exact ⟨rfl, rfl⟩

theorem effect_cal (h : i ≠ .cal) :
    (effect i s).calLeft = s.calLeft ∧ (effect i s).calSum = s.calSum ∧ (effect i s).calCnt = s.calCnt ∧
      (effect i s).nf = s.nf := by
  cases i with
  | cal => exact absurd rfl h
  | check => exact ⟨doCheck_calLeft s, doCheck_calSum s, doCheck_calCnt s, doCheck_nf s⟩
  | reset => exact absurd rfl hr
  | _ => exact ⟨rfl, rfl, rfl, rfl⟩

theorem effect_zcr (h : i ≠ .zcrcalc) : (effect i s).zc = s.zc ∧ (effect i s).zcr = s.zcr := by
  cases i with
  | zcrcalc => exact absurd rfl h
  | check => exact ⟨doCheck_zc s, doCheck_zcr s⟩
  | reset => exact absurd rfl hr
  | _ => exact ⟨rfl, rfl⟩

theorem effect_mag (h : i ≠ .dft) : (effect i s).mag = s.mag := by
  cases i with
  | dft => exact absurd rfl h
  | check => exact doCheck_mag s
  | reset => exact absurd rfl hr
  | _ => rfl

theorem effect_flat (h : i ≠ .flatcalc) :
    (effect i s).gm = s.gm ∧ (effect i s).am = s.am ∧ (effect i s).flat = s.flat := by
  cases i with
  | flatcalc => exact absurd rfl h
  | check => exact ⟨doCheck_gm s, doCheck_am s, doCheck_flat s⟩
  | reset => exact absurd rfl hr
  | _ => exact ⟨rfl, rfl, rfl⟩

theorem effect_classify (h : i ≠ .classify) : (effect i s).thr = s.thr ∧ (effect i s).isVoice = s.isVoice := by
  cases i with
  | classify => exact absurd rfl h
  | check => exact ⟨doCheck_thr s, doCheck_isVoice s⟩
  | reset => exact absurd rfl hr
  | _ => exact ⟨rfl, rfl⟩

theorem effect_hyst (h : i ≠ .hyst) :
    (effect i s).silCnt = s.silCnt ∧ (effect i s).voice = s.voice ∧ (effect i s).trans = s.trans := by
  cases i with
  | hyst => exact absurd rfl h
  | check => exact ⟨doCheck_silCnt s, doCheck_voice s, doCheck_trans s⟩
  | reset => exact absurd rfl hr
  | _ => exact ⟨rfl, rfl, rfl⟩

theorem effect_port (h : i ≠ .emit) : (effect i s).port = s.port := by
  cases i with
  | emit => exact absurd rfl h
  | check => exact doCheck_port s
  | reset => exact absurd rfl hr
  | _ => rfl

theorem effect_sent (h : ∀ l d, i ≠ .pcmBeat l d) (h' : i ≠ .vadVoice) (h'' : i ≠ .vadSilence) :
    (effect i s).sent = s.sent := by
  cases i with
  | pcmBeat l d => exact absurd rfl (h l d)
  | vadVoice => exact absurd rfl h'
  | vadSilence => exact absurd rfl h''
  | check => exact doCheck_sent s
  | reset => exact absurd rfl hr
  | _ => rfl

theorem effect_latch (h : ∀ a b, i ≠ .pushNonfinite a b) (hc : i ≠ .check) (h1 : i ≠ .causeNonfiniteInput)
    (h2 : i ≠ .causeNonfiniteState) : (effect i s).halted = s.halted ∧ (effect i s).cause = s.cause := by
  cases i with
  | pushNonfinite a b => exact absurd rfl (h a b)
  | check => exact absurd rfl hc
  | causeNonfiniteInput => exact absurd rfl h1
  | causeNonfiniteState => exact absurd rfl h2
  | reset => exact absurd rfl hr
  | _ => exact ⟨rfl, rfl⟩

theorem effect_host : (effect i s).rst = s.rst ∧ (effect i s).inq = s.inq := by
  cases i with
  | check => exact ⟨doCheck_rst s, doCheck_inq s⟩
  | _ => exact ⟨rfl, rfl⟩

end

/-! ## Where SEQ goes -/

/-- The transfers of R171 between the stages, and to the halt (R181). -/
theorem effect_seq_transfers (i : Instr) (s : State) :
    (i = .handoff → (effect i s).seq = seqFilt) ∧ (i = .filt → (effect i s).seq = seqRmscalc) ∧
    (i = .rmscalc → (effect i s).seq = seqGainupd) ∧ (i = .gainupd → (effect i s).seq = seqApply) ∧
    (i = .apply → (effect i s).seq = seqCal) ∧ (i = .cal → (effect i s).seq = seqZcrcalc) ∧
    (i = .zcrcalc → (effect i s).seq = seqDft) ∧ (i = .dft → (effect i s).seq = seqFlatcalc) ∧
    (i = .flatcalc → (effect i s).seq = seqClassify) ∧ (i = .classify → (effect i s).seq = seqHyst) ∧
    (i = .hyst → (effect i s).seq = seqCheck) ∧
    (i = .check → (effect i s).seq = if checkedFinite s then seqEmit else seqHalt) ∧
    (i = .emit → (effect i s).seq = seqAccum) ∧
    (i = .causeNonfiniteInput ∨ i = .causeNonfiniteState → (effect i s).seq = seqHalt) := by
  cases i <;> simp [effect]

theorem effect_seq_idle {i : Instr} (s : State)
    (h : i = .accum ∨ i = .halt ∨ i = .seqReserved ∨ (∃ l d, i = .pcmBeat l d) ∨ i = .vadVoice ∨ i = .vadSilence ∨
      i = .causeNone) : (effect i s).seq = s.seq := by
  rcases h with rfl | rfl | rfl | ⟨l, d, rfl⟩ | rfl | rfl | rfl <;> rfl

/-- The state takes none of the transfers where a stage is not performed: the core is halted there. -/
theorem not_performed_transfers {i : Instr} {s : State} (h : performed i s = false) (hh : s.halted = false) :
    i ≠ .handoff ∧ i ≠ .filt ∧ i ≠ .rmscalc ∧ i ≠ .gainupd ∧ i ≠ .apply ∧ i ≠ .cal ∧ i ≠ .zcrcalc ∧ i ≠ .dft ∧
      i ≠ .flatcalc ∧ i ≠ .classify ∧ i ≠ .hyst ∧ i ≠ .check ∧ i ≠ .emit ∧ i ≠ .causeNonfiniteInput ∧
      i ≠ .causeNonfiniteState := by
  refine ⟨?_, ?_, ?_, ?_, ?_, ?_, ?_, ?_, ?_, ?_, ?_, ?_, ?_, ?_, ?_⟩ <;>
    · rintro rfl
      simp [performed, hh] at h

/-- Settles O51: an operation that is not performed changes nothing, and each clause is a fact about the effect of one
that is. -/
theorem onlyNamedStagesWrite : Obligations.OnlyNamedStagesWrite := by
  intro i s t hwf h hr
  rcases exec_cases hwf h hr with ⟨hp, rfl⟩ | ⟨hp, rfl⟩
  · refine ⟨fun _ => ⟨rfl, fun _ => rfl⟩, fun _ _ _ => rfl, fun _ => ⟨rfl, rfl, rfl⟩, fun _ => rfl,
      fun _ => ⟨rfl, rfl⟩, fun _ => ⟨rfl, rfl, rfl, rfl⟩, fun _ => ⟨rfl, rfl⟩, fun _ => rfl, fun _ => ⟨rfl, rfl, rfl⟩,
      fun _ => ⟨rfl, rfl⟩, fun _ => ⟨rfl, rfl, rfl⟩, fun _ => rfl, fun _ _ _ => rfl, fun _ _ _ _ => ⟨rfl, rfl⟩,
      fun _ => rfl, fun _ => rfl, ?push, ?pushNonfinite, fun hh => ?transfers, rfl, rfl⟩
    case push =>
      rintro w rfl
      have hready : inReady t = false := hp
      simp [hready]
    case pushNonfinite =>
      rintro a b rfl
      have hready : inReady t = false := hp
      simp [hready]
    case transfers =>
      have hne := not_performed_transfers hp hh
      simp [hne]
  · refine ⟨fun hi => ⟨effect_acc s hr hi, effect_wr s hr hi⟩, effect_frm s hr, effect_filters s hr, effect_rms s hr,
      effect_gain s hr, effect_cal s hr, effect_zcr s hr, effect_mag s hr, effect_flat s hr, effect_classify s hr,
      effect_hyst s hr, effect_port s hr, effect_sent s hr, effect_latch s hr, fun hh => ?halted, effect_seq_idle s,
      ?push, ?pushNonfinite, fun _ => effect_seq_transfers i s, effect_host s hr⟩
    case halted => exact absurd (hp.symm.trans (not_performed_of_halted hh)) (by decide)
    case push =>
      rintro w rfl
      have hready : inReady s = true := hp
      simp only [hready, true_and]
      rfl
    case pushNonfinite =>
      rintro a b rfl
      exact (if_pos hp).symm

/-! ## Reset -/

/-- Settles O46, by evaluation: the state is fixed. -/
theorem resetStateValues : Obligations.ResetStateValues := by
  unfold Obligations.ResetStateValues ResetValues
  decide

/-- Settles O45: RESET takes these registers from the state after reset. -/
theorem resetRestoresRegisters : Obligations.ResetRestoresRegisters := fun s =>
  ⟨doReset s, rfl, resetStateValues⟩

/-- Settles O49: the first part of each invariant is about fixed values, and nothing is in flight or driven. -/
theorem resetMeetsInvariants : Obligations.ResetMeetsInvariants := by
  refine ⟨⟨by decide, by decide, fun h => absurd rfl h⟩, ⟨fun _ => rfl, fun h => absurd h (by decide)⟩, ?_,
    ⟨rfl, by decide, fun _ => rfl⟩, ⟨fun h => absurd h (by decide), fun _ => .inl rfl⟩, ⟨by decide, by decide⟩,
    ⟨fun h => absurd h (by decide), by simp [State.reset], by simp [State.reset]⟩⟩
  unfold WrOk
  decide

end Sys2Proof.Machine
end

section
/-! What every step keeps (10_state.md R49): the calibration, the hysteresis, the sequencer and the bound on what is
emitted. -/

namespace Sys2Proof.Machine

/-! ## The stages by their codes -/

theorem seq_code_cases (c : BitVec 4) :
    c = seqAccum ∨ c = seqHandoff ∨ c = seqFilt ∨ c = seqRmscalc ∨ c = seqGainupd ∨ c = seqApply ∨ c = seqCal ∨
      c = seqZcrcalc ∨ c = seqDft ∨ c = seqFlatcalc ∨ c = seqClassify ∨ c = seqHyst ∨ c = seqCheck ∨ c = seqEmit ∨
      c = seqReservedCode ∨ c = seqHalt := by
  revert c
  decide

theorem stageEffect_eq_effect (c : BitVec 4) (s : State) : stageEffect c s = effect (decodeSeq c) s := by
  rcases seq_code_cases c with rfl | rfl | rfl | rfl | rfl | rfl | rfl | rfl | rfl | rfl | rfl | rfl | rfl | rfl | rfl |
    rfl <;> rfl

theorem decodeSeq_ne_reset (c : BitVec 4) : decodeSeq c ≠ .reset := by
  revert c
  decide

theorem decodeSeq_ne_push (c : BitVec 4) (w : F32) : decodeSeq c ≠ .push w := by
  unfold decodeSeq
  split <;> simp

theorem decodeSeq_ne_pushNonfinite (c : BitVec 4) (a : BitVec 1) (b : BitVec 23) :
    decodeSeq c ≠ .pushNonfinite a b := by
  unfold decodeSeq
  split <;> simp

theorem decodeSeq_ne_pcmBeat (c : BitVec 4) (last : BitVec 1) (data : F32) : decodeSeq c ≠ .pcmBeat last data := by
  unfold decodeSeq
  split <;> simp

/-- Which codes are not idle: those of the stages before CHECK, of CHECK and of EMIT. -/
theorem stage_code_cases {c : BitVec 4} (ha : c ≠ seqAccum) (hr : c ≠ seqReservedCode) (hh : c ≠ seqHalt) :
    (seqHandoff ≤ c ∧ c ≤ seqHyst) ∨ c = seqCheck ∨ c = seqEmit := by
  revert c
  decide

/-- The stages from HANDOFF to CHECK follow each other in the order of their codes (R171). -/
theorem effect_decodeSeq_seq {c : BitVec 4} (s : State) (hlo : seqHandoff ≤ c) (hhi : c ≤ seqHyst) :
    (effect (decodeSeq c) s).seq = c + 1#4 := by
  have hc : c = seqHandoff ∨ c = seqFilt ∨ c = seqRmscalc ∨ c = seqGainupd ∨ c = seqApply ∨ c = seqCal ∨
      c = seqZcrcalc ∨ c = seqDft ∨ c = seqFlatcalc ∨ c = seqClassify ∨ c = seqHyst := by
    revert c
    decide
  rcases hc with rfl | rfl | rfl | rfl | rfl | rfl | rfl | rfl | rfl | rfl | rfl <;> rfl

/-- Before CHECK no stage writes the latch, the cause or the beats in flight. -/
theorem effect_before_check {c : BitVec 4} (s : State) (hhi : c ≤ seqHyst) :
    (effect (decodeSeq c) s).halted = s.halted ∧ (effect (decodeSeq c) s).cause = s.cause ∧
      (effect (decodeSeq c) s).port = s.port := by
  have hr := decodeSeq_ne_reset c
  have hne : decodeSeq c ≠ .check ∧ decodeSeq c ≠ .emit ∧ decodeSeq c ≠ .causeNonfiniteInput ∧
      decodeSeq c ≠ .causeNonfiniteState := by
    revert c
    decide
  obtain ⟨hcheck, hemit, h1, h2⟩ := hne
  obtain ⟨hhalted, hcause⟩ := effect_latch s hr (decodeSeq_ne_pushNonfinite c) hcheck h1 h2
  exact ⟨hhalted, hcause, effect_port s hr hemit⟩

/-! ## One rule for what every step keeps -/

/-- What a reset, an accepted word, a driven beat and a stage keep, every step keeps. -/
theorem step_keeps {P : State → Prop} {s t : State} (h : step s = .next t) (hs : P s)
    (hreset : P (doReset { s with rst := false }))
    (hfatal : ∀ ws, Quiescent s → P (raiseFatal causeNonfiniteInputCode { s with inq := ws }))
    (hstore : ∀ w ws, Quiescent s → P (storeSample w { s with inq := ws }))
    (hbeat : ∀ b bs, s.port = b :: bs → P (driveBeat b { s with port := bs }))
    (hstage : s.halted = false → s.port = [] → s.seq ≠ seqAccum → P (effect (decodeSeq s.seq) s)) : P t := by
  rcases step_cases h with ⟨-, rfl⟩ | ⟨-, -, rfl⟩ | ⟨b, bs, -, -, hp, -, rfl⟩ | ⟨w, ws, hq, -, rfl⟩ | ⟨-, rfl⟩ |
    ⟨-, hh, hp, hne, rfl⟩
  · exact hreset
  · exact hs
  · exact hbeat b bs hp
  · unfold acceptWord
    split
    · exact hfatal ws hq
    · exact hstore w ws hq
  · exact hs
  · exact stageEffect_eq_effect s.seq s ▸ hstage hh hp hne

/-! ## Calibration -/

theorem calStep_of_calibrating {S C : Type} (N : Num S C) (rms : C) {c : CalState C} (h : 0 < c.calLeft) :
    calStep N rms c =
      { calSum := N.add c.calSum rms
        calCnt := c.calCnt + 1
        calLeft := c.calLeft - 160
        nf := if c.calLeft - 160 ≤ 0 then noiseFloor N (N.add c.calSum rms) (c.calCnt + 1) c.nf else c.nf } := by
  simp [calStep, calibrating, frozen, h]

theorem calStep_of_frozen {S C : Type} (N : Num S C) (rms : C) {c : CalState C} (h : c.calLeft ≤ 0) :
    calStep N rms c = c := by
  simp [calStep, calibrating, h]

/-- One calibration step keeps the tie of the registers and, until the window ends, the default floor. -/
theorem calOk_doCal {s : State} (h : CalOk s) : CalOk (doCal s) := by
  obtain ⟨htie, hcnt, hnf⟩ := h
  rw [CalOk, doCal_calLeft, doCal_calCnt, doCal_nf]
  rcases lt_or_ge 0 s.calLeft with hpos | hneg
  · rw [calStep_of_calibrating _ _ (c := calStateOf s) hpos]
    dsimp only [calStateOf]
    refine ⟨by push_cast; omega, by omega, fun hleft => ?_⟩
    exact (if_neg hleft.not_ge).trans (hnf hpos)
  · rw [calStep_of_frozen _ _ (c := calStateOf s) hneg]
    exact ⟨htie, hcnt, hnf⟩

/-- Settles O28: CAL is the only stage that writes the calibration registers. -/
theorem stepKeepsCalibration : Obligations.StepKeepsCalibration := by
  intro s t hs h
  obtain ⟨-, -, -, hreset, -⟩ := resetMeetsInvariants
  refine step_keeps h hs hreset (fun _ _ => hs) (fun _ _ _ => hs) (fun _ _ _ => hs) fun _ _ _ => ?_
  by_cases hi : decodeSeq s.seq = .cal
  · rw [hi]
    exact calOk_doCal hs
  · obtain ⟨hleft, -, hcnt, hnf⟩ := effect_cal s (decodeSeq_ne_reset _) hi
    rwa [CalOk, hleft, hcnt, hnf]

/-! ## Hysteresis -/

/-- HYST leaves VOICE on with a run of at most 4 and off with one of at least 5, whatever it found. -/
theorem vadOk_doHyst (s : State) : VadOk (doHyst s) := by
  simp only [VadOk, doHyst_voice, doHyst_silCnt, silenceRun, debounced, Config.hang]
  cases s.isVoice
  · simp
  · simp

/-- Settles O38: HYST is the only stage that writes VOICE and SIL_CNT. -/
theorem stepKeepsVadTie : Obligations.StepKeepsVadTie := by
  intro s t hs h
  obtain ⟨-, -, -, -, hreset, -⟩ := resetMeetsInvariants
  refine step_keeps h hs hreset (fun _ _ => hs) (fun _ _ _ => hs) (fun _ _ _ => hs) fun _ _ _ => ?_
  by_cases hi : decodeSeq s.seq = .hyst
  · rw [hi]
    exact vadOk_doHyst s
  · obtain ⟨hsil, hvoice, -⟩ := effect_hyst s (decodeSeq_ne_reset _) hi
    rwa [VadOk, hsil, hvoice]

/-! ## The sequencer -/

/-- The sequencer, the latch and the write offset in order. -/
def ControlOk (s : State) : Prop := SeqOk s ∧ CauseOk s ∧ WrOk s

theorem seqOk_of_running {s : State} (hh : s.halted = false) (hhalt : s.seq ≠ seqHalt) (hres : s.seq ≠ seqReservedCode)
    (hp : s.port ≠ [] → s.seq = seqAccum) : SeqOk s :=
  ⟨⟨fun h => absurd (hh.symm.trans h) Bool.false_ne_true, fun h => absurd h hhalt⟩, hres, hp⟩

theorem causeOk_of_running {s : State} (hh : s.halted = false) (hc : s.cause = 0#2) : CauseOk s :=
  ⟨fun _ => hc, fun h => absurd (hh.symm.trans h) Bool.false_ne_true⟩

/-- A fatal condition keeps the order when nothing is in flight and the write offset is below 160. -/
theorem controlOk_raiseFatal {c : BitVec 2} {s : State}
    (hc : c = causeNonfiniteInputCode ∨ c = causeNonfiniteStateCode) (hp : s.port = []) (hw : s.wr < 160) :
    ControlOk (raiseFatal c s) :=
  ⟨⟨⟨fun _ => rfl, fun _ => rfl⟩, show seqHalt ≠ seqReservedCode by decide, fun h => absurd hp h⟩,
    ⟨fun h => absurd h (by simp), fun _ => hc⟩, by
    rw [WrOk, raiseFatal_seq, if_neg (by decide)]
    exact hw⟩

theorem WrOk.lt {s : State} (h : WrOk s) (hs : s.seq ≠ seqHandoff) : s.wr < 160 := by
  rwa [WrOk, if_neg hs] at h

theorem controlOk_storeSample {w : F32} {s : State} (h : ControlOk s) (hq : Quiescent s) :
    ControlOk (storeSample w s) := by
  obtain ⟨-, ⟨hcause, -⟩, hwr⟩ := h
  obtain ⟨-, hh, hs, hp⟩ := hq
  have hlt := hwr.lt (by rw [hs]; decide)
  have hseq : (storeSample w s).seq = if s.wr + 1 = 160 then seqHandoff else seqAccum := by rw [storeSample_seq, hs]
  refine ⟨seqOk_of_running hh ?_ ?_ fun h => absurd hp h, causeOk_of_running hh (hcause hh), ?_⟩
  · rw [hseq]; split <;> decide
  · rw [hseq]; split <;> decide
  · rw [WrOk, hseq, storeSample_wr]
    by_cases hfull : s.wr + 1 = 160
    · simp [hfull]
    · rw [if_neg hfull, if_neg (by decide)]
      omega

/-- A stage before CHECK goes on to the next; HANDOFF brings the write offset below 160. -/
theorem controlOk_before_check {s : State} (h : ControlOk s) (hh : s.halted = false) (hp : s.port = [])
    (hlo : seqHandoff ≤ s.seq) (hhi : s.seq ≤ seqHyst) : ControlOk (effect (decodeSeq s.seq) s) := by
  obtain ⟨-, ⟨hcause, -⟩, hwr⟩ := h
  obtain ⟨hh', hc', hp'⟩ := effect_before_check s hhi
  have hseq := effect_decodeSeq_seq s hlo hhi
  have hnext : s.seq + 1#4 ≠ seqHandoff ∧ s.seq + 1#4 ≠ seqHalt ∧ s.seq + 1#4 ≠ seqReservedCode := by
    generalize s.seq = c at hlo hhi
    revert c
    decide
  obtain ⟨hne, hhalt, hres⟩ := hnext
  refine ⟨seqOk_of_running (hh'.trans hh) (hseq ▸ hhalt) (hseq ▸ hres) fun h => absurd (hp'.trans hp) h,
    causeOk_of_running (hh'.trans hh) (hc'.trans (hcause hh)), ?_⟩
  rw [WrOk, hseq, if_neg hne]
  by_cases hs : s.seq = seqHandoff
  · rw [hs]
    exact (by decide : 0 < 160)
  · have hdec : decodeSeq s.seq ≠ .handoff := by
      generalize s.seq = c at hs
      revert c
      decide
    rw [effect_wr s (decodeSeq_ne_reset _) (decodeSeq_ne_push _) hdec]
    exact hwr.lt hs

theorem controlOk_doCheck {s : State} (h : ControlOk s) (hh : s.halted = false) (hp : s.port = [])
    (hs : s.seq = seqCheck) : ControlOk (doCheck s) := by
  obtain ⟨-, ⟨hcause, -⟩, hwr⟩ := h
  have hlt := hwr.lt (by rw [hs]; decide)
  unfold doCheck
  split
  · exact ⟨seqOk_of_running hh (show seqEmit ≠ seqHalt by decide) (show seqEmit ≠ seqReservedCode by decide)
      fun h => absurd hp h, causeOk_of_running hh (hcause hh), hlt⟩
  · exact controlOk_raiseFatal (.inr rfl) hp hlt

theorem controlOk_doEmit {s : State} (h : ControlOk s) (hh : s.halted = false) (hs : s.seq = seqEmit) :
    ControlOk (doEmit s) := by
  obtain ⟨-, ⟨hcause, -⟩, hwr⟩ := h
  exact ⟨seqOk_of_running hh (show seqAccum ≠ seqHalt by decide) (show seqAccum ≠ seqReservedCode by decide)
    fun _ => rfl, causeOk_of_running hh (hcause hh), hwr.lt (by rw [hs]; decide)⟩

/-- Settles O48: by what a fatal condition, an accepted word, a driven beat and each kind of stage do to SEQ. -/
theorem stepKeepsSequencer : Obligations.StepKeepsSequencer := by
  intro s t hseq hcause hwr h
  have hs : ControlOk s := ⟨hseq, hcause, hwr⟩
  obtain ⟨hreset1, hreset2, hreset3, -⟩ := resetMeetsInvariants
  obtain ⟨hhalt, hres, hport⟩ := hseq
  refine step_keeps (P := ControlOk) h hs ⟨hreset1, hreset2, hreset3⟩ (fun ws hq => ?fatal)
    (fun w ws hq => controlOk_storeSample hs hq) (fun b bs hp => ?beat) fun hh hp hne => ?stage
  case fatal =>
    obtain ⟨-, -, hacc, hp⟩ := hq
    exact controlOk_raiseFatal (.inl rfl) hp (hwr.lt (by rw [hacc]; decide))
  case beat => exact ⟨⟨hhalt, hres, fun _ => hport (by simp [hp])⟩, hcause, hwr⟩
  case stage =>
    have hnh : s.seq ≠ seqHalt := fun e => Bool.false_ne_true (hh.symm.trans (hhalt.2 e))
    rcases stage_code_cases hne hres hnh with ⟨hlo, hhi⟩ | hc | hc
    · exact controlOk_before_check hs hh hp hlo hhi
    · rw [hc]
      exact controlOk_doCheck hs hh hp hc
    · rw [hc]
      exact controlOk_doEmit hs hh hc

/-! ## The output -/

theorem beatType_beatWord (last type : BitVec 1) (data : F32) : beatType (beatWord last type data) = type := by
  rw [beatType, beatWord, BitVec.extractLsb'_append_eq_of_le (by decide), BitVec.extractLsb'_append_eq_right]

theorem beatData_beatWord (last type : BitVec 1) (data : F32) : beatData (beatWord last type data) = data :=
  BitVec.extractLsb'_append_eq_right

theorem beatOk_pcm {w : F32} (last : BitVec 1) (h : ClipBounded w) : BeatOk (beatWord last 0#1 w) := by
  have htype : (beatWord last 0#1 w).extractLsb' 32 1 = 0#1 := beatType_beatWord last 0#1 w
  have hdec := decode_out (beatWord last 0#1 w)
  rw [decodeOut, if_pos (beq_iff_eq.2 htype)] at hdec
  exact ⟨⟨_, hdec⟩, fun _ => by rwa [beatData_beatWord]⟩

theorem beatOk_vad (voice : Bool) : BeatOk (beatWord 1#1 1#1 (vadData voice)) := by
  refine ⟨?_, fun h => absurd ((beatType_beatWord _ _ _).symm.trans h) (by decide)⟩
  cases voice
  · exact ⟨.vadSilence, rfl⟩
  · exact ⟨.vadVoice, rfl⟩

/-- Every beat of a PCM message carries a sample of it. -/
theorem mem_pcmBeats {l : List F32} {b : Beat} (h : b ∈ pcmBeats l) : ∃ last, ∃ w ∈ l, b = beatWord last 0#1 w := by
  induction l using pcmBeats.induct with
  | case1 => exact absurd h List.not_mem_nil
  | case2 w => exact ⟨1#1, w, List.mem_singleton_self w, List.mem_singleton.1 h⟩
  | case3 w x rest ih =>
    rcases List.mem_cons.1 h with rfl | h
    · exact ⟨0#1, w, List.mem_cons_self, rfl⟩
    · obtain ⟨last, v, hv, rfl⟩ := ih h
      exact ⟨last, v, List.mem_cons_of_mem _ hv, rfl⟩

/-- The beats of a frame of bounded samples, and of its VAD message, are legal and bounded. -/
theorem beatOk_of_mem_frameMessages {frm : Buf F32 160} {trans voice : Bool} (h : ∀ w ∈ frm.val, ClipBounded w)
    {b : Beat} (hb : b ∈ messagesBeats (frameMessages frm trans voice)) : BeatOk b := by
  rcases List.mem_append.1 hb with hb | hb
  · obtain ⟨last, w, hw, rfl⟩ := mem_pcmBeats hb
    exact beatOk_pcm last (h w hw)
  · cases trans
    · exact absurd hb List.not_mem_nil
    · obtain rfl := List.mem_singleton.1 hb
      exact beatOk_vad voice

theorem clipBounded_doApply {s : State} {w : F32} (h : w ∈ (doApply s).frm.val) : ClipBounded w := by
  rw [doApply_frm] at h
  obtain ⟨x, -, rfl⟩ := List.mem_map.1 h
  exact clipBounded_applySample s.gain x

/-- Where SEQ is outside CAL to EMIT only the beats matter. -/
theorem outputOk_of_seq {s : State} (hs : ¬ (seqCal ≤ s.seq ∧ s.seq ≤ seqEmit)) (hp : ∀ b ∈ s.port, BeatOk b)
    (hd : ∀ b ∈ s.sent, BeatOk b) : OutputOk s :=
  ⟨fun hlo hhi => absurd ⟨hlo, hhi⟩ hs, hp, hd⟩

/-- From APPLY on the frame is bounded: APPLY bounds it and no later stage before EMIT writes it. -/
theorem clipBounded_before_check {s : State} (h : OutputOk s) (hlo : seqApply ≤ s.seq) (hhi : s.seq ≤ seqHyst) :
    ∀ w ∈ (effect (decodeSeq s.seq) s).frm.val, ClipBounded w := by
  obtain ⟨hfrm, -, -⟩ := h
  by_cases hs : s.seq = seqApply
  · rw [hs]
    exact fun w => clipBounded_doApply
  · have hdec : decodeSeq s.seq ≠ .handoff ∧ decodeSeq s.seq ≠ .filt ∧ decodeSeq s.seq ≠ .apply ∧ seqCal ≤ s.seq ∧
        s.seq ≤ seqEmit := by
      generalize s.seq = c at hs hlo hhi
      revert c
      decide
    obtain ⟨h1, h2, h3, hcal, hemit⟩ := hdec
    rw [effect_frm s (decodeSeq_ne_reset _) h1 h2 h3]
    exact hfrm hcal hemit

theorem effect_sent_of_stage (c : BitVec 4) (s : State) : (effect (decodeSeq c) s).sent = s.sent := by
  obtain ⟨hvoice, hsilence⟩ : decodeSeq c ≠ .vadVoice ∧ decodeSeq c ≠ .vadSilence := by
    revert c
    decide
  exact effect_sent s (decodeSeq_ne_reset c) (decodeSeq_ne_pcmBeat c) hvoice hsilence

theorem outputOk_before_check {s : State} (h : OutputOk s) (hlo : seqHandoff ≤ s.seq) (hhi : s.seq ≤ seqHyst) :
    OutputOk (effect (decodeSeq s.seq) s) := by
  have ⟨_, hport, hsent⟩ := h
  obtain ⟨-, -, hp⟩ := effect_before_check s hhi
  refine ⟨fun hcal _ => clipBounded_before_check h ?_ hhi, hp ▸ hport, effect_sent_of_stage s.seq s ▸ hsent⟩
  rw [effect_decodeSeq_seq s hlo hhi] at hcal
  generalize s.seq = c at hcal hhi
  revert c
  decide

theorem outputOk_doCheck {s : State} (h : OutputOk s) (hs : s.seq = seqCheck) : OutputOk (doCheck s) := by
  obtain ⟨hfrm, hport, hsent⟩ := h
  have hfrm := hfrm (by rw [hs]; decide) (by rw [hs]; decide)
  rw [OutputOk, doCheck_frm, doCheck_port, doCheck_sent]
  exact ⟨fun _ _ => hfrm, hport, hsent⟩

/-- EMIT queues the bounded frame and leaves the stages that hold it. -/
theorem outputOk_doEmit {s : State} (h : OutputOk s) (hs : s.seq = seqEmit) : OutputOk (doEmit s) := by
  obtain ⟨hfrm, hport, hsent⟩ := h
  have hfrm := hfrm (by rw [hs]; decide) (by rw [hs]; decide)
  refine outputOk_of_seq (by rw [doEmit_seq]; decide) (fun b hb => ?_) hsent
  rw [doEmit_port] at hb
  rcases List.mem_append.1 hb with hb | hb
  · exact hport b hb
  · exact beatOk_of_mem_frameMessages hfrm hb

/-- Settles O41: APPLY bounds the frame, EMIT queues it, and a driven beat comes from the queue. -/
theorem stepKeepsOutputBounds : Obligations.StepKeepsOutputBounds := by
  intro s t hs h
  have ⟨hfrm, hport, hsent⟩ := hs
  refine step_keeps h hs ?reset (fun ws hq => ?fatal) (fun w ws hq => ?store) (fun b bs hp => ?beat)
    fun hh hp hne => ?stage
  case reset => exact outputOk_of_seq (by rw [doReset_seq]; decide) (fun b hb => absurd hb List.not_mem_nil) hsent
  case fatal => exact outputOk_of_seq (by rw [raiseFatal_seq]; decide) hport hsent
  case store =>
    obtain ⟨-, -, hacc, -⟩ := hq
    refine outputOk_of_seq ?_ hport hsent
    rw [storeSample_seq, hacc]
    split <;> decide
  case beat =>
    rw [hp] at hport
    obtain ⟨hb, hbs⟩ := List.forall_mem_cons.1 hport
    refine ⟨hfrm, hbs, fun d hd => ?_⟩
    rcases List.mem_append.1 hd with hd | hd
    · exact hsent d hd
    · exact List.mem_singleton.1 hd ▸ hb
  case stage =>
    by_cases hidle : s.seq = seqReservedCode ∨ s.seq = seqHalt
    · rcases hidle with hc | hc <;>
        · rw [hc]
          exact hs
    · obtain ⟨hres, hhalt⟩ := not_or.1 hidle
      rcases stage_code_cases hne hres hhalt with ⟨hlo, hhi⟩ | hc | hc
      · exact outputOk_before_check hs hlo hhi
      · rw [hc]
        exact outputOk_doCheck hs hc
      · rw [hc]
        exact outputOk_doEmit hs hc

end Sys2Proof.Machine
end

section
/-! GAIN stays between GAIN_MIN and GAIN_MAX without a clamp (10_state.md R49 (b); 42_agc.md R122): each step of GAINUPD
ends between the gain and the gain asked for. -/

namespace Sys2Proof.Machine

/-! ## Rounding far below overflow -/

theorem thousand_lt_overflow : (1000 : ℝ) < 2 ^ 1024 - 2 ^ 970 := by
  have hpow : (1 : ℝ) ≤ 2 ^ 970 := one_le_pow₀ one_le_two
  calc (1000 : ℝ) < 2 ^ 54 - 1 := by norm_num
    _ ≤ 2 ^ 970 * (2 ^ 54 - 1) := le_mul_of_one_le_left (by norm_num) hpow
    _ = 2 ^ 1024 - 2 ^ 970 := by rw [mul_sub_one, ← pow_add]

section
variable {x : ℝ} {r : F64} (h : RoundedTo64 x r) (hx : |x| ≤ 1000)
include h hx

/-- Far below overflow a rounded value is finite and no finite word is nearer. -/
theorem RoundedTo64.finite_nearest :
    finite64 r = true ∧ ∀ c, finite64 c = true → |real64 r - x| ≤ |real64 c - x| := by
  obtain ⟨-, -, -, hfin⟩ := h
  obtain ⟨hr, hnear⟩ := hfin (hx.trans_lt thousand_lt_overflow)
  exact ⟨hr, fun c hc => (hnear c hc).1⟩

/-- Rounding does not pass a finite word above. -/
theorem RoundedTo64.le_of_le {b : F64} (hb : finite64 b = true) (hxb : x ≤ real64 b) : real64 r ≤ real64 b := by
  have hnear := (h.finite_nearest hx).2 b hb
  rw [abs_of_nonneg (sub_nonneg.2 hxb)] at hnear
  linarith [le_abs_self (real64 r - x)]

/-- Rounding does not pass a finite word below. -/
theorem RoundedTo64.ge_of_ge {b : F64} (hb : finite64 b = true) (hxb : real64 b ≤ x) : real64 b ≤ real64 r := by
  have hnear := (h.finite_nearest hx).2 b hb
  rw [abs_of_nonpos (sub_nonpos.2 hxb)] at hnear
  linarith [neg_abs_le (real64 r - x)]

/-- Rounding moves a value by no more than its distance from zero. -/
theorem RoundedTo64.abs_sub_le : |real64 r - x| ≤ |x| := by
  have hzero : real64 0#64 = 0 := real64_eq_zero.2 (by decide)
  simpa [hzero] using (h.finite_nearest hx).2 0#64 (by decide)

end

/-! ## Differences -/

/-- Every number of units has a code below it that is off by less than a ninth of it: where the codes lie further apart
than one unit, they have 53 significant bits. -/
theorem exists_code_near (n : Nat) : ∃ c, unitsOfCode 52 c ≤ n ∧ 9 * (n - unitsOfCode 52 c) ≤ n := by
  obtain ⟨hlo, hhi⟩ := floorCode_bounds n 1
  rw [Nat.div_one] at hlo hhi
  refine ⟨floorCode n 1, hlo, ?_⟩
  generalize floorCode n 1 = c at *
  obtain ⟨k, hc, hk, he⟩ := exists_mantissa 52 c
  rw [unitsOfCode_succ] at hhi
  generalize c / 2 ^ 52 - 1 = e at *
  have hu : unitsOfCode 52 c = k * 2 ^ e := hc ▸ unitsOfCode_of_mantissa (by omega) he
  rcases he with rfl | he
  · omega
  · have hulp : 2 ^ 52 * 2 ^ e ≤ unitsOfCode 52 c := hu ▸ Nat.mul_le_mul_right _ he
    omega

/-- The words are this dense around every whole number of units. -/
theorem exists_word_near {v : ℤ} (h : |(v : ℝ) / 2 ^ 1074| ≤ 1000) :
    ∃ w, finite64 w = true ∧ |real64 w - v / 2 ^ 1074| ≤ |(v : ℝ) / 2 ^ 1074| / 9 := by
  have hpow : (0 : ℝ) < 2 ^ 1074 := by positivity
  obtain ⟨c, hle, hnear⟩ := exists_code_near v.natAbs
  have habs : |(v : ℝ)| = v.natAbs := by rw [Nat.cast_natAbs, Int.cast_abs]
  have hsign : SignAgrees (decide (v < 0)) (v : ℝ) := signAgrees_decide v Int.cast_lt_zero.symm
  have hfin : c < infCode64 := by
    have hover : (1000 : ℝ) < 2 ^ 1024 := thousand_lt_overflow.trans (sub_lt_self _ (by positivity))
    rw [abs_div, abs_of_pos hpow, div_le_iff₀ hpow, habs] at h
    rw [lt_infCode64_iff, ← Nat.cast_lt (α := ℝ), Nat.cast_pow, Nat.cast_ofNat]
    calc (unitsOfCode 52 c : ℝ) ≤ v.natAbs := Nat.cast_le.2 hle
      _ ≤ 1000 * 2 ^ 1074 := h
      _ < 2 ^ 1024 * 2 ^ 1074 := mul_lt_mul_of_pos_right hover hpow
      _ = 2 ^ 2098 := (pow_add 2 1024 1074).symm
  have hcode : code64 (pack64 (decide (v < 0)) c) = c := by simpa using hfin.le
  refine ⟨pack64 (decide (v < 0)) c, (finite64_iff _).2 (hcode.trans_lt hfin), ?_⟩
  rw [real64_eq_signed, neg64_pack64, units64, hcode, ← sub_div, abs_div, abs_div, abs_of_pos hpow, div_right_comm,
    div_le_div_iff_of_pos_right hpow, abs_signed_sub hsign, habs, abs_sub_comm, ← Nat.cast_sub hle, Nat.abs_cast,
    le_div_iff₀ (by norm_num)]
  exact_mod_cast (mul_comm _ _).trans_le hnear

theorem real64_sub (a b : F64) : ∃ v : ℤ, real64 a - real64 b = v / 2 ^ 1074 :=
  ⟨value64 a - value64 b, by rw [real64, real64, ← sub_div, Int.cast_sub]⟩

/-- A difference is rounded by at most a ninth of it: it is a whole number of units. -/
theorem sub64_near {a b : F64} (ha : finite64 a = true) (hb : finite64 b = true) (h : |real64 a - real64 b| ≤ 1000) :
    finite64 (sub64 a b) = true ∧
      |real64 (sub64 a b) - (real64 a - real64 b)| ≤ |real64 a - real64 b| / 9 := by
  obtain ⟨hfin, hnear⟩ := (sub64_rounds ha hb).1.finite_nearest h
  obtain ⟨v, hv⟩ := real64_sub a b
  rw [hv] at h hnear ⊢
  obtain ⟨w, hw, hwv⟩ := exists_word_near h
  exact ⟨hfin, (hnear w hw).trans hwv⟩

/-! ## One step of the gain -/

/-- A small part of a difference, each rounded with the errors above, does not overshoot it. -/
theorem mem_uIcc_of_errors {x d k m : ℝ} (hd : |d - x| ≤ |x| / 9) (hk : 0 ≤ k) (hk' : k ≤ 9 / 20)
    (hm : |m - k * d| ≤ |k * d|) : m ∈ Set.uIcc 0 x := by
  obtain ⟨hd1, hd2⟩ := abs_le.1 hd
  obtain ⟨hm1, hm2⟩ := abs_le.1 hm
  rcases le_total 0 x with hx | hx
  · rw [abs_of_nonneg hx] at hd1 hd2
    have hkd : 0 ≤ k * d := mul_nonneg hk (by linarith)
    have hkd' : k * d ≤ 9 / 20 * (10 / 9 * x) := mul_le_mul hk' (by linarith) (by linarith) (by norm_num)
    rw [abs_of_nonneg hkd] at hm1 hm2
    exact Set.mem_uIcc.2 (.inl ⟨by linarith, by linarith⟩)
  · rw [abs_of_nonpos hx] at hd1 hd2
    have hkd : 0 ≤ k * -d := mul_nonneg hk (by linarith)
    have hkd' : k * -d ≤ 9 / 20 * (10 / 9 * -x) := mul_le_mul hk' (by linarith) (by linarith) (by norm_num)
    rw [abs_of_nonpos (by linarith)] at hm1 hm2
    exact Set.mem_uIcc.2 (.inr ⟨by linarith, by linarith⟩)

/-- The gain moves towards the gain asked for and not beyond it. -/
theorem real64_step_mem_uIcc {need gain k : F64} (hneed : finite64 need = true) (hgain : finite64 gain = true)
    (hk : finite64 k = true) (hneed' : |real64 need| ≤ 24) (hgain' : |real64 gain| ≤ 24) (hk0 : 0 ≤ real64 k)
    (hk1 : real64 k ≤ 9 / 20) :
    finite64 (add64 gain (mul64 k (sub64 need gain))) = true ∧
      real64 (add64 gain (mul64 k (sub64 need gain))) ∈ Set.uIcc (real64 gain) (real64 need) := by
  have hx : |real64 need - real64 gain| ≤ 48 := (abs_sub _ _).trans (by linarith)
  obtain ⟨hfd, hd⟩ := sub64_near hneed hgain (hx.trans (by norm_num))
  have hd' : |real64 (sub64 need gain)| ≤ 60 := by
    linarith [abs_sub_abs_le_abs_sub (real64 (sub64 need gain)) (real64 need - real64 gain)]
  have hkd : |real64 k * real64 (sub64 need gain)| ≤ 1000 := by
    rw [abs_mul, abs_of_nonneg hk0]
    nlinarith [abs_nonneg (real64 (sub64 need gain))]
  have hround := (mul64_rounds hk hfd).1
  have hfm := (hround.finite_nearest hkd).1
  have hm := mem_uIcc_of_errors hd hk0 hk1 (hround.abs_sub_le hkd)
  generalize mul64 k (sub64 need gain) = m at *
  have hsum := (add64_rounds hgain hfm).1
  have hm' : |real64 m| ≤ |real64 need - real64 gain| := by simpa using Set.abs_sub_left_of_mem_uIcc hm
  have hsum' : |real64 gain + real64 m| ≤ 1000 := (abs_add_le _ _).trans (by linarith)
  refine ⟨(hsum.finite_nearest hsum').1, ?_⟩
  rcases Set.mem_uIcc.1 hm with ⟨hlo, hhi⟩ | ⟨hlo, hhi⟩
  · exact Set.mem_uIcc.2 (.inl ⟨hsum.ge_of_ge hsum' hgain (by linarith), hsum.le_of_le hsum' hneed (by linarith)⟩)
  · exact Set.mem_uIcc.2 (.inr ⟨hsum.ge_of_ge hsum' hneed (by linarith), hsum.le_of_le hsum' hgain (by linarith)⟩)

theorem real64_nonneg {w : F64} (h : neg64 w = false) : 0 ≤ real64 w := signAgrees_false.1 (h ▸ signAgrees_real64 w)

/-- Both step coefficients are at most 0.45. -/
theorem gainCoeff_bounds (need gain : F64) :
    finite64 (gainCoeff numDefault need gain) = true ∧ 0 ≤ real64 (gainCoeff numDefault need gain) ∧
      real64 (gainCoeff numDefault need gain) ≤ 9 / 20 := by
  have hquarter : real64 Literal.zcrHi.word = 1 / 4 := by
    have hunits : units64 Literal.zcrHi.word = 2 ^ 1072 := by
      rw [units64, show code64 Literal.zcrHi.word = (1020 + 1) * 2 ^ 52 by decide, unitsOfCode_binade]
    have hvalue := abs_real64 Literal.zcrHi.word
    rw [abs_of_nonneg (real64_nonneg (by decide)), hunits, Nat.cast_pow, Nat.cast_ofNat,
      show (1074 : ℕ) = 2 + 1072 from rfl, pow_add, ← mul_assoc, mul_eq_right₀ (by positivity)] at hvalue
    linarith
  have hattack : real64 Literal.attack.word ≤ 9 / 20 := by
    obtain ⟨-, hnear⟩ := (literal_rounds .attack).finite_nearest (by norm_num [Literal.value])
    have hnear := hnear Literal.zcrHi.word (by decide)
    rw [hquarter] at hnear
    norm_num [Literal.value] at hnear
    linarith [(abs_le.1 hnear).2]
  have hrelease : real64 Literal.release.word ≤ real64 Literal.attack.word := (real64_le_iff _ _).2 (by decide)
  rw [gainCoeff, numDefault_lt, numDefault_const]
  split
  · exact ⟨by decide, real64_nonneg (by decide), hattack⟩
  · exact ⟨by decide, real64_nonneg (by decide), hrelease.trans hattack⟩

/-! ## The bounds -/

/-- A word between GAIN_MIN and GAIN_MAX. -/
def GainBounded (w : F64) : Prop :=
  le64 Literal.gainMin.word w = true ∧ le64 w Literal.gainMax.word = true

theorem gainOk_iff (s : State) : GainOk s ↔ GainBounded s.gain := Iff.rfl

theorem gainBounded_of_key {w : F64} (hn : isNan64 w = false) (hlo : key64 Literal.gainMin.word ≤ key64 w)
    (hhi : key64 w ≤ key64 Literal.gainMax.word) : GainBounded w :=
  ⟨(le64_iff (by decide) hn).2 hlo, (le64_iff hn (by decide)).2 hhi⟩

/-- A bounded gain is a finite word of a value between the two bounds. -/
theorem gainBounded_iff {w : F64} :
    GainBounded w ↔
      finite64 w = true ∧ real64 w ∈ Set.Icc (real64 Literal.gainMin.word) (real64 Literal.gainMax.word) := by
  rw [Set.mem_Icc, real64_le_iff, real64_le_iff]
  constructor
  · rintro ⟨hlo, hhi⟩
    have hn : isNan64 w = false := by
      obtain ⟨⟨-, hn⟩, -⟩ : (_ ∧ isNan64 w = false) ∧ _ := by
        simpa only [le64, Bool.and_eq_true, Bool.not_eq_true'] using hlo
      exact hn
    rw [le64_iff (by decide) hn] at hlo
    rw [le64_iff hn (by decide)] at hhi
    refine ⟨(finite64_iff w).2 ?_, hlo, hhi⟩
    have hmin : 0 ≤ key64 Literal.gainMin.word := by decide
    have hmax : key64 Literal.gainMax.word < infCode64 := by decide
    have := natAbs_key64 w
    omega
  · rintro ⟨hfin, hlo, hhi⟩
    exact gainBounded_of_key (isNan64_of_finite hfin) hlo hhi

theorem gainBounded_needOf (rms : F64) : GainBounded (needOf numDefault rms) := by
  obtain ⟨hn, hlo, hhi⟩ := key64_clamp (lo := Literal.gainMin.word) (hi := Literal.gainMax.word)
    (numDefault.div (numDefault.const .targetRms) rms) (by decide) (by decide) (by decide)
  exact gainBounded_of_key hn hlo hhi

theorem abs_real64_of_gainBounded {w : F64} (h : GainBounded w) : |real64 w| ≤ 24 := by
  obtain ⟨-, hlo, hhi⟩ := gainBounded_iff.1 h
  have hmin : 0 ≤ real64 Literal.gainMin.word := real64_nonneg (by decide)
  have hmax := (literal_rounds .gainMax).abs_sub_le (by norm_num [Literal.value])
  norm_num [Literal.value] at hmax
  rw [abs_of_nonneg (hmin.trans hlo)]
  linarith [(abs_le.1 hmax).2]

/-- A step from a bounded gain towards a bounded gain ends at a bounded one. -/
theorem gainBounded_gainOf {need gain : F64} (hneed : GainBounded need) (hgain : GainBounded gain) :
    GainBounded (gainOf numDefault need gain) := by
  obtain ⟨hfn, hn⟩ := gainBounded_iff.1 hneed
  obtain ⟨hfg, hg⟩ := gainBounded_iff.1 hgain
  obtain ⟨hfk, hk0, hk1⟩ := gainCoeff_bounds need gain
  obtain ⟨hfin, hmem⟩ := real64_step_mem_uIcc hfn hfg hfk (abs_real64_of_gainBounded hneed)
    (abs_real64_of_gainBounded hgain) hk0 hk1
  exact gainBounded_iff.2 ⟨hfin, Set.uIcc_subset_Icc hg hn hmem⟩

/-- Settles O24: GAINUPD is the only stage that writes GAIN. -/
theorem stepKeepsGainBounds : Obligations.StepKeepsGainBounds := by
  intro s t hs h
  obtain ⟨-, -, -, -, -, hreset, -⟩ := resetMeetsInvariants
  refine step_keeps h hs hreset (fun _ _ => hs) (fun _ _ _ => hs) (fun _ _ _ => hs) fun _ _ _ => ?_
  by_cases hi : decodeSeq s.seq = .gainupd
  · rw [hi, gainOk_iff]
    exact gainBounded_gainOf (gainBounded_needOf s.rms) hs
  · obtain ⟨-, hgain⟩ := effect_gain s (decodeSeq_ne_reset _) hi
    rwa [gainOk_iff, hgain]

end Sys2Proof.Machine
end

section
/-! The messages of one transaction alternate (45_vad.md R157, 46_emitter.md R162, 47_frame_sequencer.md R173), and a
word offered to a core that is not ready has no effect (20_memory.md R71, 40_frame_accumulator.md R107). -/

namespace Sys2Proof.Machine

/-! ## The transition bit -/

theorem transition_eq_true_iff {new old : Bool} : transition new old = true ↔ new = !old := by
  rw [transition, bne_iff_ne]
  exact Bool.eq_not.symm

theorem transition_eq_false_iff {new old : Bool} : transition new old = false ↔ new = old := by
  rw [transition, bne_eq_false_iff_eq]

/-- A frame emits its PCM message, and a VAD message after it exactly when the debounced state flips. -/
theorem frameMessages_transition {S : Type} (pcm : Buf S 160) (new old : Bool) :
    (frameMessages pcm (transition new old) new = [.pcm pcm] ∧ new = old) ∨
    (frameMessages pcm (transition new old) new = [.pcm pcm, .vad new] ∧ new = !old) := by
  cases ht : transition new old with
  | false => exact .inl ⟨rfl, transition_eq_false_iff.1 ht⟩
  | true => exact .inr ⟨rfl, transition_eq_true_iff.1 ht⟩

/-! ## The messages of a transaction -/

/-- A transaction that answers a next state stored a word short of a full frame and emitted nothing, or completed a frame
and emitted that frame's messages. -/
theorem transact_next {S C : Type} {N : Num S C} {h h' : Held S C} {w : S} {out : List (Message S)}
    (ht : transact N h w = .next h' out) :
    (out = [] ∧ h'.ctx = h.ctx) ∨
    ∃ pcm, out = frameMessages pcm (transition h'.ctx.voice h.ctx.voice) h'.ctx.voice := by
  rcases transact_cases N h w with ⟨-, e⟩ | ⟨-, -, e⟩ | ⟨-, -, -, e⟩ | ⟨-, -, -, e⟩ <;> rw [e] at ht
  · cases ht
  · cases ht
  · cases ht
    exact .inl ⟨rfl, rfl⟩
  · rcases transactFrame_cases N { h with acc := bufSet h.acc h.wr w } with ⟨-, ef⟩ | ⟨-, ef⟩ <;> rw [ef] at ht
    · cases ht
      exact .inr ⟨_, rfl⟩
    · cases ht

/-- Settles O10: the messages of a completed frame turn on whether VOICE changed, and a word short of a frame leaves the
context alone. -/
theorem transactionMessagesAlternate : Obligations.TransactionMessagesAlternate := by
  intro S C N h h' w out ht
  rcases transact_next ht with ⟨hout, hctx⟩ | ⟨pcm, hout⟩
  · exact .inl ⟨hout, congrArg Ctx.voice hctx⟩
  · rcases frameMessages_transition pcm h'.ctx.voice h.ctx.voice with ⟨hm, hv⟩ | ⟨hm, hv⟩
    · exact .inr (.inl ⟨pcm, hout.trans hm, hv⟩)
    · exact .inr (.inr ⟨pcm, hout.trans hm, hv⟩)

/-! ## A word that is not accepted -/

/-- Settles O13: both PUSH rows act only on an accepted word. -/
theorem unreadyWordHasNoEffect : Obligations.UnreadyWordHasNoEffect := fun _ _ _ _ h =>
  ⟨whenAccepted_of_not_ready h, whenAccepted_of_not_ready h⟩

end Sys2Proof.Machine
end

section
/-! Words and instructions: decoding and encoding are inverse on the well-formed instructions (30_encoding.md R83 to
R88, 60_exceptions.md R183). -/

namespace Sys2Proof.Machine

/-! ## The fields of words -/

theorem sign_nonfiniteWord (sign : BitVec 1) (fraction : BitVec 23) :
    (nonfiniteWord sign fraction).extractLsb' 31 1 = sign := by
  rw [nonfiniteWord, BitVec.extractLsb'_append_eq_of_le (by decide), BitVec.extractLsb'_append_eq_left]

theorem fraction_nonfiniteWord (sign : BitVec 1) (fraction : BitVec 23) :
    (nonfiniteWord sign fraction).extractLsb' 0 23 = fraction :=
  BitVec.extractLsb'_append_eq_right

theorem last_beatWord (last type : BitVec 1) (data : F32) : (beatWord last type data).extractLsb' 33 1 = last := by
  rw [beatWord, BitVec.extractLsb'_append_eq_of_le (by decide), BitVec.extractLsb'_append_eq_left]

/-- The three fields of a beat make the beat again (R83). -/
theorem beatWord_of_fields (b : Beat) : beatWord (b.extractLsb' 33 1) (beatType b) (beatData b) = b := by
  rw [beatWord, beatType, beatData,
    BitVec.extractLsb'_append_extractLsb'_eq_extractLsb' (show 33 = 32 + 1 by decide),
    BitVec.extractLsb'_append_extractLsb'_eq_extractLsb' (show 32 = 0 + 32 by decide)]
  exact BitVec.extractLsb'_eq_self

/-! ## From an instruction to its word and back -/

theorem decodeIn_of_wf {w : F32} (h : (Instr.push w).wf = true) : decodeIn w = .push w := by
  have hw : exponentAllOnes w = false := by simpa [Instr.wf, exponentAllOnes] using h
  simp [decodeIn, hw]

theorem decodeIn_nonfiniteWord (sign : BitVec 1) (fraction : BitVec 23) :
    decodeIn (nonfiniteWord sign fraction) = .pushNonfinite sign fraction := by
  rw [decodeIn, if_pos (exponentAllOnes_nonfiniteWord sign fraction), sign_nonfiniteWord, fraction_nonfiniteWord]

theorem decodeOut_pcm (last : BitVec 1) (data : F32) :
    decodeOut (beatWord last 0#1 data) = .ok (.pcmBeat last data) := by
  have htype : (beatWord last 0#1 data).extractLsb' 32 1 = 0#1 := beatType_beatWord last 0#1 data
  have hdata : (beatWord last 0#1 data).extractLsb' 0 32 = data := beatData_beatWord last 0#1 data
  rw [decodeOut, if_pos (beq_iff_eq.2 htype), last_beatWord, hdata]

theorem decode_encode {i : Instr} (h : i.wf = true) : decode (encode i).1 (encode i).2 = .ok i := by
  cases i with
  | push w => exact (decode_inp w).trans (congrArg _ (decodeIn_of_wf h))
  | pushNonfinite sign fraction => exact (decode_inp _).trans (congrArg _ (decodeIn_nonfiniteWord sign fraction))
  | pcmBeat last data => exact (decode_out _).trans (decodeOut_pcm last data)
  | _ => rfl

/-! ## From a word to its instruction and back -/

/-- The relation of a word to the instruction it stands for: what each format's decoder has to answer. -/
def StandsFor (i : Instr) (fmt : Format) (w : Nat) : Prop := i.wf = true ∧ encode i = (fmt, w)

theorem standsFor_decodeIn (w : F32) : StandsFor (decodeIn w) .inp w.toNat := by
  unfold decodeIn
  split
  · rename_i hw
    exact ⟨rfl, by rw [encode, nonfiniteWord_of_fields w hw]⟩
  · rename_i hw
    exact ⟨bne_iff_ne.2 fun h => hw (beq_iff_eq.2 h), rfl⟩

theorem standsFor_decodeSeq (c : BitVec 4) : StandsFor (decodeSeq c) .seq c.toNat := by
  unfold StandsFor
  revert c
  decide

theorem standsFor_decodeCause (c : BitVec 2) : StandsFor (decodeCause c) .cause c.toNat := by
  unfold StandsFor
  revert c
  decide

theorem standsFor_decodePin {p : BitVec 1} {i : Instr} (h : decodePin p = .ok i) : StandsFor i .pin p.toNat := by
  unfold decodePin at h
  split at h
  · rename_i hp
    cases h
    exact ⟨rfl, by rw [beq_iff_eq.1 hp]; rfl⟩
  · cases h

theorem standsFor_decodeOut {b : Beat} {i : Instr} (h : decodeOut b = .ok i) : StandsFor i .out b.toNat := by
  have hb := beatWord_of_fields b
  unfold beatType beatData at hb
  unfold decodeOut at h
  split at h
  · rename_i htype
    cases h
    rw [beq_iff_eq.1 htype] at hb
    exact ⟨rfl, by rw [encode, hb]⟩
  rename_i htype
  split at h
  · cases h
  rename_i hlast
  have htype : b.extractLsb' 32 1 = 1#1 := (BitVec.eq_zero_or_eq_one _).resolve_left fun e => htype (beq_iff_eq.2 e)
  have hlast : b.extractLsb' 33 1 = 1#1 := (BitVec.eq_zero_or_eq_one _).resolve_left fun e => hlast (beq_iff_eq.2 e)
  rw [htype, hlast] at hb
  split at h
  · rename_i hdata
    cases h
    rw [beq_iff_eq.1 hdata] at hb
    exact ⟨rfl, by rw [encode, hb]⟩
  split at h
  · rename_i hdata
    cases h
    rw [beq_iff_eq.1 hdata] at hb
    exact ⟨rfl, by rw [encode, hb]⟩
  · cases h

theorem lt_of_decode_ok {fmt : Format} {w : Nat} {i : Instr} (h : decode fmt w = .ok i) : w < 2 ^ fmt.width := by
  by_contra hw
  unfold decode at h
  rw [if_pos (Nat.not_lt.1 hw)] at h
  cases h

/-- A word that decodes fits its format, and the format's decoder answers what stands for it. -/
theorem standsFor_of_decode {fmt : Format} {w : Nat} {i : Instr} (h : decode fmt w = .ok i) : StandsFor i fmt w := by
  have hw := lt_of_decode_ok h
  unfold decode at h
  rw [if_neg (Nat.not_le.2 hw)] at h
  have hbits : (BitVec.ofNat fmt.width w).toNat = w := by
    rw [BitVec.toNat_ofNat, Nat.mod_eq_of_lt hw]
  rw [← hbits]
  cases fmt with
  | inp => exact Except.ok.inj h ▸ standsFor_decodeIn _
  | seq => exact Except.ok.inj h ▸ standsFor_decodeSeq _
  | out => exact standsFor_decodeOut h
  | cause => exact Except.ok.inj h ▸ standsFor_decodeCause _
  | pin => exact standsFor_decodePin h

/-- Settles O1: each format's decoder answers an instruction that stands for the word, and a well-formed instruction is
decoded from its own word. -/
theorem decodeEncodeAgree : Obligations.DecodeEncodeAgree := by
  intro fmt w i
  refine ⟨standsFor_of_decode, fun ⟨hwf, henc⟩ => ?_⟩
  have hdec := decode_encode hwf
  rwa [henc] at hdec

/-- Settles O2: the ten words are the ones their instructions encode to. -/
theorem sampleWordsDecode : Obligations.SampleWordsDecode := by
  refine ⟨?_, ?_, ?_, ?_, ?_, ?_, ?_, ?_, ?_, ?_⟩ <;>
    exact (decodeEncodeAgree _ _ _).2 (by decide)

end Sys2Proof.Machine
end

section
/-! The beats of a list of messages read back as the list (30_encoding.md R90), a step runs the instruction that its
fetched word decodes to (30_encoding.md R81 to R83, 47_frame_sequencer.md R171), and a beat is driven as it is. -/

namespace Sys2Proof.Machine

/-! ## Reading the beats of messages -/

theorem map_beatData_pcmBeats (l : List F32) : (pcmBeats l).map beatData = l := by
  induction l using pcmBeats.induct with
  | case1 => rfl
  | case2 w => exact congrArg (· :: []) (beatData_beatWord _ _ w)
  | case3 w x rest ih => rw [pcmBeats, List.map_cons, ih, beatData_beatWord]

theorem length_pcmBeats (l : List F32) : (pcmBeats l).length = l.length := by
  rw [← List.length_map beatData, map_beatData_pcmBeats]

theorem beatType_of_mem_pcmBeats {l : List F32} {b : Beat} (h : b ∈ pcmBeats l) : beatType b = 0#1 := by
  obtain ⟨last, w, -, rfl⟩ := mem_pcmBeats h
  exact beatType_beatWord last 0#1 w

theorem readMessages_vad (n : Nat) (last : BitVec 1) (data : F32) (bs : List Beat) :
    readMessages (n + 1) (beatWord last 1#1 data :: bs) = .vad (data == 1#32) :: readMessages n bs := by
  rw [readMessages, if_pos (beatType_beatWord last 1#1 data), beatData_beatWord]

/-- The data of 160 beats that begin with one of type 0 are one PCM message. -/
theorem readMessages_pcm (n : Nat) {first : Beat} {others bs : List Beat} {frame : Buf F32 160}
    (htype : beatType first = 0#1) (hdata : (first :: others).map beatData = frame.val) :
    readMessages (n + 1) (first :: (others ++ bs)) = .pcm frame :: readMessages n bs := by
  have hlen : others.length = 159 := by
    have := congrArg List.length hdata
    rw [List.length_map, List.length_cons, frame.property] at this
    omega
  have htake : (others ++ bs).take 159 = others := List.take_left' hlen
  have hdrop : (others ++ bs).drop 159 = bs := List.drop_left' hlen
  have hne : beatType first ≠ 1#1 := by rw [htype]; decide
  obtain ⟨l, hl⟩ := frame
  subst hdata
  simp only [readMessages, if_neg hne, htake, hdrop, dif_pos hl]

/-- One message is read from its beats, whatever follows them (R90). -/
theorem readMessages_messageBeats (n : Nat) (m : Message F32) (bs : List Beat) :
    readMessages (n + 1) (messageBeats m ++ bs) = m :: readMessages n bs := by
  cases m with
  | vad voice =>
    refine (readMessages_vad n 1#1 (vadData voice) bs).trans ?_
    cases voice <;> rfl
  | pcm frame =>
    have hne : pcmBeats frame.val ≠ [] := by
      rw [← List.length_pos_iff, length_pcmBeats, frame.property]
      decide
    obtain ⟨first, others, hbeats⟩ := List.exists_cons_of_ne_nil hne
    have hmem : first ∈ pcmBeats frame.val := by rw [hbeats]; exact List.mem_cons_self
    rw [messageBeats, hbeats, List.cons_append]
    exact readMessages_pcm n (beatType_of_mem_pcmBeats hmem) (hbeats ▸ map_beatData_pcmBeats frame.val)

/-- Settles O3, by induction on the messages. -/
theorem messageStreamReadsBack : Obligations.MessageStreamReadsBack := by
  intro ms
  induction ms with
  | nil => intro n _; cases n <;> rfl
  | cons m ms ih =>
    intro n hn
    cases n with
    | zero => exact absurd hn (Nat.not_succ_le_zero _)
    | succ n => rw [messagesBeats, readMessages_messageBeats, ih n (Nat.le_of_succ_le_succ hn)]

/-! ## The step and the output beats -/

theorem step_of_fetch {s rest : State} {fmt : Format} {bits : Nat} {i : Instr}
    (hf : fetch s = { fmt := fmt, bits := bits, rest := rest }) (hd : decode fmt bits = .ok i) :
    step s = exec i rest := by
  simp only [step, hf, hd]

/-- Settles O4: one place of the fetch after the other. -/
theorem stepRunsFetchedInstruction : Obligations.StepRunsFetchedInstruction := by
  intro s i
  refine ⟨fun hr => step_of_fetch (fetch_of_rst hr), fun hr hh => step_of_fetch (fetch_of_halted hr hh),
    fun hr hh => ⟨fun b bs hp => step_of_fetch (fetch_of_port hr hh hp),
      fun hp hs => ⟨fun w ws hq => ?word, fun hq => ?idle⟩,
      fun hp hs => step_of_fetch (fetch_of_stage hr hh hp hs)⟩⟩
  case word => exact step_of_fetch (fetch_of_word ⟨hr, hh, hs, hp⟩ hq)
  case idle =>
    rw [hs]
    exact step_of_fetch (fetch_of_idle ⟨⟨hr, hh, hs, hp⟩, hq⟩)

/-- Settles O40: a running core drives the beat word of the row. -/
theorem beatsAreDriven : Obligations.BeatsAreDriven := fun _ _ _ h =>
  ⟨whenRunning_of_running h, whenRunning_of_running h, whenRunning_of_running h⟩

end Sys2Proof.Machine
end

section
/-! The Frame Accumulator (40_frame_accumulator.md): what an accepted word does to ACC and WR (R100, R101), the copy of
HANDOFF (R102), a run over words short of a frame (R106), and why the grouping of words into blocks does not show
(R104). -/

namespace Sys2Proof.Machine

/-! ## One word, and the copy -/

theorem wf_push_iff {w : F32} : (Instr.push w).wf = true ↔ w.extractLsb' 23 8 ≠ 0xFF#8 := bne_iff_ne

theorem exec_push {w : F32} {s : State} (hwf : (Instr.push w).wf = true) (h : inReady s = true) :
    exec (.push w) s = .next (storeSample w s) :=
  (whenAccepted_of_ready h).trans (congrArg _ (acceptWord_of_wf hwf s))

theorem exec_pushNonfinite (sign : BitVec 1) (fraction : BitVec 23) {s : State} (h : inReady s = true) :
    exec (.pushNonfinite sign fraction) s = .next (raiseFatal causeNonfiniteInputCode s) :=
  (whenAccepted_of_ready h).trans (congrArg _ (acceptWord_nonfiniteWord sign fraction s))

/-- A write inside a buffer replaces the element written and no other. -/
theorem bufGet_bufSet_of_lt {α : Type} {n j : Nat} (d v : α) (b : Buf α n) (i : Nat) (h : j < n) :
    bufGet d (bufSet b j v) i = if i = j then v else bufGet d b i := by
  rw [bufGet_bufSet]
  simp only [h, and_true, eq_comm (a := i)]

/-- Settles O11: SEQ is ACCUM on a ready core, so it is ACCUM again unless the frame is full. -/
theorem pushStoresWord : Obligations.PushStoresWord := by
  intro w s hready hwr hw
  obtain ⟨-, -, hseq, -⟩ := (inReady_iff s).1 hready
  refine ⟨storeSample w s, exec_push (wf_push_iff.2 hw) hready, ?_, fun i _ => bufGet_bufSet_of_lt 0#32 w s.acc i hwr⟩
  rw [← hseq]
  rfl

/-- Settles O12: accepting a non-finite word is raising Fatal(1). -/
theorem nonfiniteWordHalts : Obligations.NonfiniteWordHalts := fun sign fraction _ h =>
  exec_pushNonfinite sign fraction h

/-- Settles O14: this is what HANDOFF does on a running core. -/
theorem handoffCopiesFrame : Obligations.HandoffCopiesFrame := fun _ h => exec_handoff h

/-! ## Words short of a full frame -/

theorem run_succ_of_step {M : Host.Core} {s t : M.State} (n : Nat) (h : M.step s = .next t) :
    M.run (n + 1) s = M.run n t := by
  rw [Host.Core.run, h]

theorem step_of_word {s : State} {w : F32} {ws : List F32} (h : Quiescent s) (hq : s.inq = w :: ws) :
    step s = .next (acceptWord w { s with inq := ws }) :=
  (step_of_fetch (fetch_of_word h hq) (decode_inp w)).trans
    (exec_word w (inReady_of_quiescent (s := { s with inq := ws }) h))

/-- A step on a finite word that does not complete the frame stores it at WR and stays in ACCUM. -/
theorem step_of_partial_word {s : State} {w : F32} {ws : List F32} (h : Quiescent s) (hq : s.inq = w :: ws)
    (hwf : (Instr.push w).wf = true) (hwr : s.wr + 1 < 160) :
    step s = .next { s with acc := bufSet s.acc s.wr w, wr := s.wr + 1, inq := ws } := by
  have hne : s.wr + 1 ≠ Config.frame := Nat.ne_of_lt hwr
  rw [step_of_word h hq, acceptWord_of_wf hwf]
  simp only [storeSample, if_neg hne]

/-- Reading `w :: ws` from `wr` on over `old`: the first word, then the others from the next place on. -/
theorem getD_cons_from (w : F32) (ws : List F32) (wr i : Nat) (old : F32) :
    (if wr + 1 ≤ i ∧ i < wr + 1 + ws.length then ws.getD (i - (wr + 1)) 0#32 else if i = wr then w else old) =
      if wr ≤ i ∧ i < wr + (w :: ws).length then (w :: ws).getD (i - wr) 0#32 else old := by
  rw [List.length_cons]
  rcases Nat.lt_trichotomy i wr with hlt | rfl | hgt
  · rw [if_neg (by omega), if_neg (by omega), if_neg (by omega)]
  · rw [if_neg (by omega), if_pos rfl, if_pos (by omega), Nat.sub_self, List.getD_cons_zero]
  · have hsub : i - wr = i - (wr + 1) + 1 := by omega
    rw [if_neg (show i ≠ wr by omega), hsub, List.getD_cons_succ]
    exact if_congr (by omega) rfl rfl

/-- Settles O8, by induction on the words: the first is stored at WR and leaves a quiescent state with WR one more. -/
theorem partialFrameIsKept : Obligations.PartialFrameIsKept := by
  intro s ws
  induction ws generalizing s with
  | nil =>
    intro rest _ _ _ hq
    have hq : s.inq = rest := hq
    subst hq
    refine ⟨s, rfl, rfl, fun i _ => ?_⟩
    rw [if_neg (by rw [List.length_nil]; omega)]
  | cons w ws ih =>
    intro rest hs hfin hlen hq
    obtain ⟨hw, hws⟩ := List.forall_mem_cons.1 hfin
    rw [List.length_cons] at hlen
    have hstep := step_of_partial_word hs hq (wf_push_iff.2 hw) (by omega)
    obtain ⟨t, hrun, ht, hget⟩ := ih { s with acc := bufSet s.acc s.wr w, wr := s.wr + 1, inq := ws ++ rest } rest hs
      hws (show s.wr + 1 + ws.length < 160 by omega) rfl
    refine ⟨t, (run_succ_of_step ws.length hstep).trans hrun, ht.trans ?_, fun i hi => ?_⟩
    · rw [List.length_cons, Nat.add_comm ws.length 1, ← Nat.add_assoc]
    · refine (hget i hi).trans ?_
      dsimp only
      rw [bufGet_bufSet_of_lt 0#32 w s.acc i (by omega)]
      exact getD_cons_from w ws s.wr i _

/-! ## Words offered later -/

section
variable {block : List F32} {f : State → State} {s t : State}

theorem inReady_offer : inReady (offer block s) = inReady s := rfl

theorem whenRunning_offer (hf : f (offer block s) = offer block (f s)) (h : whenRunning f s = .next t) :
    whenRunning f (offer block s) = .next (offer block t) := by
  rcases whenRunning_next h with ⟨hh, rfl⟩ | ⟨hh, rfl⟩
  · exact whenRunning_of_halted hh
  · rw [whenRunning_of_running (s := offer block s) hh, hf]

theorem whenAccepted_offer (hf : f (offer block s) = offer block (f s)) (h : whenAccepted f s = .next t) :
    whenAccepted f (offer block s) = .next (offer block t) := by
  rcases whenAccepted_next h with ⟨hr, rfl⟩ | ⟨hr, rfl⟩
  · exact whenAccepted_of_not_ready (inReady_offer.trans hr)
  · rw [whenAccepted_of_ready (inReady_offer.trans hr), hf]

theorem acceptWord_offer (w : F32) : acceptWord w (offer block s) = offer block (acceptWord w s) := by
  unfold acceptWord
  split <;> rfl

theorem doCheck_offer : doCheck (offer block s) = offer block (doCheck s) := by
  have hfin : checkedFinite (offer block s) = checkedFinite s := by simp only [checkedFinite, offer]
  simp only [doCheck, hfin]
  split <;> rfl

theorem doZcrcalc_offer : doZcrcalc (offer block s) = offer block (doZcrcalc s) := by
  simp only [doZcrcalc, offer]

/-- No operation reads the queue of offered words, and none writes it. -/
theorem exec_offer (i : Instr) (h : exec i s = .next t) : exec i (offer block s) = .next (offer block t) := by
  cases i with
  | push w => exact whenAccepted_offer (acceptWord_offer w) h
  | pushNonfinite sign fraction => exact whenAccepted_offer (acceptWord_offer _) h
  | check => exact whenRunning_offer doCheck_offer h
  | causeReserved => cases h
  | reset => cases h; rfl
  | zcrcalc => exact whenRunning_offer doZcrcalc_offer h
  | _ =>
    refine whenRunning_offer ?_ h
    rfl

/-- A core that is not idle finds its next word where it found it without the block: at the head of a queue that holds
one, or not in the queue. -/
theorem fetch_offer (h : ¬ Idle s) :
    fetch (offer block s) = { fetch s with rest := offer block (fetch s).rest } := by
  rcases fetch_cases s with ⟨hr, hf⟩ | ⟨hr, hh, hf⟩ | ⟨b, bs, hr, hh, hp, hf⟩ | ⟨w, ws, hs, hq, hf⟩ |
    ⟨hr, hh, hp, hs, hf⟩ <;> rw [hf]
  · exact fetch_of_rst (s := offer block s) hr
  · exact fetch_of_halted (s := offer block s) hr hh
  · exact fetch_of_port (s := offer block s) hr hh hp
  · exact fetch_of_word (s := offer block s) (ws := ws ++ block) hs (by rw [offer_inq, hq, List.cons_append])
  · exact fetch_of_stage (s := offer block s) hr hh hp fun hz => h ⟨⟨hr, hh, hz, hp⟩, hs hz⟩

end

/-- Settles O7: the fetch finds the same word with the block offered, and no operation looks at the queue. -/
theorem offersCommuteWithSteps : Obligations.OffersCommuteWithSteps := by
  intro s t block hidle h
  unfold step at h ⊢
  rw [fetch_offer hidle]
  cases hd : decode (fetch s).fmt (fetch s).bits with
  | ok i =>
    rw [hd] at h
    exact exec_offer i h
  | error e =>
    rw [hd] at h
    cases h

end Sys2Proof.Machine
end

section
/-! The Filter Chain (41_filter_chain.md): one sample as recurrences (R110, R111), a run of samples by index (R112) and
over a split of the stream (R114), silence (R115), and the responses over the reals (R113). -/

namespace Sys2Proof.Machine

/-! ## One sample, and a run of samples -/

section AnyNum

variable {S C : Type} (N : Num S C) (f : FilterState C)

@[simp] theorem filtSample_hpXp (w : S) : (filtSample N f w).hpXp = N.ld w := rfl

theorem filtSample_hpYp (w : S) :
    (filtSample N f w).hpYp = N.mul N.aHp (N.sub (N.add f.hpYp (N.ld w)) f.hpXp) := rfl

theorem filtSample_lpY (w : S) :
    (filtSample N f w).lpY = N.add f.lpY (N.mul N.aLp (N.sub (filtSample N f w).hpYp f.lpY)) := rfl

@[simp] theorem filtState_nil : filtState N f [] = f := rfl

@[simp] theorem filtState_cons (w : S) (ws : List S) :
    filtState N f (w :: ws) = filtState N (filtSample N f w) ws := rfl

@[simp] theorem filtSamples_nil : filtSamples N f [] = [] := rfl

@[simp] theorem filtSamples_cons (w : S) (ws : List S) :
    filtSamples N f (w :: ws) = N.st (filtSample N f w).lpY :: filtSamples N (filtSample N f w) ws := rfl

theorem filtState_append (a b : List S) : filtState N f (a ++ b) = filtState N (filtState N f a) b := by
  induction a generalizing f with
  | nil => rfl
  | cons w ws ih => exact ih _

theorem filtSamples_append (a b : List S) :
    filtSamples N f (a ++ b) = filtSamples N f a ++ filtSamples N (filtState N f a) b := by
  induction a generalizing f with
  | nil => rfl
  | cons w ws ih => exact congrArg _ (ih _)

theorem filtState_concat (ws : List S) (w : S) :
    filtState N f (ws ++ [w]) = filtSample N (filtState N f ws) w :=
  filtState_append N f ws [w]

/-- The scalars after sample `i` come from those before it and sample `i` alone. -/
theorem filtState_take_succ {l : List S} {i : Nat} (h : i < l.length) :
    filtState N f (l.take (i + 1)) = filtSample N (filtState N f (l.take i)) l[i] := by
  rw [List.take_succ_eq_append_getElem h, filtState_concat]

/-- The stored sample `i` is the low-pass result of sample `i`, narrowed. -/
theorem filtSamples_getElem? {l : List S} {i : Nat} (h : i < l.length) :
    (filtSamples N f l)[i]? = some (N.st (filtState N f (l.take (i + 1))).lpY) := by
  induction l generalizing f i with
  | nil => simp at h
  | cons w ws ih =>
    cases i with
    | zero => rfl
    | succ i => exact ih _ (Nat.lt_of_succ_lt_succ h)

/-- A sample that leaves the scalars as they are and is stored as itself does so however often it comes. -/
theorem filt_replicate_of_fixed {w : S} (hf : filtSample N f w = f) (hw : N.st f.lpY = w) (n : Nat) :
    filtState N f (List.replicate n w) = f ∧ filtSamples N f (List.replicate n w) = List.replicate n w := by
  induction n with
  | zero => exact ⟨rfl, rfl⟩
  | succ n ih =>
    obtain ⟨hstate, hsamples⟩ := ih
    simp only [List.replicate_succ, filtState_cons, filtSamples_cons, hf, hw, hstate, hsamples, and_self]

@[simp] theorem filtFrame_val {n : Nat} (frm : Buf S n) : (filtFrame N f frm).val = filtSamples N f frm.val := rfl

end AnyNum

/-- Settles O17: both results run along the list of samples and carry nothing but the scalars. -/
theorem filtersIgnoreFraming : Obligations.FiltersIgnoreFraming := fun _ _ N f a b =>
  ⟨filtSamples_append N f a b, filtState_append N f a b⟩

/-! ## The stage FILT -/

/-- The scalars of a core before sample `i` of the frame that FILT filters. -/
def scalarsBefore (s : State) (i : Nat) : FilterState F64 :=
  filtState numDefault (filterStateOf s) (s.frm.val.take i)

theorem scalarsBefore_zero (s : State) : scalarsBefore s 0 = filterStateOf s := rfl

theorem scalarsBefore_frame (s : State) : scalarsBefore s 160 = filterStateOf (doFilt s) := by
  have hall : s.frm.val.take 160 = s.frm.val := List.take_of_length_le s.frm.property.le
  rw [scalarsBefore, hall]
  rfl

theorem scalarsBefore_succ (s : State) {i : Nat} (h : i < 160) :
    scalarsBefore s (i + 1) = filtSample numDefault (scalarsBefore s i) (bufGet 0#32 s.frm i) := by
  have hi : i < s.frm.val.length := s.frm.property.symm ▸ h
  rw [bufGet, List.getD_eq_getElem _ _ hi]
  exact filtState_take_succ numDefault _ hi

theorem bufGet_doFilt_frm (s : State) {i : Nat} (h : i < 160) :
    bufGet 0#32 (doFilt s).frm i = st32 (scalarsBefore s (i + 1)).lpY := by
  have hi : i < s.frm.val.length := s.frm.property.symm ▸ h
  rw [doFilt_frm, bufGet, filtFrame_val, List.getD_eq_getElem?_getD, filtSamples_getElem? numDefault _ hi]
  rfl

/-- Settles O16: the sequence of scalars is `scalarsBefore`. -/
theorem filtFollowsRecurrences : Obligations.FiltFollowsRecurrences := by
  intro s hrun
  refine ⟨doFilt s, scalarsBefore s, exec_filt hrun, rfl, scalarsBefore_zero s, scalarsBefore_frame s, fun i hi => ?_⟩
  rw [bufGet_doFilt_frm s hi, scalarsBefore_succ s hi]
  exact ⟨filtSample_hpXp _ _ _, filtSample_hpYp _ _ _, filtSample_lpY _ _ _, rfl⟩

/-- A zero sample on zero scalars: every sum and product of R110 and R111 is `+0`. -/
theorem filtSample_numDefault_zero :
    filtSample numDefault { hpXp := 0#64, hpYp := 0#64, lpY := 0#64 } 0#32 =
      { hpXp := 0#64, hpYp := 0#64, lpY := 0#64 } := by decide +kernel

/-- Settles O18: a zero sample on zero scalars is a fixed point of the filters. -/
theorem filteredSilenceIsSilence : Obligations.FilteredSilenceIsSilence := by
  intro s hrun hxp hyp hlp hfrm
  have hzero : filterStateOf s = { hpXp := 0#64, hpYp := 0#64, lpY := 0#64 } := by
    rw [filterStateOf, hxp, hyp, hlp]
  have hfixed : filtSample numDefault (filterStateOf s) 0#32 = filterStateOf s := by
    rw [hzero, filtSample_numDefault_zero]
  have hstored : numDefault.st (filterStateOf s).lpY = 0#32 := by
    rw [hzero]
    decide +kernel
  obtain ⟨hstate, hsamples⟩ := filt_replicate_of_fixed numDefault _ hfixed hstored 160
  have hframe : filtFrame numDefault (filterStateOf s) s.frm = s.frm :=
    Subtype.ext (by rw [filtFrame_val, hfrm, hsamples])
  rw [exec_filt hrun, doFilt, hframe, hfrm, hstate]
  rfl

/-! ## The filters over the reals -/

section OverTheReals

variable (f : FilterState ℝ)

theorem filtSample_numReal_hpXp (x : ℝ) : (filtSample numReal f x).hpXp = x := rfl

theorem filtSample_numReal_hpYp (x : ℝ) :
    (filtSample numReal f x).hpYp = numReal.aHp * (f.hpYp + x - f.hpXp) := rfl

theorem filtSample_numReal_lpY (x : ℝ) :
    (filtSample numReal f x).lpY = (1 - numReal.aLp) * f.lpY + numReal.aLp * (filtSample numReal f x).hpYp := by
  have h : (filtSample numReal f x).lpY = f.lpY + numReal.aLp * ((filtSample numReal f x).hpYp - f.lpY) := rfl
  rw [h]
  ring

/-- While the input stays what it was, the high-pass decays by `A_HP` a sample (R110). -/
theorem hpYp_of_constant_input {x : ℝ} (h : f.hpXp = x) (n : Nat) :
    (filtState numReal f (List.replicate n x)).hpYp = numReal.aHp ^ n * f.hpYp := by
  induction n generalizing f with
  | zero => simp
  | succ n ih =>
    rw [List.replicate_succ, filtState_cons, ih _ (filtSample_numReal_hpXp f x), filtSample_numReal_hpYp, h]
    ring

/-- With a constant input of 1 the low-pass closes the gap to 1 by the factor `1 - A_LP` a sample. -/
theorem gap_of_iterate_lpf (n : Nat) :
    1 - (Nat.iterate (fun f => lpf numReal f 1) n f).lpY = (1 - numReal.aLp) ^ n * (1 - f.lpY) := by
  induction n generalizing f with
  | zero => simp
  | succ n ih =>
    have hstep : (lpf numReal f 1).lpY = f.lpY + numReal.aLp * (1 - f.lpY) := rfl
    rw [Function.iterate_succ_apply, ih, hstep]
    ring

end OverTheReals

theorem highPass_impulse_response (n : Nat) :
    (filtState numReal { hpXp := 0, hpYp := 0, lpY := 0 } (1 :: List.replicate n 0)).hpYp =
      if n = 0 then numReal.aHp else numReal.aHp ^ n * (numReal.aHp - 1) := by
  cases n with
  | zero =>
    rw [if_pos rfl, List.replicate_zero, filtState_cons, filtState_nil, filtSample_numReal_hpYp]
    ring
  | succ n =>
    rw [if_neg n.succ_ne_zero, List.replicate_succ, filtState_cons, filtState_cons,
      hpYp_of_constant_input _ (filtSample_numReal_hpXp _ 0)]
    simp only [filtSample_numReal_hpYp, filtSample_numReal_hpXp]
    ring

theorem highPass_step_response (n : Nat) :
    (filtState numReal { hpXp := 0, hpYp := 0, lpY := 0 } (List.replicate (n + 1) 1)).hpYp =
      numReal.aHp ^ (n + 1) := by
  rw [List.replicate_succ, filtState_cons, hpYp_of_constant_input _ (filtSample_numReal_hpXp _ 1),
    filtSample_numReal_hpYp]
  ring

theorem lowPass_step_response (n : Nat) :
    (Nat.iterate (fun f => lpf numReal f 1) n { hpXp := 0, hpYp := 0, lpY := 0 }).lpY =
      1 - (1 - numReal.aLp) ^ n := by
  have h := gap_of_iterate_lpf { hpXp := 0, hpYp := 0, lpY := 0 } n
  linarith

theorem aHp_numReal_mem_Ioo : 0 < numReal.aHp ∧ numReal.aHp < 1 := by
  have haHp : numReal.aHp = 1 / (1 + 15 / 1000 * Real.pi) := rfl
  have hpi := Real.pi_pos
  rw [haHp, div_lt_one (by positivity)]
  exact ⟨by positivity, by linarith⟩

theorem aLp_numReal_mem_Ioo : 0 < numReal.aLp ∧ numReal.aLp < 1 := by
  have haLp : numReal.aLp = Real.pi / (Real.pi + 2) := rfl
  have hpi := Real.pi_pos
  rw [haLp, div_lt_one (by positivity)]
  exact ⟨by positivity, by linarith⟩

/-- Settles O19: the responses, each from the decay of its filter, and the ranges from `0 < π`. -/
theorem realFilterResponses : Obligations.RealFilterResponses := by
  refine ⟨highPass_impulse_response, highPass_step_response, fun f xs x => ?_, fun n => lowPass_step_response (n + 1),
    aHp_numReal_mem_Ioo.1, aHp_numReal_mem_Ioo.2, aLp_numReal_mem_Ioo.1, aLp_numReal_mem_Ioo.2⟩
  rw [filtState_concat]
  exact filtSample_numReal_lpY _ x

end Sys2Proof.Machine
end

section
/-! The Level Normalizer (42_agc.md): what RMSCALC (R120), GAINUPD (R121, R122) and APPLY (R124) write in binary64, and
the gain over the reals, where every frame closes a fixed part of the gap to `NEED` (R126, R127). -/

namespace Sys2Proof.Machine

/-! ## RMSCALC -/

theorem sumSquares_eq_foldl {S C : Type} (N : Num S C) (acc : C) (ws : List S) :
    sumSquares N acc ws = ws.foldl (fun a w => N.add a (N.mul (N.ld w) (N.ld w))) acc := by
  induction ws generalizing acc with
  | nil => rfl
  | cons w ws ih => exact ih _

/-- The list under a buffer is what its indices read, in ascending order. -/
theorem map_bufGet_range {α : Type} {n : Nat} (d : α) (b : Buf α n) : (List.range n).map (bufGet d b) = b.val := by
  refine List.ext_getElem (by simp [b.property]) fun i _ hi => ?_
  simp [bufGet, List.getElem?_eq_getElem hi]

/-- R120 indexes the frame; the model runs along its list. -/
theorem sumSquares_eq_foldl_range {S C : Type} {n : Nat} (N : Num S C) (d : S) (acc : C) (b : Buf S n) :
    sumSquares N acc b.val =
      (List.range n).foldl (fun a i => N.add a (N.mul (N.ld (bufGet d b i)) (N.ld (bufGet d b i)))) acc := by
  rw [sumSquares_eq_foldl, ← map_bufGet_range d b, List.foldl_map]

theorem rmsOf_numDefault (frm : List F32) :
    rmsOf numDefault frm =
      if eq64 (rawRms numDefault frm) 0#64 then 0x3EB0C6F7A0B5ED8D#64 else rawRms numDefault frm := by
  rw [rmsOf, numDefault_eq, numDefault_const, Literal.word, Literal.word]

theorem rawRms_numDefault (frm : List F32) :
    rawRms numDefault frm = sqrt64 (div64 (sumSquares numDefault 0#64 frm) 0x4064000000000000#64) := by
  rw [rawRms, numDefault_sqrt, numDefault_div, numDefault_const, Literal.word, Literal.word]

/-- Settles O20: the sum along the list is the sum by index. -/
theorem rmsOfFilteredFrame : Obligations.RmsOfFilteredFrame := by
  intro s hrun acc r
  have hraw : rawRms numDefault s.frm.val = r := by
    rw [rawRms_numDefault, sumSquares_eq_foldl_range numDefault 0#32, numDefault_add, numDefault_mul, numDefault_ld]
  rw [exec_rmscalc hrun, doRmscalc, rmsOf_numDefault, hraw]

/-! ## GAINUPD and APPLY -/

/-- `clamp` of R11 in binary64: below first, then above. -/
theorem clamp_numDefault (v lo hi : F64) :
    clamp numDefault v lo hi =
      if lt64 (if lt64 lo v then v else lo) hi then (if lt64 lo v then v else lo) else hi := by
  rw [clamp, nmin, nmax, numDefault_lt]

theorem needOf_numDefault (rms : F64) :
    needOf numDefault rms =
      clamp numDefault (div64 0x3FD0000000000000#64 rms) 0x3FB999999999999A#64 0x4028000000000000#64 := by
  rw [needOf, numDefault_div, numDefault_const, Literal.word, Literal.word, Literal.word]

theorem gainOf_numDefault (need gain : F64) :
    gainOf numDefault need gain =
      add64 gain (mul64 (if lt64 gain need then 0x3FD6666666666666#64 else 0x3F847AE147AE147B#64)
        (sub64 need gain)) := by
  rw [gainOf, gainCoeff, numDefault_add, numDefault_sub, numDefault_mul, numDefault_lt, numDefault_const,
    Literal.word, Literal.word]

theorem applySample_numDefault (gain : F64) (w : F32) :
    applySample numDefault gain w =
      st32 (clamp numDefault (mul64 (ld64 w) gain) 0xBFEFAE147AE147AE#64 0x3FEFAE147AE147AE#64) := by
  rw [applySample, numDefault_st, numDefault_ld, numDefault_mul, numDefault_const, Literal.word, Literal.word]

/-- Settles O21: the clamp of R11 written out, and the coefficient of R122 in the gain. -/
theorem gainMovesTowardsNeed : Obligations.GainMovesTowardsNeed := by
  intro s hrun q lower need coeff
  have hneed : needOf numDefault s.rms = need := by rw [needOf_numDefault, clamp_numDefault]
  rw [exec_gainupd hrun, doGainupd, hneed, gainOf_numDefault]

/-- Settles O22: APPLY maps one function over the frame. -/
theorem applyScalesAndClips : Obligations.ApplyScalesAndClips := by
  intro s hrun
  refine ⟨doApply s, exec_apply hrun, rfl, fun i hi => ?_⟩
  rw [doApply_frm, bufGet_bufMap _ _ _ _ hi, applySample_numDefault, clamp_numDefault]

/-! ## The gain over the reals -/

/-- The gain asked for in silence (R127): 0.25 / 1e-6 lies above the clamp. -/
theorem needOf_numReal_rmsEps : needOf numReal (numReal.const .rmsEps) = 12 := by
  norm_num [needOf, clamp, nmin, nmax, numReal, Literal.value]

section OverTheReals

variable (need g : ℝ) (m : Nat)

theorem gainCoeff_numReal : gainCoeff numReal need g = if g < need then 35 / 100 else 1 / 100 := by
  simp [gainCoeff, numReal, Literal.value]

theorem gainCoeff_numReal_lt_one : gainCoeff numReal need g < 1 := by
  rw [gainCoeff_numReal]
  split <;> norm_num

/-- One frame leaves the part `1 - step` of the gap to `NEED` (R122). -/
theorem gap_gainOf : need - gainOf numReal need g = (1 - gainCoeff numReal need g) * (need - g) := by
  have hgain : gainOf numReal need g = g + gainCoeff numReal need g * (need - g) := rfl
  rw [hgain]
  ring

/-- The gain does not cross `NEED`, so the next frame has the same coefficient. -/
theorem gainCoeff_gainOf : gainCoeff numReal need (gainOf numReal need g) = gainCoeff numReal need g := by
  have hside : gainOf numReal need g < need ↔ g < need := by
    rw [← sub_pos, gap_gainOf, mul_pos_iff_of_pos_left (sub_pos.2 (gainCoeff_numReal_lt_one need g)), sub_pos]
  rw [gainCoeff_numReal, gainCoeff_numReal]
  simp only [hside]

theorem gainCoeff_gainAfter : gainCoeff numReal need (gainAfter numReal need m g) = gainCoeff numReal need g := by
  induction m with
  | zero => rfl
  | succ m ih => exact (gainCoeff_gainOf need _).trans ih

/-- While `NEED` keeps one value the gap decays geometrically (R126). -/
theorem gap_gainAfter :
    need - gainAfter numReal need m g = (1 - gainCoeff numReal need g) ^ m * (need - g) := by
  induction m with
  | zero => simp [gainAfter]
  | succ m ih => rw [gainAfter, gap_gainOf, gainCoeff_gainAfter, ih, pow_succ', mul_assoc]

variable {need g}

theorem gainAfter_of_lt (h : g < need) : gainAfter numReal need m g = need - (need - g) * (65 / 100) ^ m := by
  have hpart : 1 - gainCoeff numReal need g = 65 / 100 := by rw [gainCoeff_numReal, if_pos h]; norm_num
  rw [← hpart, mul_comm, ← gap_gainAfter, sub_sub_cancel]

theorem gainAfter_of_le (h : need ≤ g) : gainAfter numReal need m g = need - (need - g) * (99 / 100) ^ m := by
  have hpart : 1 - gainCoeff numReal need g = 99 / 100 := by rw [gainCoeff_numReal, if_neg h.not_gt]; norm_num
  rw [← hpart, mul_comm, ← gap_gainAfter, sub_sub_cancel]

end OverTheReals

/-- Settles O25: both trajectories from the decay of the gap; in silence the gain rises from 1 towards 12. -/
theorem realGainTrajectories : Obligations.RealGainTrajectories := by
  refine ⟨fun _ _ m h => gainAfter_of_lt m h, fun _ _ m h => gainAfter_of_le m h, needOf_numReal_rmsEps, fun m => ?_⟩
  rw [needOf_numReal_rmsEps, gainAfter_of_lt m (by norm_num)]
  norm_num

end Sys2Proof.Machine
end

section
/-! The Noise Floor Calibrator (43_noise_floor.md): what CAL writes in binary64 in and after the calibration window
(R131), and that after it no step but a reset writes these registers (R132). -/

namespace Sys2Proof.Machine

/-! ## CAL -/

/-- The mean that ends the window: a frame has just been counted. -/
theorem noiseFloor_numDefault_succ (sum : F64) (cnt : Nat) (nf : F64) :
    noiseFloor numDefault sum (cnt + 1) nf = div64 sum (ofNat64 (cnt + 1)) := by
  rw [noiseFloor, if_pos cnt.succ_pos, numDefault_div, numDefault_ofNat]

/-- In the window CAL adds and counts the frame, and writes NF where the window ends. -/
theorem doCal_of_calibrating {s : State} (h : 0 < s.calLeft) :
    doCal s =
      { s with
        calSum := add64 s.calSum s.rms
        calCnt := s.calCnt + 1
        calLeft := s.calLeft - 160
        nf := if s.calLeft - 160 ≤ 0 then div64 (add64 s.calSum s.rms) (ofNat64 (s.calCnt + 1)) else s.nf
        seq := seqZcrcalc } := by
  rw [doCal, calStep_of_calibrating _ _ (c := calStateOf s) h, noiseFloor_numDefault_succ, numDefault_add]
  rfl

/-- After the window CAL only passes SEQ on. -/
theorem doCal_of_frozen {s : State} (h : s.calLeft ≤ 0) : doCal s = { s with seq := seqZcrcalc } := by
  rw [doCal, calStep_of_frozen _ _ (c := calStateOf s) h]
  rfl

/-- Settles O26: the window goes on above 160, ends from 1 to 160, and is over at 0. -/
theorem calAveragesThenFreezes : Obligations.CalAveragesThenFreezes := by
  intro s hrun
  rw [exec_cal hrun]
  refine ⟨fun hmore => ?goesOn, fun hpos hlast => ?ends, fun hdone => ?done⟩
  case goesOn =>
    have hopen : ¬ s.calLeft - 160 ≤ 0 := by omega
    rw [doCal_of_calibrating (by omega), if_neg hopen]
  case ends =>
    have hclosed : s.calLeft - 160 ≤ 0 := by omega
    rw [doCal_of_calibrating hpos, if_pos hclosed]
  case done => rw [doCal_of_frozen hdone]

/-! ## After the window -/

/-- A word is stored or stops the core; neither writes the calibration registers. -/
theorem calStateOf_acceptWord (w : F32) (s : State) : calStateOf (acceptWord w s) = calStateOf s := by
  unfold acceptWord
  split
  · rfl
  · rfl

/-- After the window CAL too leaves the calibration registers alone, as the other operations always do. -/
theorem calStateOf_effect_of_frozen {i : Instr} {s : State} (hr : i ≠ .reset) (h : s.calLeft ≤ 0) :
    calStateOf (effect i s) = calStateOf s := by
  by_cases hi : i = .cal
  · rw [hi, effect, doCal_of_frozen h]
    rfl
  · obtain ⟨hleft, hsum, hcnt, hnf⟩ := effect_cal s hr hi
    rw [calStateOf, hleft, hsum, hcnt, hnf, calStateOf]

theorem calStateOf_step_of_frozen {s t : State} (hrst : s.rst = false) (h : s.calLeft ≤ 0) (hstep : step s = .next t) :
    calStateOf t = calStateOf s := by
  rcases step_cases hstep with ⟨hreset, -⟩ | ⟨-, -, rfl⟩ | ⟨b, bs, -, -, -, -, rfl⟩ | ⟨w, ws, -, -, rfl⟩ | ⟨-, rfl⟩ |
    ⟨-, -, -, -, rfl⟩
  · exact absurd (hrst.symm.trans hreset) (by decide)
  · rfl
  · rfl
  · exact calStateOf_acceptWord w { s with inq := ws }
  · rfl
  · rw [stageEffect_eq_effect]
    exact calStateOf_effect_of_frozen (decodeSeq_ne_reset s.seq) h

/-- Settles O27: of the steps that are no reset, only CAL could write these registers. -/
theorem calibrationStaysFrozen : Obligations.CalibrationStaysFrozen := by
  intro s t hrst h hstep
  exact CalState.mk.inj (calStateOf_step_of_frozen hrst h hstep)

end Sys2Proof.Machine
end

section
/-! The Feature Extractor (44_features.md): the zero crossings by index (R141), the sums of DFT (R143) and of FLATCALC
(R146) by index, and what each stage writes in binary64. -/

namespace Sys2Proof.Machine

/-! ## Runs along a list, by index -/

section AnyNum

variable {S C : Type} (N : Num S C)

/-- R141 indexes the neighbours; the model runs along the list. -/
theorem signChanges_eq_countP (d : S) (l : List S) :
    signChanges N l =
      (List.range (l.length - 1)).countP fun i => nonNeg N (l.getD (i + 1) d) != nonNeg N (l.getD i d) := by
  induction l with
  | nil => rfl
  | cons a l ih =>
    cases l with
    | nil => rfl
    | cons b rest =>
      rw [signChanges, ih, add_comm]
      simp only [List.length_cons, Nat.add_sub_cancel, List.range_succ_eq_map, List.countP_cons, List.countP_map]
      rfl

/-- R143 indexes the frame; the model runs along its list from sample `n` on. -/
theorem dftSums_eq_foldl (d : S) (k n : Nat) (re im : C) (ws : List S) :
    dftSums N k n re im ws =
      ((List.range ws.length).foldl
        (fun a i => N.add a (N.mul (N.ld (ws.getD i d)) (N.cos160 (twiddle k (n + i))))) re,
      (List.range ws.length).foldl
        (fun a i => N.sub a (N.mul (N.ld (ws.getD i d)) (N.sin160 (twiddle k (n + i))))) im) := by
  induction ws generalizing n re im with
  | nil => rfl
  | cons w ws ih =>
    have hindex (i : Nat) : n + 1 + i = n + (i + 1) := by omega
    rw [dftSums, ih, List.length_cons, List.range_succ_eq_map, List.foldl_cons, List.foldl_cons, List.foldl_map,
      List.foldl_map]
    simp only [hindex]
    rfl

theorem sumLogs_eq_foldl (acc : C) (ms : List C) :
    sumLogs N acc ms = ms.foldl (fun a m => N.add a (N.ln (N.add m (N.const .flatEps)))) acc := by
  induction ms generalizing acc with
  | nil => rfl
  | cons m ms ih => exact ih _

theorem sumMags_eq_foldl (acc : C) (ms : List C) : sumMags N acc ms = ms.foldl N.add acc := by
  induction ms generalizing acc with
  | nil => rfl
  | cons m ms ih => exact ih _

end AnyNum

/-- The bins of flatness are those from index 1 on. -/
theorem flatBins_eq_map {C : Type} {n : Nat} (d : C) (mag : Buf C (n + 1)) :
    flatBins mag = (List.range n).map fun j => bufGet d mag (j + 1) := by
  rw [flatBins, ← map_bufGet_range d mag, List.range_succ_eq_map, List.map_cons, List.drop_one, List.tail_cons,
    List.map_map]
  rfl

theorem bufGet_spectrum {S C : Type} (N : Num S C) (frm : List S) (d : C) {k : Nat} (h : k < 64) :
    bufGet d (spectrum N frm) k = dftBin N frm k := by
  simp [bufGet, spectrum, h]

/-! ## The stages -/

theorem zcrOf_numDefault (zc : Nat) : zcrOf numDefault zc = div64 (ofNat64 zc) 0x4064000000000000#64 := by
  rw [zcrOf, numDefault_div, numDefault_ofNat, numDefault_const, Literal.word]

/-- Settles O29: the crossings along the list are those by index, 159 for a frame of 160. -/
theorem zeroCrossingsCounted : Obligations.ZeroCrossingsCounted := by
  intro s hrun side zc
  have hcount : signChanges numDefault s.frm.val = zc := by
    rw [signChanges_eq_countP numDefault 0#32, s.frm.property]
    rfl
  rw [exec_zcrcalc hrun, doZcrcalc, hcount, zcrOf_numDefault]

theorem dftBin_numDefault (frm : Buf F32 160) (k : Nat) :
    dftBin numDefault frm.val k =
      div64 (hypot64
        ((List.range 160).foldl (fun a n => add64 a (mul64 (ld64 (bufGet 0#32 frm n)) (cosTable (k * n % 160)))) 0#64)
        ((List.range 160).foldl (fun a n => sub64 a (mul64 (ld64 (bufGet 0#32 frm n)) (sinTable (k * n % 160)))) 0#64))
        0x4064000000000000#64 := by
  rw [dftBin, dftSums_eq_foldl numDefault 0#32, frm.property, numDefault_div, numDefault_hypot, numDefault_const,
    Literal.word, Literal.word]
  simp only [Nat.zero_add, twiddle, bufGet, numDefault_add, numDefault_sub, numDefault_mul, numDefault_ld,
    numDefault_cos160, numDefault_sin160]

/-- Settles O30: each bin's two sums along the list are those by index. -/
theorem dftSumsDirectly : Obligations.DftSumsDirectly := by
  intro s hrun
  refine ⟨doDft s, exec_dft hrun, rfl, fun k hk => ?_⟩
  rw [doDft_mag, bufGet_spectrum _ _ _ hk, dftBin_numDefault]

theorem geoMean_numDefault (mags : List F64) :
    geoMean numDefault mags = exp64 (div64 (sumLogs numDefault 0#64 mags) 0x404F800000000000#64) := by
  rw [geoMean, numDefault_exp, numDefault_div, numDefault_const, Literal.word, Literal.word]

theorem arithMean_numDefault (mags : List F64) :
    arithMean numDefault mags = div64 (sumMags numDefault 0#64 mags) 0x404F800000000000#64 := by
  rw [arithMean, numDefault_div, numDefault_const, Literal.word, Literal.word]

/-- Settles O31: both sums along the bins are those by index from 1 to 63. -/
theorem flatnessOfBins : Obligations.FlatnessOfBins := by
  intro s hrun gm am
  have hgm : geoMean numDefault (flatBins s.mag) = gm := by
    rw [geoMean_numDefault, sumLogs_eq_foldl, flatBins_eq_map 0#64, List.foldl_map, numDefault_add, numDefault_ln,
      numDefault_const, Literal.word]
  have ham : arithMean numDefault (flatBins s.mag) = am := by
    rw [arithMean_numDefault, sumMags_eq_foldl, flatBins_eq_map 0#64, List.foldl_map, numDefault_add]
  rw [exec_flatcalc hrun, doFlatcalc, hgm, ham, numDefault_div]

end Sys2Proof.Machine
end

section
/-! A spectrum whose bins are all zero (44_features.md R146; 92_eei_decisions.md D16): in binary64 the logarithms of the
epsilon have a sum far from underflow of `exp`, so the geometric mean is positive and its quotient by zero is infinite;
over the reals there is no quotient. -/

namespace Sys2Proof.Machine

-- One theorem at a time: kernel evaluations side by side take more threads than check.sh's memory limit allows.
set_option Elab.async false

/-! ## Rounding within bounds -/

theorem abs_real64_lt_overflow {w : F64} (h : finite64 w = true) : |real64 w| < 2 ^ 1024 - 2 ^ 970 := by
  have hmax : (unitsOfCode 52 (code64 w) : ℝ) ≤ unitsOfCode 52 (infCode64 - 1) :=
    unitsOfCode_cast_le (Nat.le_sub_one_of_lt ((finite64_iff w).1 h))
  have hinf : (unitsOfCode 52 (infCode64 - 1) : ℝ) < unitsOfCode 52 infCode64 := unitsOfCode_cast_lt (by decide)
  have hover := overflow64_midpoint
  refine lt_of_mul_lt_mul_right (a := (2 : ℝ) ^ 1074) ?_ (by positivity)
  rw [abs_real64, units64]
  generalize ((2 : ℝ) ^ 1024 - 2 ^ 970) * 2 ^ 1074 = midpoint at *
  linarith

/-- Rounding does not pass a finite word, on either side. -/
theorem RoundedTo64.abs_real64_le {x : ℝ} {r w : F64} (h : RoundedTo64 x r) (hw : finite64 w = true) (hx : |x| ≤ real64 w) :
    finite64 r = true ∧ |real64 r| ≤ real64 w := by
  obtain ⟨-, -, -, hfin⟩ := h
  obtain ⟨hr, hnear⟩ := hfin (hx.trans_lt ((le_abs_self _).trans_lt (abs_real64_lt_overflow hw)))
  obtain ⟨hlo, hhi⟩ := abs_le.1 hx
  have habove := (hnear w hw).1
  have hbelow := (hnear (negate64 w) (by rwa [finite64_negate64])).1
  rw [abs_of_nonneg (sub_nonneg.2 hhi)] at habove
  rw [real64_negate64, abs_of_nonpos (sub_nonpos.2 hlo)] at hbelow
  exact ⟨hr, abs_le.2 ⟨by linarith [neg_abs_le (real64 r - x)], by linarith [le_abs_self (real64 r - x)]⟩⟩

theorem mul_two_pow_lt {n a b c : Nat} (hn : n ≤ 2 ^ a) (h : a + b < c) : n * 2 ^ b < 2 ^ c :=
  calc n * 2 ^ b ≤ 2 ^ a * 2 ^ b := Nat.mul_le_mul_right _ hn
    _ = 2 ^ (a + b) := (pow_add 2 a b).symm
    _ < 2 ^ c := Nat.pow_lt_pow_right one_lt_two h

/-- `C(n)` is exact as far as the integers have 53 bits. -/
theorem real64_ofNat64 {n : Nat} (h : n ≤ 2 ^ 53) : finite64 (ofNat64 n) = true ∧ real64 (ofNat64 n) = n := by
  obtain ⟨c, hc⟩ := exists_code_of_mantissa (f := 52) h 1074
  have hround : ofNat64 n = pack64 false c := by
    rw [ofNat64, round64, codeOfRatio_of_exact (c := c) (by decide) one_pos (by rw [hc, mul_one])]
  have hfin : c < infCode64 := by
    rw [lt_infCode64_iff, hc]
    exact mul_two_pow_lt h (by decide)
  have hcode : code64 (pack64 false c) = c := by simpa using hfin.le
  rw [hround]
  refine ⟨(finite64_iff _).2 (hcode.trans_lt hfin), ?_⟩
  have habs := abs_real64 (pack64 false c)
  rw [abs_of_nonneg (real64_nonneg (neg64_pack64 _ _)), units64, hcode, hc, Nat.cast_mul, Nat.cast_pow,
    Nat.cast_ofNat] at habs
  exact mul_right_cancel₀ (by positivity) habs

/-- A finite word of magnitude at most `n`. -/
def AbsLe (w : F64) (n : Nat) : Prop := finite64 w = true ∧ |real64 w| ≤ n

theorem RoundedTo64.absLe {x : ℝ} {r : F64} {n : Nat} (h : RoundedTo64 x r) (hn : n ≤ 2 ^ 53) (hx : |x| ≤ n) :
    AbsLe r n := by
  obtain ⟨hfin, hval⟩ := real64_ofNat64 hn
  rw [AbsLe, ← hval]
  exact h.abs_real64_le hfin (by rwa [hval])

theorem AbsLe.add {a b : F64} {m n : Nat} (ha : AbsLe a m) (hb : AbsLe b n) (h : m + n ≤ 2 ^ 53) :
    AbsLe (add64 a b) (m + n) := by
  obtain ⟨hfa, ha⟩ := ha
  obtain ⟨hfb, hb⟩ := hb
  refine (add64_rounds hfa hfb).1.absLe h ?_
  rw [Nat.cast_add]
  exact (abs_add_le _ _).trans (add_le_add ha hb)

/-- The quotient by `C(n)`. -/
theorem AbsLe.div {a : F64} {m n : Nat} (ha : AbsLe a (m * n)) (hm : m ≤ 2 ^ 53) (hn : n ≤ 2 ^ 53) (h0 : 0 < n) :
    AbsLe (div64 a (ofNat64 n)) m := by
  obtain ⟨hfa, ha⟩ := ha
  obtain ⟨hfn, hval⟩ := real64_ofNat64 hn
  have hpos : (0 : ℝ) < n := Nat.cast_pos.2 h0
  refine (div64_rounds hfa hfn (by rw [hval]; exact hpos.ne')).1.absLe hm ?_
  rwa [hval, abs_div, abs_of_pos hpos, div_le_iff₀ hpos, ← Nat.cast_mul]

/-! ## Zero bins in binary64 -/

theorem value64_of_code_zero {w : F64} (h : code64 w = 0) : value64 w = 0 := by
  rw [value64_eq_signed, signed_eq_zero, units64_eq_zero, h]

/-- Zeros of either sign add up to `+0`. -/
theorem sumMags_zeros {ms : List F64} (h : ∀ m ∈ ms, code64 m = 0) : sumMags numDefault 0#64 ms = 0#64 := by
  induction ms with
  | nil => rfl
  | cons m ms ih =>
    obtain ⟨hm, hms⟩ := List.forall_mem_cons.1 h
    have hsum : add64 0#64 m = 0#64 := by
      rw [add64_of_finite (by decide) (finite64_of_code_zero hm), value64_of_code_zero hm,
        value64_of_code_zero (by decide), if_pos (add_zero 0), show neg64 0#64 = false by decide, Bool.false_and]
      decide
    rw [sumMags, numDefault_add, hsum, ih hms]

theorem add64_zero_flatEps {m : F64} (h : code64 m = 0) : add64 m Literal.flatEps.word = Literal.flatEps.word := by
  rw [add64_of_finite (finite64_of_code_zero h) (by decide), value64_of_code_zero h, zero_add,
    if_neg (by decide +kernel)]
  decide +kernel

/-- The logarithm of the epsilon is about -27.6. -/
theorem absLe_ln64_flatEps : AbsLe (ln64 Literal.flatEps.word) 32 := by
  have hspan : key64 (negate64 (ofNat64 32)) ≤ (lnSpan (units64 Literal.flatEps.word)).1 ∧
      (lnSpan (units64 Literal.flatEps.word)).1 ≤ (lnSpan (units64 Literal.flatEps.word)).2 ∧
      (lnSpan (units64 Literal.flatEps.word)).2 ≤ 0 := by decide +kernel
  obtain ⟨hfirst, horder, hsecond⟩ := hspan
  obtain ⟨hlo, hhi⟩ := key64_freeWithin_between Config.lnLib Literal.flatEps.word horder
  rw [← ln64_of_pos (by decide) (by decide) (by decide)] at hlo hhi
  have hbelow : key64 (negate64 (ofNat64 32)) ≤ key64 (ln64 Literal.flatEps.word) := by
    refine le_trans (le_min ?_ hfirst) hlo
    decide +kernel
  have habove : key64 (ln64 Literal.flatEps.word) ≤ key64 0#64 := hhi.trans (max_le (by decide) hsecond)
  have hfloor : -(infCode64 : Int) < key64 (negate64 (ofNat64 32)) := by decide +kernel
  refine ⟨(finite64_iff _).2 ?_, ?_⟩
  · have hzero : key64 0#64 = 0 := by decide
    have hinf : (0 : Int) < infCode64 := by decide
    rw [← natAbs_key64]
    omega
  · rw [← real64_le_iff, real64_negate64, (real64_ofNat64 (by decide)).2] at hbelow
    rw [← real64_le_iff, real64_eq_zero.2 (show code64 0#64 = 0 by decide)] at habove
    exact abs_le.2 ⟨hbelow, habove.trans (Nat.cast_nonneg _)⟩

/-- Every zero bin adds the logarithm of the epsilon. -/
theorem absLe_sumLogs_zeros {ms : List F64} {acc : F64} {n : Nat} (h : ∀ m ∈ ms, code64 m = 0) (hacc : AbsLe acc n)
    (hn : n + ms.length * 32 ≤ 2 ^ 53) : AbsLe (sumLogs numDefault acc ms) (n + ms.length * 32) := by
  induction ms generalizing acc n with
  | nil => exact hacc
  | cons m ms ih =>
    obtain ⟨hm, hms⟩ := List.forall_mem_cons.1 h
    rw [List.length_cons, Nat.succ_mul, add_comm _ 32, ← add_assoc] at hn ⊢
    rw [sumLogs, numDefault_add, numDefault_ln, numDefault_const, add64_zero_flatEps hm]
    exact ih hms (hacc.add absLe_ln64_flatEps (by omega)) hn

theorem isNan64_exp64 {x : F64} (h : finite64 x = true) : isNan64 (exp64 x) = false := by
  rw [exp64_of_finite h]
  exact isNan64_freeWithin _ _ _

/-- `exp` of -32 is a positive word, and `exp` rises from there. -/
theorem exp64_pos {x : F64} (h : AbsLe x 32) : 0 < key64 (exp64 x) := by
  obtain ⟨hfin, hx⟩ := h
  have hfin' : finite64 (negate64 (ofNat64 32)) = true := by decide +kernel
  have hle : le64 (negate64 (ofNat64 32)) x = true := by
    refine (compare64_finite hfin' hfin).2.1.2 ?_
    rw [real64_negate64, (real64_ofNat64 (by decide)).2]
    exact neg_le_of_abs_le hx
  have hspan : (0 : Int) < min (infCode64 : Int) (expSpan (value64 (negate64 (ofNat64 32)))).1 := by decide +kernel
  have hlow : 0 < key64 (exp64 (negate64 (ofNat64 32))) := by
    rw [exp64_of_finite hfin']
    exact hspan.trans_le (le_key64_freeWithin _ _)
  exact hlow.trans_le ((le64_iff (isNan64_exp64 hfin') (isNan64_exp64 hfin)).1 (exp64_mono hfin' hfin hle))

/-- 63 zero bins: the sum of the logarithms is at most 2016 in magnitude, and its mean at most 32. -/
theorem geoMean_zeros {ms : List F64} (hlen : ms.length = 63) (h : ∀ m ∈ ms, code64 m = 0) :
    isNan64 (geoMean numDefault ms) = false ∧ 0 < key64 (geoMean numDefault ms) := by
  have hzero : AbsLe 0#64 0 := ⟨by decide, by rw [real64_eq_zero.2 (by decide), abs_zero, Nat.cast_zero]⟩
  have hsum := absLe_sumLogs_zeros h hzero (by rw [hlen]; decide)
  rw [hlen, zero_add, mul_comm] at hsum
  have hmean := hsum.div (by decide) (by decide) (by decide)
  rw [geoMean_numDefault, show (0x404F800000000000#64 : F64) = ofNat64 63 by decide +kernel]
  exact ⟨isNan64_exp64 hmean.1, exp64_pos hmean⟩

theorem arithMean_zeros {ms : List F64} (h : ∀ m ∈ ms, code64 m = 0) : arithMean numDefault ms = 0#64 := by
  rw [arithMean_numDefault, sumMags_zeros h]
  decide +kernel

/-- A positive word over `+0` is the positive infinity. -/
theorem div64_zero_of_pos {a : F64} (hn : isNan64 a = false) (h : 0 < key64 a) :
    div64 a 0#64 = 0x7FF0000000000000#64 := by
  obtain ⟨hneg, hcode⟩ : neg64 a = false ∧ code64 a ≠ 0 := by
    rw [key64] at h
    split at h
    · omega
    · exact ⟨by simpa using ‹¬ neg64 a = true›, by omega⟩
  have hinf : pack64 (neg64 a != neg64 0#64) infCode64 = 0x7FF0000000000000#64 := by
    rw [hneg]
    decide
  by_cases hi : isInf64 a = true
  · rw [div64_of_inf hi (by decide), if_neg (by decide), hinf]
  · have hfin : finite64 a = true := by
      simp only [isInf64, isNan64, beq_iff_eq, decide_eq_false_iff_not] at hi hn
      exact (finite64_iff a).2 (by omega)
    rw [div64_of_finite hfin (by decide), if_pos (by decide), if_neg hcode, hinf]

theorem code64_flatBins {s : State} (h : ∀ k, 1 ≤ k → k < 64 → code64 (bufGet 0#64 s.mag k) = 0) :
    ∀ m ∈ flatBins s.mag, code64 m = 0 := by
  rw [flatBins_eq_map 0#64]
  intro m hm
  obtain ⟨j, hj, rfl⟩ := List.mem_map.1 hm
  exact h (j + 1) (by omega) (by have := List.mem_range.1 hj; omega)

/-! ## Zero bins over the reals -/

theorem sumMags_numReal (acc : ℝ) (mags : List ℝ) : sumMags numReal acc mags = acc + mags.sum := by
  induction mags generalizing acc with
  | nil => exact (add_zero acc).symm
  | cons m ms ih =>
    rw [sumMags, ih, List.sum_cons, ← add_assoc]
    rfl

theorem arithMean_numReal (mags : List ℝ) : arithMean numReal mags = mags.sum / 63 := by
  rw [arithMean, sumMags_numReal]
  norm_num [numReal, Literal.value]

theorem voiceTest_of_no_flat {S C : Type} (N : Num S C) (rms thr zcr : C) :
    voiceTest N rms thr none zcr = false := by
  rw [voiceTest, tonal_none, Bool.and_false, Bool.false_and, Bool.false_and]

/-- Settles O32: in binary64 a positive word is divided by `+0`; over the reals there is no quotient. -/
theorem zeroSpectrumIsNotTonal : Obligations.ZeroSpectrumIsNotTonal := by
  refine ⟨fun s hrun hmag => ?binary64, fun mags => ?reals⟩
  case binary64 =>
    have hzero := code64_flatBins hmag
    have hlen : (flatBins s.mag).length = 63 := by rw [flatBins, List.length_drop, s.mag.property]
    obtain ⟨hnan, hpos⟩ := geoMean_zeros hlen hzero
    have hflat : (doFlatcalc s).flat = 0x7FF0000000000000#64 := by
      rw [doFlatcalc_flat, arithMean_zeros hzero, numDefault_div, div64_zero_of_pos hnan hpos]
    exact ⟨doFlatcalc s, exec_flatcalc hrun, hflat, by rw [hflat]; decide⟩
  case reals =>
    have hnone : flatOf numReal mags = none ↔ arithMean numReal mags = 0 := by
      rw [flatOf_numReal]
      split <;> simp [*]
    refine ⟨hnone, fun hmags rms thr zcr => ?_⟩
    have hsum : arithMean numReal mags = 0 := by
      rw [arithMean_numReal, List.sum_eq_zero hmags, zero_div]
    rw [hnone.2 hsum, voiceTest_of_no_flat]

end Sys2Proof.Machine
end

section
/-! The features over the reals (44_features.md): the range of the flatness by the inequality of the means (R147), and
what a positive gain does to the zero crossings (R142) and to the magnitudes (R144). -/

namespace Sys2Proof.Machine

/-! ## The range of the flatness -/

theorem flatEps_numReal : numReal.const .flatEps = 1 / 10 ^ 12 := by norm_num [numReal, Literal.value]

theorem sumLogs_numReal (acc : ℝ) (mags : List ℝ) :
    sumLogs numReal acc mags = acc + (mags.map fun m => Real.log (m + 1 / 10 ^ 12)).sum := by
  induction mags generalizing acc with
  | nil => exact (add_zero acc).symm
  | cons m ms ih =>
    rw [sumLogs, ih, flatEps_numReal, List.map_cons, List.sum_cons, ← add_assoc]
    rfl

theorem geoMean_numReal (mags : List ℝ) :
    geoMean numReal mags = Real.exp ((mags.map fun m => Real.log (m + 1 / 10 ^ 12)).sum / 63) := by
  rw [geoMean, sumLogs_numReal]
  norm_num [numReal, Literal.value]

/-- The logarithm lies below its tangent at `a`. -/
theorem log_le_tangent {x a : ℝ} (hx : 0 < x) (ha : 0 < a) : Real.log x ≤ Real.log a + (x / a - 1) := by
  have h := Real.log_le_sub_one_of_pos (div_pos hx ha)
  rw [Real.log_div hx.ne' ha.ne'] at h
  linarith

/-- The tangent at `a`, summed over a list. -/
theorem sum_log_le_tangent {mags : List ℝ} {eps a : ℝ} (h : ∀ m ∈ mags, 0 ≤ m) (heps : 0 < eps) (ha : 0 < a) :
    (mags.map fun m => Real.log (m + eps)).sum ≤
      mags.length * (Real.log a - 1) + (mags.sum + mags.length * eps) / a := by
  induction mags with
  | nil => simp
  | cons m ms ih =>
    obtain ⟨hm, hms⟩ := List.forall_mem_cons.1 h
    have htangent := log_le_tangent (add_pos_of_nonneg_of_pos hm heps) ha
    have hrest := ih hms
    rw [List.map_cons, List.sum_cons, List.sum_cons, List.length_cons]
    push_cast
    calc Real.log (m + eps) + (ms.map fun m => Real.log (m + eps)).sum
        ≤ (Real.log a + ((m + eps) / a - 1)) +
            (ms.length * (Real.log a - 1) + (ms.sum + ms.length * eps) / a) := add_le_add htangent hrest
      _ = (ms.length + 1) * (Real.log a - 1) + (m + ms.sum + (ms.length + 1) * eps) / a := by ring

/-- The geometric mean of the bins with the epsilon is at most their arithmetic mean with it: the tangent at that
mean. -/
theorem geoMean_le_arithMean {mags : List ℝ} (hlen : mags.length = 63) (h : ∀ m ∈ mags, 0 ≤ m) :
    geoMean numReal mags ≤ arithMean numReal mags + 1 / 10 ^ 12 := by
  have hsum : 0 ≤ mags.sum := List.sum_nonneg h
  have hmean : 0 < mags.sum / 63 + 1 / 10 ^ 12 := by positivity
  have hlog := sum_log_le_tangent h (by norm_num : (0 : ℝ) < 1 / 10 ^ 12) hmean
  have hone : (mags.sum + 63 * (1 / 10 ^ 12)) / (mags.sum / 63 + 1 / 10 ^ 12) = 63 := by
    rw [div_eq_iff hmean.ne']
    ring
  rw [hlen, Nat.cast_ofNat, hone] at hlog
  rw [geoMean_numReal, arithMean_numReal, ← Real.le_log_iff_exp_le hmean]
  linarith

/-- Settles O33: the quotient of the two means. -/
theorem realFlatnessRange : Obligations.RealFlatnessRange := by
  intro mags hlen hmags ham
  have hgm : 0 < geoMean numReal mags := by
    rw [geoMean_numReal]
    exact Real.exp_pos _
  have hdiv : numReal.div (geoMean numReal mags) (arithMean numReal mags) =
      geoMean numReal mags / arithMean numReal mags := rfl
  rw [hdiv]
  refine ⟨div_pos hgm ham, ?_⟩
  rw [div_le_iff₀ ham, add_mul, one_mul, div_mul_cancel₀ _ ham.ne']
  exact geoMean_le_arithMean hlen hmags

/-! ## A positive gain -/

/-- The count of sign changes sees nothing of the samples but their sides. -/
theorem signChanges_map_of_nonNeg {S C : Type} (N : Num S C) {f : S → S} (h : ∀ w, nonNeg N (f w) = nonNeg N w)
    (l : List S) : signChanges N (l.map f) = signChanges N l := by
  induction l with
  | nil => rfl
  | cons a l ih =>
    cases l with
    | nil => rfl
    | cons b rest =>
      rw [List.map_cons] at ih
      rw [List.map_cons, List.map_cons, signChanges, signChanges, ih, h, h]

section Gain

variable {g : ℝ}

theorem nonNeg_numReal (x : ℝ) : nonNeg numReal x = decide (0 ≤ x) := by
  simp [nonNeg, numReal, Literal.value]

theorem nonNeg_gain (hg : 0 < g) (x : ℝ) : nonNeg numReal (g * x) = nonNeg numReal x := by
  rw [nonNeg_numReal, nonNeg_numReal, decide_eq_decide, mul_nonneg_iff_of_pos_left hg]

/-- Both sums of DFT are linear in the samples. -/
theorem dftSums_gain (k n : Nat) (re im : ℝ) (ws : List ℝ) :
    dftSums numReal k n (g * re) (g * im) (ws.map fun x => g * x) =
      (g * (dftSums numReal k n re im ws).1, g * (dftSums numReal k n re im ws).2) := by
  induction ws generalizing n re im with
  | nil => rfl
  | cons w ws ih =>
    have hre (c : ℝ) : g * re + g * w * c = g * (re + w * c) := by ring
    have him (c : ℝ) : g * im - g * w * c = g * (im - w * c) := by ring
    rw [List.map_cons, dftSums, dftSums]
    change dftSums numReal k (n + 1) (g * re + g * w * _) (g * im - g * w * _) _ = _
    rw [hre, him, ih]
    rfl

theorem hypot_gain (hg : 0 < g) (a b : ℝ) : numReal.hypot (g * a) (g * b) = g * numReal.hypot a b := by
  have hsq : (g * a) ^ 2 + (g * b) ^ 2 = g ^ 2 * (a ^ 2 + b ^ 2) := by ring
  calc numReal.hypot (g * a) (g * b) = Real.sqrt ((g * a) ^ 2 + (g * b) ^ 2) := rfl
    _ = g * Real.sqrt (a ^ 2 + b ^ 2) := by rw [hsq, Real.sqrt_mul (sq_nonneg g), Real.sqrt_sq hg.le]
    _ = g * numReal.hypot a b := rfl

theorem dftBin_gain (hg : 0 < g) (frm : List ℝ) (k : Nat) :
    dftBin numReal (frm.map fun x => g * x) k = g * dftBin numReal frm k := by
  have hsums := dftSums_gain (g := g) k 0 (numReal.const .zero) (numReal.const .zero) frm
  have hzero : g * numReal.const .zero = numReal.const .zero := by simp [numReal, Literal.value]
  rw [hzero] at hsums
  rw [dftBin, hsums, hypot_gain hg]
  exact mul_div_assoc _ _ _

end Gain

/-- Settles O34: the sides of the samples stay, and the sums and their root scale. -/
theorem realFeaturesUnderGain : Obligations.RealFeaturesUnderGain := fun _ frm hg =>
  ⟨signChanges_map_of_nonNeg numReal (nonNeg_gain hg) frm, dftBin_gain hg frm⟩

end Sys2Proof.Machine
end

section
/-! The VAD Decision Engine (45_vad.md): what CLASSIFY decides in binary64 (R150, R151), what HYST makes of a voice frame
and of a silent one (R152, R153), and the hang-over of a run of silent frames (R155). -/

namespace Sys2Proof.Machine

/-! ## CLASSIFY -/

theorem thresholdOf_numDefault (nf : F64) :
    thresholdOf numDefault nf =
      if lt64 0x3F689374BC6A7EFA#64 (mul64 nf 0x4000000000000000#64) then mul64 nf 0x4000000000000000#64
      else 0x3F689374BC6A7EFA#64 := by
  rw [thresholdOf, nmax, numDefault_lt, numDefault_mul, numDefault_const, Literal.word, Literal.word]

theorem voiceTest_numDefault (rms thr flat zcr : F64) :
    voiceTest numDefault rms thr (some flat) zcr =
      (lt64 thr rms && lt64 flat 0x3FE0000000000000#64 && lt64 0x3F947AE147AE147B#64 zcr &&
        lt64 zcr 0x3FD0000000000000#64) := by
  rw [voiceTest, tonal, numDefault_lt, numDefault_const, Literal.word, Literal.word, Literal.word]

/-- Settles O35: the maximum of R11 written out, and the decision of R151 taken against it. -/
theorem classifyThresholds : Obligations.ClassifyThresholds := by
  intro s hrun twice thr
  have hthr : thresholdOf numDefault s.nf = thr := thresholdOf_numDefault s.nf
  rw [exec_classify hrun, doClassify, hthr, voiceTest_numDefault]

/-! ## HYST -/

@[simp] theorem silenceRun_voice (run : Nat) : silenceRun true run = 0 := rfl
@[simp] theorem silenceRun_silent (run : Nat) : silenceRun false run = run + 1 := rfl
@[simp] theorem debounced_voice (run : Nat) : debounced true run = true := rfl
@[simp] theorem debounced_silent (run : Nat) : debounced false run = decide (run ≤ 4) := rfl
@[simp] theorem transition_to_voice (old : Bool) : transition true old = !old := Bool.true_bne old
@[simp] theorem transition_to_silence (old : Bool) : transition false old = old := Bool.false_bne old

/-- A voice frame ends the run (R152), and the state is voice (R153). -/
theorem doHyst_of_voice {s : State} (h : s.isVoice = true) :
    doHyst s = { s with silCnt := 0, voice := true, trans := !s.voice, seq := seqCheck } := by
  rw [doHyst, h, silenceRun_voice, debounced_voice, transition_to_voice]

/-- A silent frame lengthens the run (R152), and the new length alone decides the state (R153). -/
theorem doHyst_of_silent {s : State} (h : s.isVoice = false) :
    doHyst s = { s with
      silCnt := s.silCnt + 1
      voice := decide (s.silCnt + 1 ≤ 4)
      trans := transition (decide (s.silCnt + 1 ≤ 4)) s.voice
      seq := seqCheck } := by
  rw [doHyst, h, silenceRun_silent, debounced_silent]

/-- Settles O36: a silent frame is told apart by whether the lengthened run is still at most 4. -/
theorem hysteresisRule : Obligations.HysteresisRule := by
  intro s hrun
  rw [exec_hyst hrun]
  refine ⟨fun hvoice => ?voice, fun hsilent hshort => ?held, fun hsilent hlong => ?dropped⟩
  case voice => rw [doHyst_of_voice hvoice]
  case held =>
    have hheld : decide (s.silCnt + 1 ≤ 4) = true := decide_eq_true (by omega)
    rw [doHyst_of_silent hsilent, hheld, transition_to_voice]
  case dropped =>
    have hdropped : decide (s.silCnt + 1 ≤ 4) = false := decide_eq_false (by omega)
    rw [doHyst_of_silent hsilent, hdropped, transition_to_silence]

/-! ## The hang-over -/

theorem silentFrames_succ (k : Nat) (s : State) :
    silentFrames (k + 1) s = doHyst { silentFrames k s with isVoice := false } := rfl

/-- Every silent frame counts (R152). -/
theorem silentFrames_silCnt (k : Nat) (s : State) : (silentFrames k s).silCnt = s.silCnt + k := by
  induction k with
  | zero => rfl
  | succ k ih => rw [silentFrames_succ, doHyst_silCnt, silenceRun_silent, ih, Nat.add_assoc]

/-- From the first silent frame on the state is read off the run. -/
theorem silentFrames_succ_voice (k : Nat) (s : State) :
    (silentFrames (k + 1) s).voice = decide (s.silCnt + (k + 1) ≤ 4) := by
  rw [silentFrames_succ, doHyst_voice, silenceRun_silent, debounced_silent, silentFrames_silCnt, Nat.add_assoc]

/-- After a voice frame the state is voice for as long as the run of silent frames is at most 4, the empty run too. -/
theorem silentFrames_voice_of_voice {s : State} (hv : s.voice = true) (hc : s.silCnt = 0) (k : Nat) :
    (silentFrames k s).voice = decide (k ≤ 4) := by
  cases k with
  | zero => exact hv
  | succ k => rw [silentFrames_succ_voice, hc, Nat.zero_add]

theorem silentFrames_succ_trans (k : Nat) (s : State) :
    (silentFrames (k + 1) s).trans = transition (silentFrames (k + 1) s).voice (silentFrames k s).voice := by
  rw [silentFrames_succ, doHyst_trans, doHyst_voice]

/-- The bound of R153 is crossed once, between a run of 4 and one of 5. -/
theorem transition_at_five (k : Nat) : transition (decide (k + 1 ≤ 4)) (decide (k ≤ 4)) = decide (k + 1 = 5) := by
  rw [Bool.eq_iff_iff, transition_eq_true_iff, ← decide_not, decide_eq_decide, decide_eq_true_eq]
  omega

/-- Settles O37: the run is `k`, the state is read off it, and the fifth silent frame is the one that changes it. -/
theorem hangOverIsFiveFrames : Obligations.HangOverIsFiveFrames := by
  intro s k hv hc hk
  have hvoice := silentFrames_voice_of_voice hv hc
  obtain ⟨k, rfl⟩ := Nat.exists_eq_add_of_le' hk
  refine ⟨hvoice (k + 1), ?trans, ?run⟩
  case trans => rw [silentFrames_succ_trans, hvoice, hvoice, transition_at_five]
  case run => rw [silentFrames_silCnt, hc, Nat.zero_add]

end Sys2Proof.Machine
end

section
/-! The Emitter (46_emitter.md): the beats that EMIT adds to the messages in flight, one by one for the PCM message
(R85, R160) and as a word for the VAD message of a transition (R86, R162). -/

namespace Sys2Proof.Machine

/-! ## The beats of a frame's messages -/

/-- A beat of a PCM message is read off its sample and off whether a sample follows it (R85). -/
theorem getD_pcmBeats (l : List F32) (d : Beat) (w0 : F32) {i : Nat} (h : i < l.length) :
    (pcmBeats l).getD i d = beatWord (if i + 1 = l.length then 1#1 else 0#1) 0#1 (l.getD i w0) := by
  induction l using pcmBeats.induct generalizing i with
  | case1 => exact absurd h (Nat.not_lt_zero i)
  | case2 w =>
    obtain rfl : i = 0 := Nat.lt_one_iff.1 h
    rfl
  | case3 w x rest ih =>
    cases i with
    | zero => simp [pcmBeats]
    | succ i =>
      have hbeat := ih (Nat.lt_of_succ_lt_succ h)
      simpa only [pcmBeats, List.getD_cons_succ, List.length_cons, Nat.add_right_cancel_iff] using hbeat

/-- In the PCM message of a frame the last beat is the one at index 159 (R85, R160). -/
theorem getD_pcmBeats_frame (frm : Buf F32 160) (d : Beat) {i : Nat} (h : i < 160) :
    (pcmBeats frm.val).getD i d = beatWord (if i = 159 then 1#1 else 0#1) 0#1 (bufGet 0#32 frm i) := by
  have hlast : (i + 1 = frm.val.length) = (i = 159) := by
    rw [frm.property]
    exact propext Nat.add_right_cancel_iff
  rw [getD_pcmBeats frm.val d 0#32 (frm.property.symm ▸ h), bufGet]
  simp only [hlast]

/-- The two VAD beats as words (R86). -/
theorem beatWord_vadData (voice : Bool) :
    beatWord 1#1 1#1 (vadData voice) = if voice then 0x300000001#34 else 0x300000000#34 := by
  cases voice <;> rfl

/-- A frame adds the beats of its PCM message and, directly after them on a transition, the VAD beat (R160, R162). -/
theorem messagesBeats_frameMessages (frm : Buf F32 160) (trans voice : Bool) :
    messagesBeats (frameMessages frm trans voice) =
      pcmBeats frm.val ++ (if trans then [if voice then 0x300000001#34 else 0x300000000#34] else []) := by
  rw [← beatWord_vadData]
  cases trans <;> rfl

/-! ## EMIT -/

/-- EMIT writes the messages in flight and SEQ only (R161). -/
theorem doEmit_frame (s : State) : doEmit s = { s with port := (doEmit s).port, seq := seqAccum } := rfl

/-- Settles O39: the messages in flight grow by the beats of the frame's messages, of which the PCM beats are the
first 160. -/
theorem emitQueuesMessages : Obligations.EmitQueuesMessages := by
  intro s hrun
  refine ⟨doEmit s, pcmBeats s.frm.val, exec_emit hrun, doEmit_frame s, ?port, ?count, fun i hi => ?beat⟩
  case port => rw [doEmit_port, messagesBeats_frameMessages, List.append_assoc]
  case count => rw [length_pcmBeats, s.frm.property]
  case beat => exact getD_pcmBeats_frame s.frm 0#34 hi

end Sys2Proof.Machine
end

section
/-! What a step does at each place of the fetch, the idle positions and the fatal conditions (60_exceptions.md R181 to
R183, R187, R189, R190), and the reset edge (70_reset_and_hazards.md R200, R201). -/

namespace Sys2Proof.Machine

/-! ## A step at each place of the fetch -/

section
variable {s : State}

theorem step_of_rst (h : s.rst = true) : step s = .next (doReset { s with rst := false }) :=
  step_of_fetch (fetch_of_rst h) decode_pin_high

theorem step_of_halted (h : s.rst = false) (hh : s.halted = true) : step s = .next s :=
  (step_of_fetch (fetch_of_halted h hh) (decode_seq seqHalt)).trans (whenRunning_id s)

theorem step_of_beat {b : Beat} {bs : List Beat} {i : Instr} (h : s.rst = false) (hh : s.halted = false)
    (hp : s.port = b :: bs) (hd : decode .out b.toNat = .ok i) :
    step s = .next (driveBeat b { s with port := bs }) :=
  (step_of_fetch (fetch_of_port h hh hp) hd).trans (exec_beat hd hh)

/-- With nothing to drive and no word to take, the step is the operation that SEQ names, which may be the idle one. -/
theorem step_of_seq (hh : s.halted = false) (hf : fetch s = { fmt := .seq, bits := s.seq.toNat, rest := s }) :
    step s = .next (effect (decodeSeq s.seq) s) := by
  rw [step_of_fetch hf (decode_seq s.seq), exec_stage s.seq hh, stageEffect_eq_effect]

end

/-- Settles O5: at each place of the fetch the operation found answers a next state. -/
theorem stepNeverStops : Obligations.StepNeverStops := by
  intro s hbeats
  rcases fetch_cases s with ⟨hr, -⟩ | ⟨hr, hh, -⟩ | ⟨b, bs, hr, hh, hp, -⟩ | ⟨w, ws, hs, hq, -⟩ | ⟨-, hh, -, -, hf⟩
  · exact ⟨_, step_of_rst hr⟩
  · exact ⟨_, step_of_halted hr hh⟩
  · obtain ⟨i, hd⟩ := hbeats b (hp ▸ List.mem_cons_self)
    exact ⟨_, step_of_beat hr hh hp hd⟩
  · exact ⟨_, step_of_word hs hq⟩
  · exact ⟨_, step_of_seq hh hf⟩

/-! ## The halt -/

theorem run_of_step_self {M : Host.Core} {s : M.State} (h : M.step s = .next s) (n : Nat) : M.run n s = .next s := by
  induction n with
  | zero => rfl
  | succ n ih => rw [run_succ_of_step n h, ih]

/-- RESET gives every register of R48 its reset value, whatever the state before. -/
theorem resetValues_doReset (s : State) : ResetValues (doReset s) := resetStateValues

/-- Settles O6: a step of a halted core answers the state it began in, so any number of steps does; at the reset edge the
step is RESET. -/
theorem haltHoldsUntilReset : Obligations.HaltHoldsUntilReset := by
  intro s hh
  have hready : inReady s = false := by simp [inReady, hh]
  have hvalid : outValid s = false := by simp [outValid, hh]
  exact ⟨⟨hready, hvalid, hh, rfl⟩, fun hr n => run_of_step_self (M := Sys2Proof.core) (step_of_halted hr hh) n,
    fun hr => ⟨_, step_of_rst hr, resetValues_doReset _⟩⟩

/-- Settles O50: every row but the two excluded is guarded by HALTED, the PUSH rows by `in_ready`, which HALTED keeps
low. -/
theorem haltedForbidsOperations : Obligations.HaltedForbidsOperations := by
  intro i s hh hreset hreserved
  have hready : inReady s = false := by simp [inReady, hh]
  cases i with
  | push w => exact whenAccepted_of_not_ready hready
  | pushNonfinite sign fraction => exact whenAccepted_of_not_ready hready
  | reset => exact absurd rfl hreset
  | causeReserved => exact absurd rfl hreserved
  | _ => exact whenRunning_of_halted hh

/-! ## The reset edge -/

/-- Settles O47: the step at the edge is RESET, and both handshakes are low while `rst` is high. -/
theorem resetEdgeAbandonsFrame : Obligations.ResetEdgeAbandonsFrame := by
  intro s hr
  have hvalid : outValid s = false := by simp [outValid, hr]
  have hready : inReady s = false := by simp [inReady, hr]
  exact ⟨_, step_of_rst hr, rfl, rfl, rfl, rfl, rfl, hvalid, hready⟩

/-! ## Idle positions and cause rows -/

/-- Settles O15: each of the four rows is the identity, guarded or not. -/
theorem waitingOperationsChangeNothing : Obligations.WaitingOperationsChangeNothing := fun s =>
  ⟨whenRunning_id s, whenRunning_id s, whenRunning_id s, whenRunning_id s⟩

/-- Settles O42: on a running core both rows raise their fatal condition. -/
theorem causeRowsRaiseFatal : Obligations.CauseRowsRaiseFatal := fun _ hrun =>
  ⟨whenRunning_of_running hrun, whenRunning_of_running hrun⟩

/-- Settles O43: the row has no other arm. -/
theorem reservedCauseStops : Obligations.ReservedCauseStops := fun _ => rfl

/-! ## CHECK -/

theorem finite32_iff_exponent (w : F32) : finite32 w = true ↔ w.extractLsb' 23 8 ≠ 0xFF#8 := by
  rw [← beq_eq_false_iff_ne, ← exponentAllOnes, exponentAllOnes_eq_not_finite, Bool.not_eq_false']

/-- A binary64 word is finite unless its exponent field is all ones. -/
theorem finite64_iff_exponent (w : F64) : finite64 w = true ↔ w.extractLsb' 52 11 ≠ 0x7FF#11 := by
  have hfield : (w.extractLsb' 52 11).toNat = code64 w / 2 ^ 52 := by
    rw [BitVec.extractLsb'_toNat, Nat.shiftRight_eq_div_pow, code64]
    omega
  have hcode := code64_lt w
  rw [finite64_iff, infCode64, ne_eq, ← BitVec.toNat_inj, hfield, BitVec.toNat_ofNat]
  omega

/-- What CHECK asks, in terms of the exponent fields (R189). -/
theorem checkedFinite_iff (s : State) :
    checkedFinite s = true ↔
      (∀ w ∈ s.frm.val, w.extractLsb' 23 8 ≠ 0xFF#8) ∧
        ∀ v ∈ [s.hpXp, s.hpYp, s.lpY, s.rms, s.gain, s.calSum, s.nf], v.extractLsb' 52 11 ≠ 0x7FF#11 := by
  simp only [checkedFinite, valuesFinite, Bool.and_eq_true, List.all_eq_true, numDefault_finiteS, numDefault_finiteC,
    finite32_iff_exponent, finite64_iff_exponent]

theorem doCheck_of_finite {s : State} (h : checkedFinite s = true) : doCheck s = { s with seq := seqEmit } := if_pos h

theorem doCheck_of_not_finite {s : State} (h : checkedFinite s = false) :
    doCheck s = raiseFatal causeNonfiniteStateCode s := if_neg (Bool.eq_false_iff.1 h)

/-- Settles O44: the two clauses are the two branches of CHECK. -/
theorem checkGuardsEmission : Obligations.CheckGuardsEmission := by
  intro s hrun
  rw [← checkedFinite_iff, exec_check hrun]
  exact ⟨fun hfin => congrArg _ (doCheck_of_finite hfin),
    fun hfin => congrArg _ (doCheck_of_not_finite (Bool.eq_false_iff.2 hfin))⟩

end Sys2Proof.Machine
end

section
/-! The stage-by-stage machine and the transaction of R173 (47_frame_sequencer.md R170 to R173): the stages from HANDOFF
to HYST compute the context and the frame of `process_frame`, CHECK decides as it does, and EMIT with the beats after it
drives its messages. -/

namespace Sys2Proof.Machine

/-! ## Runs of some length -/

/-- Some number of steps leads from `s` to `t`. -/
def Reaches (s t : State) : Prop := ∃ n, Sys2Proof.core.run n s = .next t

theorem Reaches.refl (s : State) : Reaches s s := ⟨0, rfl⟩

theorem Reaches.of_step {s t : State} (h : step s = .next t) : Reaches s t :=
  ⟨1, run_succ_of_step (M := Sys2Proof.core) 0 h⟩

theorem run_add_of_run {M : Host.Core} {s t : M.State} {n : Nat} (m : Nat) (h : M.run n s = .next t) :
    M.run (n + m) s = M.run m t := by
  induction n generalizing s with
  | zero =>
    obtain rfl : s = t := Host.Outcome.next.inj h
    rw [Nat.zero_add]
  | succ n ih =>
    rw [Host.Core.run] at h
    split at h
    case h_1 u hstep => rw [Nat.add_right_comm, run_succ_of_step (n + m) hstep, ih h]
    case h_2 => cases h
    case h_3 => cases h

theorem Reaches.trans {s t u : State} (hst : Reaches s t) (htu : Reaches t u) : Reaches s u := by
  obtain ⟨n, hn⟩ := hst
  obtain ⟨m, hm⟩ := htu
  exact ⟨n + m, (run_add_of_run (M := Sys2Proof.core) m hn).trans hm⟩

/-! ## The stages in order -/

/-- A core that runs, with no message in flight, at the position `c` of the sequencer. -/
structure AtSeq (c : BitVec 4) (s : State) : Prop where
  rst : s.rst = false
  halted : s.halted = false
  port : s.port = []
  seq : s.seq = c

theorem AtSeq.step {c : BitVec 4} {s : State} (h : AtSeq c s) (hc : c ≠ seqAccum) :
    step s = .next (effect (decodeSeq c) s) := by
  obtain rfl := h.seq
  exact step_of_seq h.halted (fetch_of_stage h.rst h.halted h.port hc)

/-- The stages before CHECK hand on to the next code (R171). -/
theorem AtSeq.next {c : BitVec 4} {s : State} (h : AtSeq c s) (hlo : seqHandoff ≤ c) (hhi : c ≤ seqHyst) :
    AtSeq (c + 1#4) (effect (decodeSeq c) s) := by
  obtain ⟨hhalted, -, hport⟩ := effect_before_check s hhi
  obtain ⟨hrst, -⟩ := effect_host s (decodeSeq_ne_reset c)
  exact ⟨hrst.trans h.rst, hhalted.trans h.halted, hport.trans h.port, effect_decodeSeq_seq s hlo hhi⟩

/-- The effects of `n` stages in the order of their codes, from `c` on. -/
def stagesFrom : Nat → BitVec 4 → State → State
  | 0, _, s => s
  | n + 1, c, s => stagesFrom n (c + 1#4) (effect (decodeSeq c) s)

/-- The stages before CHECK are performed one after the other. -/
theorem reaches_stagesFrom {n : Nat} {c : BitVec 4} {s : State} (h : AtSeq c s) (hlo : seqHandoff ≤ c)
    (hhi : c.toNat + n ≤ 12) : Reaches s (stagesFrom n c s) := by
  induction n generalizing c s with
  | zero => exact Reaches.refl s
  | succ n ih =>
    have hc : c ≤ seqHyst := by bv_omega
    have hne : c ≠ seqAccum := by bv_omega
    exact (Reaches.of_step (h.step hne)).trans (ih (h.next hlo hc) (by bv_omega) (by bv_omega))

/-- The state before CHECK: every stage of the frame performed. -/
def analysed (s : State) : State :=
  doHyst (doClassify (doFlatcalc (doDft (doZcrcalc (doCal (doApply (doGainupd (doRmscalc (doFilt (doHandoff s))))))))))

theorem stagesFrom_handoff (s : State) : stagesFrom 11 seqHandoff s = analysed s := rfl

theorem analysed_atSeq {s : State} (h : AtSeq seqHandoff s) : AtSeq seqCheck (analysed s) :=
  ⟨h.rst, h.halted, h.port, rfl⟩

theorem reaches_analysed {s : State} (h : AtSeq seqHandoff s) : Reaches s (analysed s) :=
  stagesFrom_handoff s ▸ reaches_stagesFrom h (by decide) (by decide)

/-! ## What the stages compute -/

section
variable (s : State)

theorem analysed_frm : (analysed s).frm = processedFrame numDefault (heldOf s).ctx s.acc := by
  simp [analysed, processedFrame, frameGain, frameRms, filterStateOf]

theorem analysed_rms : (analysed s).rms = frameRms numDefault (heldOf s).ctx s.acc := by
  simp [analysed, frameRms, filterStateOf]

theorem analysed_heldOf :
    heldOf (analysed s) = { heldOf s with wr := 0, ctx := nextCtx numDefault (heldOf s).ctx s.acc } := by
  simp [heldOf, analysed, nextCtx, frameIsVoice, processedFrame, frameGain, frameRms, filterStateOf, calStateOf]

theorem analysed_voice : (analysed s).voice = (nextCtx numDefault (heldOf s).ctx s.acc).voice :=
  congrArg (·.ctx.voice) (analysed_heldOf s)

theorem analysed_trans :
    (analysed s).trans = transition (nextCtx numDefault (heldOf s).ctx s.acc).voice s.voice := by
  rw [← analysed_voice]
  simp [analysed]

theorem analysed_inq : (analysed s).inq = s.inq := rfl
theorem analysed_sent : (analysed s).sent = s.sent := rfl

/-- CHECK scans the values that R189 names of the held context, RMS and the frame. -/
theorem checkedFinite_analysed :
    checkedFinite (analysed s) =
      frameFinite numDefault (nextCtx numDefault (heldOf s).ctx s.acc) (frameRms numDefault (heldOf s).ctx s.acc)
        (processedFrame numDefault (heldOf s).ctx s.acc) := by
  have hctx : (heldOf (analysed s)).ctx = nextCtx numDefault (heldOf s).ctx s.acc :=
    congrArg Held.ctx (analysed_heldOf s)
  rw [← hctx, ← analysed_rms, ← analysed_frm]
  rfl

end

/-! ## Driving the messages -/

/-- All beats in flight driven. -/
def drained (s : State) : State := { s with port := [], sent := s.sent ++ s.port }

theorem drained_of_empty {s : State} (hp : s.port = []) : drained s = s := by
  rw [drained, hp, List.append_nil, ← hp]

theorem drained_of_cons {s : State} {b : Beat} {bs : List Beat} (hp : s.port = b :: bs) :
    drained (driveBeat b { s with port := bs }) = drained s := by
  simp [drained, driveBeat, hp]

/-- Beats that the opcode table describes are driven one by one, to the last. -/
theorem reaches_drained {s : State} (hr : s.rst = false) (hh : s.halted = false) (hb : ∀ b ∈ s.port, BeatOk b) :
    Reaches s (drained s) := by
  obtain ⟨bs, hp⟩ : ∃ bs, s.port = bs := ⟨_, rfl⟩
  induction bs generalizing s with
  | nil =>
    rw [drained_of_empty hp]
    exact Reaches.refl s
  | cons b bs ih =>
    rw [hp] at hb
    obtain ⟨⟨⟨i, hd⟩, -⟩, hbs⟩ := List.forall_mem_cons.1 hb
    rw [← drained_of_cons hp]
    exact (Reaches.of_step (step_of_beat hr hh hp hd)).trans (ih hr hh hbs rfl)

/-! ## One transaction -/

/-- Some number of steps from `s` does what a transaction answers and leaves the words `q` offered: it reaches a
quiescent state that holds what the transaction left, with its messages driven, or its halt with nothing driven. -/
def Performs (s : State) (q : List F32) : Transacted F32 F64 → Prop
  | .next h out =>
    ∃ t, Reaches s t ∧ Quiescent t ∧ t.inq = q ∧ heldOf t = h ∧ t.sent = s.sent ++ messagesBeats out
  | .halt h c =>
    ∃ t, Reaches s t ∧ t.rst = false ∧ t.halted = true ∧ t.cause = c ∧ t.seq = seqHalt ∧ t.port = [] ∧ t.inq = q ∧
      heldOf t = h ∧ t.sent = s.sent

/-- A run that drives nothing may come first. -/
theorem Performs.of_reaches {s u : State} {q : List F32} {r : Transacted F32 F64} (h : Performs u q r)
    (hsu : Reaches s u) (hsent : u.sent = s.sent) : Performs s q r := by
  cases r with
  | next held out =>
    obtain ⟨t, hut, ht⟩ := h
    exact ⟨t, hsu.trans hut, hsent ▸ ht⟩
  | halt held c =>
    obtain ⟨t, hut, ht⟩ := h
    exact ⟨t, hsu.trans hut, hsent ▸ ht⟩

/-- Raising a fatal condition is the halt of the transaction level, with nothing driven (R181). -/
theorem performs_raiseFatal {s : State} (c : BitVec 2) (hr : s.rst = false) (hp : s.port = []) :
    Performs (raiseFatal c s) s.inq (haltWith (heldOf s) c) :=
  ⟨raiseFatal c s, Reaches.refl _, hr, rfl, rfl, rfl, hp, rfl, rfl, rfl⟩

/-- EMIT and the beats after it drive the messages of a frame of bounded samples. -/
theorem performs_emit {s : State} (h : AtSeq seqEmit s) (hb : ∀ w ∈ s.frm.val, ClipBounded w) :
    Performs s s.inq (.next (heldOf s) (frameMessages s.frm s.trans s.voice)) := by
  have hport : (doEmit s).port = messagesBeats (frameMessages s.frm s.trans s.voice) := by
    rw [doEmit_port, h.port, List.nil_append]
  have hbeats : ∀ b ∈ (doEmit s).port, BeatOk b := fun b hm => beatOk_of_mem_frameMessages hb (hport ▸ hm)
  have hdrive : Reaches (doEmit s) (drained (doEmit s)) := reaches_drained h.rst h.halted hbeats
  exact ⟨drained (doEmit s), (Reaches.of_step (h.step (by decide))).trans hdrive, ⟨h.rst, h.halted, rfl, rfl⟩, rfl, rfl,
    congrArg (s.sent ++ ·) hport⟩

/-- What CHECK decides and EMIT drives, or the halt of CHECK (R173, R189). -/
def checkedMessages (s : State) : Transacted F32 F64 :=
  if checkedFinite s then .next (heldOf s) (frameMessages s.frm s.trans s.voice)
  else haltWith (heldOf s) causeNonfiniteStateCode

theorem performs_check {s : State} (h : AtSeq seqCheck s) (hb : ∀ w ∈ s.frm.val, ClipBounded w) :
    Performs s s.inq (checkedMessages s) := by
  have hstep : step s = .next (doCheck s) := h.step (by decide)
  refine Performs.of_reaches ?_ (Reaches.of_step hstep) (doCheck_sent s)
  unfold checkedMessages
  split
  case isTrue hfin =>
    rw [doCheck_of_finite hfin]
    exact performs_emit (s := { s with seq := seqEmit }) ⟨h.rst, h.halted, h.port, rfl⟩ hb
  case isFalse hfin =>
    rw [doCheck_of_not_finite (Bool.eq_false_iff.2 hfin)]
    exact performs_raiseFatal causeNonfiniteStateCode h.rst h.port

/-- The transaction of a completed frame, in terms of the state that its stages leave. -/
theorem transactFrame_eq_checkedMessages (s : State) :
    transactFrame numDefault (heldOf s) = checkedMessages (analysed s) := by
  rw [checkedMessages, checkedFinite_analysed, analysed_heldOf, analysed_frm, analysed_trans, analysed_voice]
  rcases transactFrame_cases numDefault (heldOf s) with ⟨hfin, hframe⟩ | ⟨hfin, hframe⟩
  · exact hframe.trans (if_pos hfin).symm
  · exact hframe.trans (if_neg (Bool.eq_false_iff.1 hfin)).symm

/-- APPLY bounds the frame, and no later stage writes it. -/
theorem clipBounded_analysed {s : State} {w : F32} (h : w ∈ (analysed s).frm.val) : ClipBounded w :=
  clipBounded_doApply (s := doGainupd (doRmscalc (doFilt (doHandoff s)))) h

/-- From HANDOFF on the machine does what R173 says of a completed frame. -/
theorem performs_transactFrame {s : State} (h : AtSeq seqHandoff s) :
    Performs s s.inq (transactFrame numDefault (heldOf s)) := by
  rw [transactFrame_eq_checkedMessages]
  have hcheck := performs_check (analysed_atSeq h) fun _ => clipBounded_analysed
  rw [analysed_inq] at hcheck
  exact hcheck.of_reaches (reaches_analysed h) (analysed_sent s)

/-- From the word that is taken on, the machine does what the transaction step of R173 says of that word. -/
theorem performs_transact {s : State} {w : F32} {ws : List F32} (h : Quiescent s) (hwr : s.wr < 160)
    (hq : s.inq = w :: ws) : Performs s ws (transact numDefault (heldOf s) w) := by
  have ⟨hr, hh, hseq, hp⟩ := h
  have hstep := step_of_word h hq
  rcases transact_cases numDefault (heldOf s) w with ⟨hhalted, -⟩ | ⟨-, hfin, ht⟩ | ⟨-, hfin, hshort, ht⟩ |
    ⟨-, hfin, hlast, ht⟩
  · exact absurd (hhalted.symm.trans hh) (by decide)
  · have hw : exponentAllOnes w = true := by rw [exponentAllOnes_eq_not_finite, Bool.not_eq_true']; exact hfin
    rw [acceptWord, if_pos hw] at hstep
    rw [ht]
    have hhalt := performs_raiseFatal (s := { s with inq := ws }) causeNonfiniteInputCode hr hp
    exact hhalt.of_reaches (Reaches.of_step hstep) rfl
  · have hwf := wf_push_iff.2 ((finite32_iff_exponent w).1 hfin)
    rw [ht]
    exact ⟨_, Reaches.of_step (step_of_partial_word h hq hwf hshort), ⟨hr, hh, hseq, hp⟩, rfl, rfl,
      (List.append_nil s.sent).symm⟩
  · have hwf := wf_push_iff.2 ((finite32_iff_exponent w).1 hfin)
    have hfull : s.wr + 1 = Config.frame := Nat.le_antisymm hwr hlast
    rw [acceptWord_of_wf hwf] at hstep
    rw [ht]
    have hready : AtSeq seqHandoff (storeSample w { s with inq := ws }) := ⟨hr, hh, hp, if_pos hfull⟩
    exact (performs_transactFrame hready).of_reaches (Reaches.of_step hstep) rfl

/-- Settles O9: the step that takes the word, the stages of the frame it completes, and the beats of its messages. -/
theorem stepsRefineTransaction : Obligations.StepsRefineTransaction := by
  intro s w ws hs hwr hq
  have hperf := performs_transact hs hwr hq
  refine ⟨fun h out hnext => ?next, fun h c hhalt => ?halt⟩
  case next =>
    rw [hnext] at hperf
    obtain ⟨t, ⟨n, hrun⟩, ht⟩ := hperf
    exact ⟨n, t, hrun, ht⟩
  case halt =>
    rw [hhalt] at hperf
    obtain ⟨t, ⟨n, hrun⟩, ht⟩ := hperf
    exact ⟨n, t, hrun, ht⟩

end Sys2Proof.Machine
end
